-- ==== Sys2Proof/Word.lean ====
section
/-! DEFINITION. The words of the command port and the bit strings of the streams
(spec/00_scope.md rules R8, R9; spec/30_encoding.md rule R54). -/

namespace Sys2Proof

/-- The command word CMD (R54): 32 bits, OPC in 31:28, RSV in 27:9, SYM in 8:0. -/
abbrev CmdWord := BitVec 32

/-- A bit string (R9): leftmost, that is earliest on a stream, first. -/
abbrev Bits := List Bool

/-- A Symbol (R14): a byte value 0..255, or the EOF-SYMBOL 256. -/
abbrev Sym := Fin 257

/-- The EOF-SYMBOL (R6, R14). -/
def eofSym : Sym := 256

end Sys2Proof
end

