-- ==== Sys2Proof/Syntax.lean ====
section
/-! DEFINITION. The commands of the block: one constructor per row of spec/opcode_table.json
(spec/30_encoding.md rules R54, R55). A constructor holds every bit of CMD below OPC, also the bits
that must be 0 (R56) and the bits that are ignored, so that the checks of the prologue
(spec/40_control.md rule R67) are made by the machine, in its order, and no bit of a command is
lost. DATA stands in LDFREQ alone: every other command ignores it (R53). -/

namespace Sys2Proof

inductive Instr where
  /-- OPC 0x0 (R68); `low` is CMD[27:0], ignored. -/
  | nop (low : BitVec 28)
  /-- OPC 0x1 (R69); `low` is CMD[27:0], must be 0. -/
  | clrfreq (low : BitVec 28)
  /-- OPC 0x2 (R70); `rsv` must be 0, `sym` at most 255; `count` is DATA. -/
  | ldfreq (rsv : BitVec 19) (sym : BitVec 9) (count : Nat)
  /-- OPC 0x3 (R71); `rsv` must be 0, `sym` at most 256. -/
  | rdfreq (rsv : BitVec 19) (sym : BitVec 9)
  /-- OPC 0x4 (R78); `low` must be 0. -/
  | build (low : BitVec 28)
  /-- OPC 0x5 (R88); `low` must be 0. -/
  | gencodes (low : BitVec 28)
  /-- OPC 0x6 (R93); `low` must be 0. -/
  | wrhdr (low : BitVec 28)
  /-- OPC 0x7 (R102); `low` must be 0. -/
  | encode (low : BitVec 28)
  /-- OPC 0x8 (R105); `low` must be 0. -/
  | flush (low : BitVec 28)
  /-- OPC 0x9 (R95); `low` must be 0. -/
  | rdhdr (low : BitVec 28)
  /-- OPC 0xA (R107); `low` must be 0. -/
  | decode (low : BitVec 28)
  /-- OPC 0xB (R72); `rsv` must be 0, `sym` at most 256. -/
  | rdcode (rsv : BitVec 19) (sym : BitVec 9)
  /-- OPC 0xC, reserved (R58). -/
  | reservedC (low : BitVec 28)
  /-- OPC 0xD, reserved (R58). -/
  | reservedD (low : BitVec 28)
  /-- OPC 0xE (R73); `low` is ignored. -/
  | clrerr (low : BitVec 28)
  /-- OPC 0xF (R74); `low` is ignored. -/
  | srst (low : BitVec 28)
  deriving DecidableEq, Repr

end Sys2Proof
end

