-- ==== Sys2Proof/WellFormed.lean ====
section
/-! DEFINITION. The well-formed commands: those that spec/30_encoding.md allows (rule R56: reserved
bits 0; rule R57: SYM in its range; rule R58: no reserved opcode; rule R62: COUNT fits DATA). The
machine runs ill-formed commands too, as the spec says: it raises IllegalCommand. -/

namespace Sys2Proof

/-- Is the command one that R55 to R58 allow, for DATA of `w` bits? -/
def Instr.WellFormed (w : Nat) : Instr → Bool
  | .nop _ => true
  | .clrfreq low => low == 0
  | .ldfreq rsv sym count => rsv == 0 && decide (sym.toNat ≤ 255) && decide (count < 2 ^ w)
  | .rdfreq rsv sym => rsv == 0 && decide (sym.toNat ≤ 256)
  | .build low => low == 0
  | .gencodes low => low == 0
  | .wrhdr low => low == 0
  | .encode low => low == 0
  | .flush low => low == 0
  | .rdhdr low => low == 0
  | .decode low => low == 0
  | .rdcode rsv sym => rsv == 0 && decide (sym.toNat ≤ 256)
  | .reservedC _ => false
  | .reservedD _ => false
  | .clrerr _ => true
  | .srst _ => true

end Sys2Proof
end

