-- ==== Sys2Proof/Decode.lean ====
section
/-! DEFINITION. The decoder and the encoder of a command transaction, two words CMD and DATA
(spec/30_encoding.md rules R53 to R59, R62).

The decoder is total: OPC alone selects the command (R59), all sixteen OPC values are rows of the
table, and each of the other bits of CMD goes into a field of the command. What the spec rejects in a
CMD word (a reserved opcode, reserved bits, a SYM out of range) it rejects by name in the machine, as
IllegalCommand with its sub-cause (`Machine.illegalCause`, R67), after the sticky error check. -/

namespace Sys2Proof

/-- CMD[31:28] (R54). -/
def cmdOpc (cmd : CmdWord) : BitVec 4 := cmd.extractLsb' 28 4

/-- CMD[27:0]. -/
def cmdLow (cmd : CmdWord) : BitVec 28 := cmd.extractLsb' 0 28

/-- CMD[27:9], RSV (R54). -/
def cmdRsv (cmd : CmdWord) : BitVec 19 := cmd.extractLsb' 9 19

/-- CMD[8:0], SYM (R54, R57). -/
def cmdSym (cmd : CmdWord) : BitVec 9 := cmd.extractLsb' 0 9

/-- The command a transaction (CMD, DATA) is, by R55. -/
def decode (cmd : CmdWord) (data : Nat) : Instr :=
  match (cmdOpc cmd).toNat with
  | 0x0 => .nop (cmdLow cmd)
  | 0x1 => .clrfreq (cmdLow cmd)
  | 0x2 => .ldfreq (cmdRsv cmd) (cmdSym cmd) data
  | 0x3 => .rdfreq (cmdRsv cmd) (cmdSym cmd)
  | 0x4 => .build (cmdLow cmd)
  | 0x5 => .gencodes (cmdLow cmd)
  | 0x6 => .wrhdr (cmdLow cmd)
  | 0x7 => .encode (cmdLow cmd)
  | 0x8 => .flush (cmdLow cmd)
  | 0x9 => .rdhdr (cmdLow cmd)
  | 0xA => .decode (cmdLow cmd)
  | 0xB => .rdcode (cmdRsv cmd) (cmdSym cmd)
  | 0xC => .reservedC (cmdLow cmd)
  | 0xD => .reservedD (cmdLow cmd)
  | 0xE => .clrerr (cmdLow cmd)
  | _ => .srst (cmdLow cmd)

/-- The OPC of a command (R55). -/
def Instr.opcode : Instr → BitVec 4
  | .nop _ => 0x0
  | .clrfreq _ => 0x1
  | .ldfreq _ _ _ => 0x2
  | .rdfreq _ _ => 0x3
  | .build _ => 0x4
  | .gencodes _ => 0x5
  | .wrhdr _ => 0x6
  | .encode _ => 0x7
  | .flush _ => 0x8
  | .rdhdr _ => 0x9
  | .decode _ => 0xA
  | .rdcode _ _ => 0xB
  | .reservedC _ => 0xC
  | .reservedD _ => 0xD
  | .clrerr _ => 0xE
  | .srst _ => 0xF

/-- A CMD word from OPC and CMD[27:0]. -/
def packLow (opc : BitVec 4) (low : BitVec 28) : CmdWord :=
  opc.setWidth 32 <<< 28 ||| low.setWidth 32

/-- A CMD word from OPC, RSV and SYM (R54). -/
def packSym (opc : BitVec 4) (rsv : BitVec 19) (sym : BitVec 9) : CmdWord :=
  opc.setWidth 32 <<< 28 ||| rsv.setWidth 32 <<< 9 ||| sym.setWidth 32

/-- The CMD word of a command (R54, R55). -/
def encodeCmd : Instr → CmdWord
  | .nop low => packLow 0x0 low
  | .clrfreq low => packLow 0x1 low
  | .ldfreq rsv sym _ => packSym 0x2 rsv sym
  | .rdfreq rsv sym => packSym 0x3 rsv sym
  | .build low => packLow 0x4 low
  | .gencodes low => packLow 0x5 low
  | .wrhdr low => packLow 0x6 low
  | .encode low => packLow 0x7 low
  | .flush low => packLow 0x8 low
  | .rdhdr low => packLow 0x9 low
  | .decode low => packLow 0xA low
  | .rdcode rsv sym => packSym 0xB rsv sym
  | .reservedC low => packLow 0xC low
  | .reservedD low => packLow 0xD low
  | .clrerr low => packLow 0xE low
  | .srst low => packLow 0xF low

/-- The DATA word of a command: COUNT for LDFREQ, 0 for every other (R60, R62). -/
def encodeData : Instr → Nat
  | .ldfreq _ _ count => count
  | _ => 0

/-- The words (CMD, DATA) of a command. -/
def encode (i : Instr) : CmdWord × Nat := (encodeCmd i, encodeData i)

/-- The transaction in an instruction whose bits are `w`, numbered as spec/opcode_table.json numbers
them: CMD is bits 31:0, DATA the bits above; bits from `nbits` on are 0. -/
def tableTransaction (nbits w : Nat) : CmdWord × Nat :=
  (BitVec.ofNat 32 (w % 2 ^ nbits), w % 2 ^ nbits / 2 ^ 32)

/-- What the decoder reads from a row's word. It refuses no word: every CMD word is a row's. -/
def decodeTableWord (nbits w : Nat) : Option Instr :=
  some (decode (tableTransaction nbits w).1 (tableTransaction nbits w).2)

end Sys2Proof
end

