-- ==== Sys2Proof/Machine/Bits.lean ====
section
/-! DEFINITION. Numbers as bit strings (spec/00_scope.md rule R9), most significant bit first
(spec/20_memory.md rule R46). -/

namespace Sys2Proof.Machine

/-- `bin_n(v)` (R9): the `n` low bits of `v`, the most significant first. -/
def bin : Nat → Nat → Bits
  | 0, _ => []
  | n + 1, v => v.testBit n :: bin n v

/-- `val(s)` (R9), continued from an accumulator. -/
def valFrom : Nat → Bits → Nat
  | acc, [] => acc
  | acc, b :: s => valFrom (2 * acc + b.toNat) s

/-- `val(s)` (R9): the number whose `bin` is `s`. -/
def val (s : Bits) : Nat := valFrom 0 s

end Sys2Proof.Machine
end

