-- ==== Sys2Proof/Config.lean ====
section
/-! DEFINITION. The implementation parameters of spec/00_scope.md rule R6, and the one free value of
the model. W_COUNT and COLLAB are OPEN: they stand in State as plain data (`State.wCount`,
`State.answers`), so that a statement about every state is about every value of them. LATENCY is
OPEN and no rule depends on it (log 14). -/

namespace Sys2Proof.Config

/-- W_COUNT's default (R6). -/
def defaultWCount : Nat := 32

/-- W_COUNT is at least 2 (R6). -/
def minWCount : Nat := 2

/-- MAX_LEAVES (R6): the largest leaf count of a tree the block holds. -/
def maxLeaves : Nat := 257

/-- MAX_INTERNAL (R6): the largest internal-node count. -/
def maxInternal : Nat := 256

/-- MAX_NODES (R6): the capacity of the node store. -/
def maxNodes : Nat := 513

/-- MAX_CODE_LEN (R6): the longest code. -/
def maxCodeLen : Nat := 256

/-- STACK_DEPTH (R6): the capacity of the traversal stack. -/
def stackDepth : Nat := 257

/-- DESIGN CHOICE (log 12), safe. What the STATUS port shows in TREE_VALID, CODES_VALID and the ERR
fields while a command runs: any value (93_implementation_defined.md I15). It has no body, so
nothing can be proved of the value; the model's counter `State.waits` indexes it. -/
opaque busyStatus : Nat → BitVec 32

end Sys2Proof.Config
end

