-- ==== Sys2Proof/Machine/State.lean ====
section
/-! DEFINITION. The state of the block, of the streams and of the two outside parties
(spec/10_state.md, spec/20_memory.md), as plain data, and the state after reset (rule R36). -/

namespace Sys2Proof.Machine

/-- A table of `n` entries. -/
structure Table (α : Type) (n : Nat) where
  entries : List α
  size_eq : entries.length = n
  deriving DecidableEq, Repr

/-- The trees of R10. An internal node is a constructor of its own; there is no "no symbol" marker. -/
inductive HuffTree where
  | leaf (sym : Sym) (w : Nat)
  | node (l : HuffTree) (r : HuffTree) (w : Nat)
  deriving DecidableEq, Repr

/-- The error kinds of R118; `ErrKind.code` gives the number in STATUS.ERR. -/
inductive ErrKind where
  | ioFailure
  | corruptHeader
  | corruptBody
  | illegalCommand
  | sequenceError
  | countOverflow
  | missingCode
  deriving DecidableEq, Repr

/-- STATUS (R26) by field. Bits 31:24 have no storage (R35). -/
structure Status where
  busy : Bool
  treeValid : Bool
  codesValid : Bool
  rej : Bool
  err : BitVec 4
  errOp : BitVec 4
  errSub : BitVec 3
  errSym : BitVec 9
  deriving DecidableEq, Repr

/-- RESULT (R30). `count` is an unsigned number of W_COUNT bits. -/
structure Result where
  count : Nat
  present : Bool
  len : BitVec 9
  bits : BitVec 256
  deriving DecidableEq, Repr

/-- The command latch (R31): CMD and DATA as they were accepted. -/
structure Latch where
  cmd : CmdWord
  data : Nat
  deriving DecidableEq, Repr

/-- A call the block makes to the collaborator, with its arguments (R11, R37). -/
inductive Call where
  | inRead (n : Nat)
  | outWrite (n : Nat) (v : Nat)
  | outFlush
  deriving DecidableEq, Repr

/-- How the collaborator answers one call: the OPEN parameter COLLAB (R6), one answer at a time. -/
inductive Answer where
  /-- The call is answered: DATA or EOD to a read (R42), OK to a write or a flush; a flush pads as the
  reference collaborator does (R47). -/
  | ok
  /-- As `ok`, but a flush pads with these bits (R45: the padding is the collaborator's). -/
  | pad (bits : Bits)
  /-- FAIL. A read leaves IN at position `k` (R42: not specified); a write has appended the first `k`
  of its bits (R44: not specified how many); a flush leaves OUT holding `left` (R122: OUT's state is
  the collaborator's). -/
  | fail (k : Nat) (left : Bits)
  /-- Not answered yet: the block stays BUSY and waits (R75). -/
  | later
  /-- Never answered: the block stays BUSY until the hardware reset (R75, R134). -/
  | never
  deriving DecidableEq, Repr

/-- A move of the host at the block's ports (R144). -/
inductive PortEvent where
  /-- Offer a command (R53). -/
  | offer (cmd : CmdWord) (data : Nat)
  /-- Rewind IN to its start (R40). -/
  | rewindIn
  /-- Attach a source to IN, at a bit position (R144); its bits are finitely many (log 24). -/
  | attachIn (bits : Bits) (pos : Nat)
  /-- Attach a sink to OUT, which may hold bits already (R144). -/
  | attachOut (bits : Bits)
  deriving DecidableEq, Repr

/-- The hardware reset input at one step (R132, R134; log 10). -/
inductive ResetLevel where
  | released
  /-- Asserted before the step does anything. -/
  | asserted
  /-- Asserted while the step runs: after `n` pieces of work of its command, each with at most one collaborator
  call, or when the step ends, if that is earlier. -/
  | during (n : Nat)
  deriving DecidableEq, Repr

/-- An entry of PQ (R27): key (`weight`, `seq`) and tree. -/
structure PqEntry where
  weight : Nat
  seq : Nat
  tree : HuffTree
  deriving DecidableEq, Repr

/-- What WRHDR has still to write (R93): a subtree, or the 9-bit field of a leaf whose marker is out. -/
inductive HdrItem where
  | subtree (t : HuffTree)
  | field (s : Sym)
  deriving DecidableEq, Repr

/-- Where ENCODE stands in its loop (R102): at `InRead(8)`, at the write of a byte's code, or at the
write of the EOF code. -/
inductive EncodePhase where
  | fetch
  | emit (c : Bits)
  | last (e : Bits)
  deriving DecidableEq, Repr

/-- Where RDHDR's parse stands (R96): at a marker, or at a leaf's 9-bit field. -/
inductive ParsePhase where
  | marker
  | field
  deriving DecidableEq, Repr

/-- The hidden working state of the command being run (R17, R27, R28, R29); it exists only during its
command. The stacks are the explicit form of the recursion that R12 and R97 allow. -/
inductive Work where
  /-- BUILD: PQ and NEXTSEQ (R27). -/
  | build (pq : List PqEntry) (nextSeq : Nat)
  /-- GENCODES: the subtrees still to walk, each with the path to it (R88). -/
  | gencodes (stack : List (HuffTree × Bits))
  /-- WRHDR: what is still to be written (R93). -/
  | wrhdr (stack : List HdrItem)
  /-- ENCODE (R102). -/
  | encode (phase : EncodePhase)
  /-- FLUSH (R105). -/
  | flush
  /-- RDHDR: SEEN, NINT and the stack (R29, R96). A stack entry is an internal node whose left subtree
  is being read (`none`) or is complete (`some l`) while its right one is being read. -/
  | rdhdr (phase : ParsePhase) (seen : List Sym) (nint : Nat) (stack : List (Option HuffTree))
  /-- DECODE: CUR (R28), as the subtree it refers to (log 16). -/
  | decode (cur : HuffTree)
  deriving DecidableEq, Repr

/-- Everything the spec gives the machine. INVENTORY.md lists each field with its rule. -/
@[ext]
structure State where
  /-- W_COUNT (R6), a parameter: no step changes it (log 2). -/
  wCount : Nat
  /-- STATUS (R26). -/
  status : Status
  /-- FREQ[0..255] (R22); FREQ[256] is the constant 1 and has no storage (R23). -/
  freq : Table Nat 256
  /-- TREE (R18); `none` while its content is unspecified (R36). -/
  tree : Option HuffTree
  /-- CODE[0..256] (R24): an entry is ABSENT (`none`) or PRESENT(c) (`some c`); the whole is `none`
  while its content is unspecified (R36). -/
  code : Option (Table (Option Bits) 257)
  /-- RESULT (R30). -/
  result : Result
  /-- The command latch (R31); `none` outside a command (R36). -/
  latch : Option Latch
  /-- PQ, NEXTSEQ, CUR, SEEN, NINT, the traversal stack (R27 to R29); `none` outside a command. -/
  work : Option Work
  /-- The collaborator call made and not answered yet (R134). -/
  outstanding : Option Call
  /-- IN's bits (R40). That they are finitely many is the model's choice (DESIGN CHOICE, log 24, unsafe for a
  claim that a command ends): R40 says "a sequence of bits", only the reference collaborator's IN is finite
  (R47), and R106 and R112 take a finite IN as a premise. -/
  inp : Bits
  /-- IN's read position in bits (R40). -/
  inPos : Nat
  /-- OUT's bits (R41). -/
  out : Bits
  /-- The calls made so far, oldest first (R37). -/
  calls : List Call
  /-- The collaborator's coming answers (COLLAB, log 3); a call past the end of the list is answered
  `ok`. -/
  answers : List Answer
  /-- The host's coming moves (R144). -/
  port : List PortEvent
  /-- The hardware reset input at each coming step (R132, R134, log 10); released past the end. -/
  resetPin : List ResetLevel
  /-- The model's own counter of steps that ended in a wait; it indexes `Config.busyStatus` (log 12). -/
  waits : Nat
  deriving DecidableEq, Repr

/-- Why the model stops. Each is raised only in states that no run from reset reaches (log 13), where
the spec gives no effect; all are safe. -/
inductive Fault where
  /-- GENCODES, WRHDR, DECODE, ENCODE, RDCODE: a valid bit is 1 and the content behind it is
  unspecified (93_implementation_defined.md I12). Safe. -/
  | unspecifiedRead
  /-- BUILD: PQ is empty (R79 gives it at least the EOF entry). Safe. -/
  | emptyQueue
  /-- ENCODE: CODE[256] is ABSENT behind CODES_VALID = 1 (R106: always PRESENT). Safe. -/
  | noEofCode
  /-- DECODE on a tree whose root is a leaf other than EOF: it would write bytes for ever without
  reading (D9). Safe. -/
  | endlessWalk
  /-- A BUSY block with no command in it. Safe. -/
  | busyWithoutWork
  deriving DecidableEq, Repr

/-- Instructions without a meaning. No arm of exec uses it. Safe. -/
inductive Refusal where
  | notModelled (mnemonic : String)
  deriving DecidableEq, Repr

/-- A table with `a` in every entry. -/
def Table.fill {α : Type} (n : Nat) (a : α) : Table α n :=
  ⟨List.replicate n a, List.length_replicate⟩

/-- STATUS after reset (R36). -/
def Status.reset : Status :=
  { busy := false, treeValid := false, codesValid := false, rej := false
    err := 0, errOp := 0, errSub := 0, errSym := 0 }

/-- RESULT after reset (R36). -/
def Result.reset : Result :=
  { count := 0, present := false, len := 0, bits := 0 }

/-- The state after reset: block state as R36 gives it, W_COUNT at its default (R6). The streams and
the outside parties are not block state; empty lists stand for them (DESIGN CHOICE, log 3, 6, 10, 11,
12, 19, 24, unsafe for a claim about the run from reset). -/
def State.reset : State :=
  { wCount := Config.defaultWCount
    status := Status.reset
    freq := Table.fill 256 0
    tree := none
    code := none
    result := Result.reset
    latch := none
    work := none
    outstanding := none
    inp := []
    inPos := 0
    out := []
    calls := []
    answers := []
    port := []
    resetPin := []
    waits := 0 }

end Sys2Proof.Machine
end

