-- ==== Sys2Proof/Machine/TreeOps.lean ====
section
/-! DEFINITION. Functions of a tree: the measures of spec/00_scope.md rule R10, the header format of
spec/30_encoding.md rule R63, the code function of spec/42_code_table.md rule R89, the body format of
spec/30_encoding.md rule R65 and `strip` of spec/43_header_codec.md rule R99. -/

namespace Sys2Proof.Machine

/-- `weight(t)` (R10). -/
def HuffTree.weight : HuffTree → Nat
  | .leaf _ w => w
  | .node _ _ w => w

/-- `leaves(t)` in preorder (R10). -/
def HuffTree.leaves : HuffTree → List Sym
  | .leaf s _ => [s]
  | .node l r _ => l.leaves ++ r.leaves

/-- `leafCount(t)` (R10). -/
def HuffTree.leafCount : HuffTree → Nat
  | .leaf _ _ => 1
  | .node l r _ => l.leafCount + r.leafCount

/-- `internalCount(t)` (R10). -/
def HuffTree.internalCount : HuffTree → Nat
  | .leaf _ _ => 0
  | .node l r _ => l.internalCount + r.internalCount + 1

/-- `depth(t)` (R10). -/
def HuffTree.depth : HuffTree → Nat
  | .leaf _ _ => 0
  | .node l r _ => max l.depth r.depth + 1

/-- The nodes of a tree, leaves and internal nodes. -/
def HuffTree.nodeCount : HuffTree → Nat
  | .leaf _ _ => 1
  | .node l r _ => l.nodeCount + r.nodeCount + 1

/-- `strip(t)` (R99): every weight 0, shape and Symbols kept. -/
def HuffTree.strip : HuffTree → HuffTree
  | .leaf s _ => .leaf s 0
  | .node l r _ => .node l.strip r.strip 0

/-- `hdr(t)` (R63). -/
def HuffTree.hdr : HuffTree → Bits
  | .leaf s _ => true :: bin 9 s.val
  | .node l r _ => false :: (l.hdr ++ r.hdr)

/-- The calls WRHDR makes for a tree, in order (R93). -/
def HuffTree.hdrCalls : HuffTree → List Call
  | .leaf s _ => [.outWrite 1 1, .outWrite 9 s.val]
  | .node l r _ => .outWrite 1 0 :: (l.hdrCalls ++ r.hdrCalls)

/-- `code_t(s)` (R89): the path to the leaf labelled `s`, 0 for left and 1 for right; `none` if no leaf
has that label. -/
def HuffTree.codeOf : HuffTree → Sym → Option Bits
  | .leaf s _, x => if s = x then some [] else none
  | .node l r _, x =>
    match l.codeOf x with
    | some p => some (false :: p)
    | none => (r.codeOf x).map (true :: ·)

/-- Every internal node's weight is the sum of its children's (R21, R84). -/
def HuffTree.weightsAdd : HuffTree → Bool
  | .leaf _ _ => true
  | .node l r w => decide (w = l.weight + r.weight) && l.weightsAdd && r.weightsAdd

/-- The leaves with their weights, in preorder. -/
def HuffTree.weightedLeaves : HuffTree → List (Sym × Nat)
  | .leaf s w => [(s, w)]
  | .node l r _ => l.weightedLeaves ++ r.weightedLeaves

/-- Every leaf's weight is positive (R21). -/
def HuffTree.weightsPositive : HuffTree → Bool
  | .leaf _ w => decide (0 < w)
  | .node l r _ => l.weightsPositive && r.weightsPositive

/-- The node a path from the root leads to (R89), if the path stays in the tree. -/
def HuffTree.at? : HuffTree → Bits → Option HuffTree
  | t, [] => some t
  | .leaf _ _, _ :: _ => none
  | .node l r _, b :: p => if b then r.at? p else l.at? p

/-- The Symbol of a byte value. -/
def byteSym (b : Fin 256) : Sym := b.castSucc

/-- `body(S)` (R65) under the codes of a tree; `none` if some byte of `S`, or EOF, has no code. -/
def HuffTree.body (t : HuffTree) : List (Fin 256) → Option Bits
  | [] => t.codeOf eofSym
  | b :: s =>
    match t.codeOf (byteSym b), t.body s with
    | some c, some rest => some (c ++ rest)
    | _, _ => none

end Sys2Proof.Machine
end

