-- ==== Sys2Proof/Machine/Ops.lean ====
section
/-! DEFINITION. The operations every command shares: reading and writing a table entry, the updates of
one field of State, the three calls to the collaborator (spec/20_memory.md rules R42 to R45), raising
an error and ending a command (spec/60_exceptions.md rule R121, spec/40_control.md rule R75), the
reset of block state (spec/10_state.md rule R36) and the hardware reset
(spec/70_reset_and_hazards.md rules R132, R134). -/

namespace Sys2Proof.Machine

/-! ### Tables -/

/-- Entry `i` of a table. -/
def Table.get {α : Type} {n : Nat} (t : Table α n) (i : Fin n) : α :=
  t.entries[i.val]'(by rw [t.size_eq]; exact i.isLt)

/-- The table with entry `i` replaced. -/
def Table.set {α : Type} {n : Nat} (t : Table α n) (i : Fin n) (a : α) : Table α n :=
  ⟨t.entries.set i.val a, by rw [List.length_set]; exact t.size_eq⟩

/-! ### Updates of one field -/

def State.setStatus (s : State) (x : Status) : State := { s with status := x }
def State.setFreq (s : State) (x : Table Nat 256) : State := { s with freq := x }
def State.setTree (s : State) (x : Option HuffTree) : State := { s with tree := x }
def State.setCode (s : State) (x : Option (Table (Option Bits) 257)) : State := { s with code := x }
def State.setResult (s : State) (x : Result) : State := { s with result := x }
def State.setLatch (s : State) (x : Option Latch) : State := { s with latch := x }
def State.setWork (s : State) (x : Option Work) : State := { s with work := x }
def State.setOutstanding (s : State) (x : Option Call) : State := { s with outstanding := x }
def State.setInp (s : State) (x : Bits) : State := { s with inp := x }
def State.setInPos (s : State) (x : Nat) : State := { s with inPos := x }
def State.setOut (s : State) (x : Bits) : State := { s with out := x }
def State.setCalls (s : State) (x : List Call) : State := { s with calls := x }
def State.setAnswers (s : State) (x : List Answer) : State := { s with answers := x }
def State.setPort (s : State) (x : List PortEvent) : State := { s with port := x }
def State.setResetPin (s : State) (x : List ResetLevel) : State := { s with resetPin := x }
def State.setWaits (s : State) (x : Nat) : State := { s with waits := x }

/-- STATUS.TREE_VALID and STATUS.CODES_VALID written (R20, R25). -/
def State.setValid (s : State) (tree codes : Bool) : State :=
  s.setStatus { s.status with treeValid := tree, codesValid := codes }

/-- TREE_VALID <- 0, CODES_VALID <- 0, as BUILD and RDHDR begin (R20, R25). The contents behind the two
bits are unspecified from here on (93_implementation_defined.md I12, log 7). -/
def State.dropTree (s : State) : State :=
  ((s.setValid false false).setTree none).setCode none

/-- TREE <- t, TREE_VALID <- 1, as BUILD and RDHDR succeed (R83, R95). -/
def State.holdTree (s : State) (t : HuffTree) : State :=
  (s.setTree (some t)).setStatus { s.status with treeValid := true }

/-! ### The streams -/

/-- The bits of IN from its position on (R40). -/
def State.rest (s : State) : Bits := s.inp.drop s.inPos

/-- The number of bits IN still holds. -/
def State.remaining (s : State) : Nat := s.inp.length - s.inPos

/-- Bits appended to OUT (R41). -/
def State.append (s : State) (bits : Bits) : State := s.setOut (s.out ++ bits)

/-- The reference collaborator's padding (R47): zeros to a multiple of 8 bits. -/
def zeroPad (length : Nat) : Bits := List.replicate ((8 - length % 8) % 8) false

/-- The padding an answered flush adds (R45, R47). -/
def flushPad (a : Answer) (length : Nat) : Bits :=
  match a with
  | .pad bits => bits
  | .ok => zeroPad length
  | .fail _ _ => []
  | .later => []
  | .never => []

/-- What an answered call does to the streams: a read of `n` bits takes them if there are `n` (R42,
R43), a write appends its bits (R44), a flush its padding (R45). -/
def okEffect (c : Call) (a : Answer) (s : State) : State :=
  match c with
  | .inRead n => if s.remaining < n then s else s.setInPos (s.inPos + n)
  | .outWrite n v => s.append (bin n v)
  | .outFlush => s.append (flushPad a s.out.length)

/-- What a failing call does to the streams: the collaborator's choice, `k` and `left` (R42, R44, R122;
log 4). -/
def failEffect (c : Call) (k : Nat) (left : Bits) (s : State) : State :=
  match c with
  | .inRead _ => s.setInPos k
  | .outWrite n v => s.append ((bin n v).take k)
  | .outFlush => s.setOut left

/-! ### The collaborator -/

/-- The collaborator's next answer (log 3). -/
def State.nextAnswer (s : State) : Answer := s.answers.headD .ok

/-- The next answer used up. -/
def State.popAnswer (s : State) : State := s.setAnswers s.answers.tail

/-- The call made: it joins the sequence of calls (R37), once, also when its answer takes several
steps. -/
def State.issue (s : State) (c : Call) : State :=
  match s.outstanding with
  | some _ => s
  | none => s.setCalls (s.calls ++ [c])

/-- The call answered: it is outstanding no more. -/
def State.closeCall (s : State) : State := s.popAnswer.setOutstanding none

/-- How a call ends, and the state then. -/
inductive Answered where
  | ok (s : State)
  | fail (s : State)
  | wait (s : State)

/-- One call to the collaborator: made, and answered as the next answer says. -/
def callCollab (c : Call) (s : State) : Answered :=
  match s.nextAnswer with
  | .ok => .ok (okEffect c .ok (s.issue c).closeCall)
  | .pad bits => .ok (okEffect c (.pad bits) (s.issue c).closeCall)
  | .fail k left => .fail (failEffect c k left (s.issue c).closeCall)
  | .later => .wait ((s.issue c).popAnswer.setOutstanding (some c))
  | .never => .wait ((s.issue c).setOutstanding (some c))

/-- The results of `InRead(n)` (R42); `wait` while there is none. -/
inductive ReadResult where
  | data (v : Nat) (s : State)
  | eod (s : State)
  | fail (s : State)
  | wait (s : State)

/-- `InRead(n)` (R42, R43, R46). FAIL comes before EOD (R126). -/
def inRead (n : Nat) (s : State) : ReadResult :=
  match callCollab (.inRead n) s with
  | .ok s' => if s.remaining < n then .eod s' else .data (val (s.rest.take n)) s'
  | .fail s' => .fail s'
  | .wait s' => .wait s'

/-- `OutWrite(n, v)` (R44): `OutWrite(0, 0)` makes no call and is OK. -/
def outWrite (n v : Nat) (s : State) : Answered :=
  if n = 0 then .ok s else callCollab (.outWrite n v) s

/-- `OutFlush()` (R45). -/
def outFlush (s : State) : Answered := callCollab .outFlush s

/-! ### Errors and the end of a command -/

/-- The number of an error kind in STATUS.ERR (R118). -/
def ErrKind.code : ErrKind → BitVec 4
  | .ioFailure => 1
  | .corruptHeader => 2
  | .corruptBody => 3
  | .illegalCommand => 4
  | .sequenceError => 5
  | .countOverflow => 6
  | .missingCode => 7

/-- The last action of every command: BUSY falls (R75). The latch's content is unspecified from here on
(93_implementation_defined.md I13, log 8). -/
def endCommand (s : State) : State :=
  (s.setStatus { s.status with busy := false }).setLatch none

/-- `raise E(sub, sym)` inside command `op` (R121). -/
def raiseError (op : BitVec 4) (e : ErrKind) (sub : BitVec 3) (sym : BitVec 9) (s : State) : State :=
  endCommand (s.setStatus { s.status with err := e.code, errOp := op, errSub := sub, errSym := sym })

/-- ERR, ERR_OP, ERR_SUB, ERR_SYM, REJ <- 0: the host's way out of an error (R73, R123). -/
def clearError (s : State) : State :=
  s.setStatus { s.status with err := 0, errOp := 0, errSub := 0, errSym := 0, rej := false }

/-- REJ <- 1, the one effect of a command rejected because ERR is not 0 (R34, R67 step 1). -/
def recordRejection (s : State) : State := s.setStatus { s.status with rej := true }

/-- A command rejected (R67 step 1). -/
def reject (s : State) : State := endCommand (recordRejection s)

/-- The command latched and BUSY <- 1 (R31, R53, R67). A step has latched the words as the host offered
them; a command run outside a step latches its own words (log 8). -/
def accept (i : Instr) (s : State) : State :=
  (s.setStatus { s.status with busy := true }).setLatch
    (some (s.latch.getD { cmd := encodeCmd i, data := encodeData i }))

/-! ### Reset -/

/-- Every piece of block state at its reset value (R36, R74, R132). IN, OUT and the outside parties are
not block state and stay. -/
def resetBlock (s : State) : State :=
  { s with
    status := Status.reset
    freq := Table.fill 256 0
    tree := none
    code := none
    result := Result.reset
    latch := none
    work := none
    outstanding := none }

/-- The outcome of a call that the hardware reset leaves without a listener is the collaborator's
(R134): its next answer still acts on the streams (log 10). -/
def abandonCall (s : State) : State :=
  match s.outstanding with
  | none => s
  | some c =>
    match s.nextAnswer with
    | .ok => okEffect c .ok s.closeCall
    | .pad bits => okEffect c (.pad bits) s.closeCall
    | .fail k left => failEffect c k left s.closeCall
    | .later => s.closeCall
    | .never => s.closeCall

/-- The hardware reset input asserted (R132, R134). -/
def hardReset (s : State) : State := resetBlock (abandonCall s)

/-! ### The course of a command -/

/-- Where a command stands after one piece of its work. -/
inductive Progress where
  /-- It goes on. -/
  | more (w : Work) (s : State)
  /-- A call of it is not answered yet. -/
  | wait (w : Work) (s : State)
  /-- `return` (R11). -/
  | done (s : State)
  /-- `raise E(sub, sym)` (R121). -/
  | raised (e : ErrKind) (sub : BitVec 3) (sym : BitVec 9) (s : State)
  /-- A state that no run reaches (log 13). -/
  | stuck (f : Fault)

end Sys2Proof.Machine
end

