-- ==== Sys2Proof/Machine/Operands.lean ====
section
/-! DEFINITION. The operand forms: SYM as an index of FREQ and of CODE, COUNT, and the checks of the
prologue on a command's bits (spec/30_encoding.md rules R56 to R58, R62; spec/40_control.md rule R67
steps 2 to 4; spec/10_state.md rules R23, R24). -/

namespace Sys2Proof.Machine

/-- The causes of IllegalCommand (R118); `IllegalCause.sub` and `IllegalCause.sym` give ERR_SUB and
ERR_SYM. -/
inductive IllegalCause where
  | reservedOpcode
  | reservedBits
  | symRange (sym : BitVec 9)
  deriving DecidableEq, Repr

/-- ERR_SUB of an illegal command (R118). -/
def IllegalCause.sub : IllegalCause → BitVec 3
  | .reservedOpcode => 0
  | .reservedBits => 1
  | .symRange _ => 2

/-- ERR_SYM of an illegal command (R118). -/
def IllegalCause.sym : IllegalCause → BitVec 9
  | .reservedOpcode => 0
  | .reservedBits => 0
  | .symRange sym => sym

/-- CMD[27:0] must be 0 (R56). -/
def checkLow (low : BitVec 28) : Option IllegalCause :=
  if low = 0 then none else some .reservedBits

/-- RSV must be 0 (R56), then SYM at most `limit` (R57). -/
def checkSym (limit : Nat) (rsv : BitVec 19) (sym : BitVec 9) : Option IllegalCause :=
  if rsv = 0 then if sym.toNat ≤ limit then none else some (.symRange sym)
  else some .reservedBits

/-- Steps 2 to 4 of the prologue, in their order (R67): the first cause for which a command is illegal. -/
def illegalCause : Instr → Option IllegalCause
  | .nop _ => none
  | .clrfreq low => checkLow low
  | .ldfreq rsv sym _ => checkSym 255 rsv sym
  | .rdfreq rsv sym => checkSym 256 rsv sym
  | .build low => checkLow low
  | .gencodes low => checkLow low
  | .wrhdr low => checkLow low
  | .encode low => checkLow low
  | .flush low => checkLow low
  | .rdhdr low => checkLow low
  | .decode low => checkLow low
  | .rdcode rsv sym => checkSym 256 rsv sym
  | .reservedC _ => some .reservedOpcode
  | .reservedD _ => some .reservedOpcode
  | .clrerr _ => none
  | .srst _ => none

/-- NOP, CLRERR and SRST are never rejected (R67 step 1, R127). -/
def neverRejected : Instr → Bool
  | .nop _ => true
  | .clrfreq _ => false
  | .ldfreq _ _ _ => false
  | .rdfreq _ _ => false
  | .build _ => false
  | .gencodes _ => false
  | .wrhdr _ => false
  | .encode _ => false
  | .flush _ => false
  | .rdhdr _ => false
  | .decode _ => false
  | .rdcode _ _ => false
  | .reservedC _ => false
  | .reservedD _ => false
  | .clrerr _ => true
  | .srst _ => true

/-- COUNT = DATA[W_COUNT-1:0] (R54, R62). -/
def countOf (w data : Nat) : Nat := data % 2 ^ w

/-- FREQ[s] as RDFREQ and BUILD read it: FREQ[256] is the constant 1 (R23). -/
def freqOf (freq : Table Nat 256) (v : Nat) : Nat :=
  if h : v < 256 then freq.get ⟨v, h⟩ else 1

/-- FREQ[v] <- count, for a byte value `v` (R70). -/
def setFreqAt (freq : Table Nat 256) (v count : Nat) : Table Nat 256 :=
  if h : v < 256 then freq.set ⟨v, h⟩ count else freq

/-- CODE[v]: ABSENT (`none`) or PRESENT(c) (R24). -/
def codeAt (code : Table (Option Bits) 257) (v : Nat) : Option Bits :=
  if h : v < 257 then code.get ⟨v, h⟩ else none

/-- CODE_P of an entry (R24). -/
def codeP (entry : Option Bits) : Bool := entry.isSome

/-- CODE_LEN of an entry (R24); 0 for ABSENT (R72). -/
def codeLen (entry : Option Bits) : BitVec 9 :=
  match entry with
  | some c => BitVec.ofNat 9 c.length
  | none => 0

/-- CODE_BITS of an entry, zext_256(val(c)) (R24); 0 for ABSENT (R72). -/
def codeBits (entry : Option Bits) : BitVec 256 :=
  match entry with
  | some c => BitVec.ofNat 256 (val c)
  | none => 0

end Sys2Proof.Machine
end

