-- ==== Sys2Proof/Machine/BodyDecoder.lean ====
section
/-! DEFINITION. The Body Decoder (spec/45_body_decoder.md): the cursor CUR walks TREE by the bits of IN
and a byte is written at each leaf, up to the EOF leaf (R107, R108). -/

namespace Sys2Proof.Machine

/-- DECODE up to its loop (R107): the precondition, CUR <- root of TREE. -/
def decodeStart (s : State) : Progress :=
  if s.status.treeValid then
    match s.tree with
    | none => .stuck .unspecifiedRead
    | some t => .more (.decode t) s
  else .raised .sequenceError 1 0 s

/-- The walker at a leaf (R107, R111, R114): EOF ends DECODE; another Symbol is written as a byte, and
CUR goes back to the root. -/
def decodeLeaf (root : HuffTree) (x : Sym) (cur : HuffTree) (s : State) : Progress :=
  if x = eofSym then .done s
  else
    match outWrite 8 x.val s with
    | .ok s' => .more (.decode root) s'
    | .fail s' => .raised .ioFailure 2 0 s'
    | .wait s' => .wait (.decode cur) s'

/-- The walker at an internal node (R107, R110): a bit moves CUR; the end of IN is CorruptBody, 1 at the
root and 0 below it. -/
def decodeNode (root l r cur : HuffTree) (s : State) : Progress :=
  match inRead 1 s with
  | .data v s' => .more (.decode (if v = 0 then l else r)) s'
  | .eod s' => .raised .corruptBody (if cur = root then 1 else 0) 0 s'
  | .fail s' => .raised .ioFailure 1 0 s'
  | .wait s' => .wait (.decode cur) s'

/-- One step of the walker (R108). The leaf test comes before the read (R109). -/
def decodeStep (cur : HuffTree) (s : State) : Progress :=
  match s.tree with
  | none => .stuck .unspecifiedRead
  | some root =>
    match cur with
    | .leaf x _ => decodeLeaf root x cur s
    | .node l r _ => decodeNode root l r cur s

end Sys2Proof.Machine
end

