-- ==== Sys2Proof/Machine/BodyEncoder.lean ====
section
/-! DEFINITION. The Body Encoder and FLUSH (spec/44_body_encoder.md): bytes of IN replaced by their
codes, then the EOF code (R102), and the flush of OUT (R105). -/

namespace Sys2Proof.Machine

/-- ENCODE up to its loop (R102): the precondition. -/
def encodeStart (s : State) : Progress :=
  if s.status.codesValid then .more (.encode .fetch) s else .raised .sequenceError 2 0 s

/-- A byte read (R102): its code is to be written, or it has none. -/
def encodeByte (code : Table (Option Bits) 257) (b : Nat) (s : State) : Progress :=
  match codeAt code b with
  | none => .raised .missingCode 0 (BitVec.ofNat 9 b) s
  | some c => .more (.encode (.emit c)) s

/-- The loop left at the end of IN (R102): the EOF code is to be written. -/
def encodeEnd (code : Table (Option Bits) 257) (s : State) : Progress :=
  match codeAt code 256 with
  | none => .stuck .noEofCode
  | some e => .more (.encode (.last e)) s

/-- `InRead(8)` of ENCODE (R102). -/
def encodeFetch (s : State) : Progress :=
  match s.code with
  | none => .stuck .unspecifiedRead
  | some code =>
    match inRead 8 s with
    | .data b s' => encodeByte code b s'
    | .eod s' => encodeEnd code s'
    | .fail s' => .raised .ioFailure 1 0 s'
    | .wait s' => .wait (.encode .fetch) s'

/-- The next call of ENCODE (R102). -/
def encodeStep (phase : EncodePhase) (s : State) : Progress :=
  match phase with
  | .fetch => encodeFetch s
  | .emit c =>
    match outWrite c.length (val c) s with
    | .ok s' => .more (.encode .fetch) s'
    | .fail s' => .raised .ioFailure 2 0 s'
    | .wait s' => .wait (.encode phase) s'
  | .last e =>
    match outWrite e.length (val e) s with
    | .ok s' => .done s'
    | .fail s' => .raised .ioFailure 2 0 s'
    | .wait s' => .wait (.encode phase) s'

/-- FLUSH up to its call (R105): no precondition. -/
def flushStart (s : State) : Progress := .more .flush s

/-- FLUSH (R105). -/
def flushStep (s : State) : Progress :=
  match outFlush s with
  | .ok s' => .done s'
  | .fail s' => .raised .ioFailure 3 0 s'
  | .wait s' => .wait .flush s'

end Sys2Proof.Machine
end

