-- ==== Sys2Proof/Machine/CodeTable.lean ====
section
/-! DEFINITION. The Code Table Generator (spec/42_code_table.md): one traversal of TREE, left before
right, that writes each leaf's path into CODE (R88, R89). -/

namespace Sys2Proof.Machine

/-- CODE[x] <- PRESENT(p) (R88). -/
def State.setCodeAt (s : State) (x : Sym) (p : Bits) : State :=
  s.setCode (s.code.map fun table => table.set x (some p))

/-- GENCODES up to its walk (R88): the precondition, CODES_VALID <- 0, every entry ABSENT. -/
def gencodesStart (s : State) : Progress :=
  if s.status.treeValid then
    match s.tree with
    | none => .stuck .unspecifiedRead
    | some t =>
      .more (.gencodes [(t, [])])
        ((s.setStatus { s.status with codesValid := false }).setCode (some (Table.fill 257 none)))
  else .raised .sequenceError 1 0 s

/-- One call of `walk` (R88), or the end of the walk: CODES_VALID <- 1. -/
def gencodesStep (stack : List (HuffTree × Bits)) (s : State) : Progress :=
  match stack with
  | [] => .done (s.setStatus { s.status with codesValid := true })
  | (.leaf x _, p) :: others => .more (.gencodes others) (s.setCodeAt x p)
  | (.node l r _, p) :: others =>
    .more (.gencodes ((l, p ++ [false]) :: (r, p ++ [true]) :: others)) s

end Sys2Proof.Machine
end

