-- ==== Sys2Proof/Machine/HeaderCodec.lean ====
section
/-! DEFINITION. The Header Codec (spec/43_header_codec.md): the preorder serialization written (R93) and
read (R95, R96). -/

namespace Sys2Proof.Machine

/-! ### Write -/

/-- WRHDR up to its first write (R93): the precondition. -/
def wrhdrStart (s : State) : Progress :=
  if s.status.treeValid then
    match s.tree with
    | none => .stuck .unspecifiedRead
    | some t => .more (.wrhdr [.subtree t]) s
  else .raised .sequenceError 1 0 s

/-- A write of WRHDR (R93): when it is OK `after` is still to be written; FAIL is IOFailure (2); without
an answer WRHDR stays at `here`. -/
def wrhdrWrite (n v : Nat) (here after : List HdrItem) (s : State) : Progress :=
  match outWrite n v s with
  | .ok s' => .more (.wrhdr after) s'
  | .fail s' => .raised .ioFailure 2 0 s'
  | .wait s' => .wait (.wrhdr here) s'

/-- The next write of WRHDR, or its end (R93). -/
def wrhdrStep (stack : List HdrItem) (s : State) : Progress :=
  match stack with
  | [] => .done s
  | .subtree (.node l r _) :: others => wrhdrWrite 1 0 stack (.subtree l :: .subtree r :: others) s
  | .subtree (.leaf x _) :: others => wrhdrWrite 1 1 stack (.field x :: others) s
  | .field x :: others => wrhdrWrite 9 x.val stack others s

/-! ### Read -/

/-- RDHDR up to its first read (R95): the valid bits cleared, SEEN empty, NINT 0. -/
def rdhdrStart (s : State) : Progress :=
  .more (.rdhdr .marker [] 0 []) s.dropTree

/-- A complete subtree returned to its caller (R96): the whole tree, or the stack with which the parse
goes on. -/
def returnTree : HuffTree → List (Option HuffTree) → HuffTree ⊕ List (Option HuffTree)
  | t, [] => .inl t
  | t, none :: stack => .inr (some t :: stack)
  | t, some l :: stack => returnTree (.node l t 0) stack

/-- The end of RDHDR's parse (R95): the EOF check, then TREE <- t and TREE_VALID <- 1. -/
def rdhdrEnd (t : HuffTree) (seen : List Sym) (s : State) : Progress :=
  if eofSym ∈ seen then .done (s.holdTree t) else .raised .corruptHeader 3 256 s

/-- An Internal marker read (R96): NINT counts it, and more than 256 are an error (D10). -/
def rdhdrInternal (seen : List Sym) (nint : Nat) (stack : List (Option HuffTree)) (s : State) : Progress :=
  if nint + 1 > 256 then .raised .corruptHeader 4 0 s
  else .more (.rdhdr .marker seen (nint + 1) (none :: stack)) s

/-- A leaf's 9-bit field read (R96): its range, then its duplication (R126), then the leaf. -/
def rdhdrLeaf (v : Nat) (seen : List Sym) (nint : Nat) (stack : List (Option HuffTree)) (s : State) :
    Progress :=
  if h : v < 257 then
    if (⟨v, h⟩ : Sym) ∈ seen then .raised .corruptHeader 2 (BitVec.ofNat 9 v) s
    else
      match returnTree (.leaf ⟨v, h⟩ 0) stack with
      | .inl t => rdhdrEnd t (⟨v, h⟩ :: seen) s
      | .inr stack' => .more (.rdhdr .marker (⟨v, h⟩ :: seen) nint stack') s
  else .raised .corruptHeader 1 (BitVec.ofNat 9 v) s

/-- The next read of RDHDR's parse `rd()` (R96): FAIL before EOD before the value (R126). -/
def rdhdrStep (phase : ParsePhase) (seen : List Sym) (nint : Nat) (stack : List (Option HuffTree))
    (s : State) : Progress :=
  match phase with
  | .marker =>
    match inRead 1 s with
    | .data v s' =>
      if v = 0 then rdhdrInternal seen nint stack s' else .more (.rdhdr .field seen nint stack) s'
    | .eod s' => .raised .corruptHeader 0 0 s'
    | .fail s' => .raised .ioFailure 1 0 s'
    | .wait s' => .wait (.rdhdr phase seen nint stack) s'
  | .field =>
    match inRead 9 s with
    | .data v s' => rdhdrLeaf v seen nint stack s'
    | .eod s' => .raised .corruptHeader 0 0 s'
    | .fail s' => .raised .ioFailure 1 0 s'
    | .wait s' => .wait (.rdhdr phase seen nint stack) s'

end Sys2Proof.Machine
end

