-- ==== Sys2Proof/Machine/TreeBuilder.lean ====
section
/-! DEFINITION. The Tree Builder (spec/41_tree_builder.md): the priority collection, its order (R81),
the merges (R82) and the weight range check (R80). -/

namespace Sys2Proof.Machine

/-- The total order of PQ (R81): weight first, then seq. -/
def keyLt (a b : PqEntry) : Bool :=
  decide (a.weight < b.weight) || (decide (a.weight = b.weight) && decide (a.seq < b.seq))

/-- The initial entry of a Symbol with count `c` (R79): key (c, s), tree `leaf s c`. -/
def leafEntry (s : Sym) (c : Nat) : PqEntry := { weight := c, seq := s.val, tree := .leaf s c }

/-- The entries of the bytes from value `b` on whose counts are not 0 (R79). -/
def byteEntries : List Nat → Nat → List PqEntry
  | [], _ => []
  | c :: counts, b =>
    if 0 < c then leafEntry (Fin.ofNat 257 b) c :: byteEntries counts (b + 1)
    else byteEntries counts (b + 1)

/-- PQ as BUILD fills it (R79): one entry for each byte with a count, and the EOF entry. -/
def initialPq (freq : Table Nat 256) : List PqEntry :=
  byteEntries freq.entries 0 ++ [leafEntry eofSym 1]

/-- `removeMin(PQ)` (R81): the entry with the least key, and the others. PQ is a set: how it is stored is
not architectural, only the removal order is. -/
def removeMin : List PqEntry → Option (PqEntry × List PqEntry)
  | [] => none
  | e :: pq =>
    match removeMin pq with
    | none => some (e, [])
    | some (m, others) => if keyLt m e then some (m, e :: others) else some (e, pq)

/-- The entry a merge inserts (R82): the first removed is the left child, the second the right. -/
def mergeEntry (a b : PqEntry) (nextSeq : Nat) : PqEntry :=
  { weight := a.tree.weight + b.tree.weight
    seq := nextSeq
    tree := .node a.tree b.tree (a.tree.weight + b.tree.weight) }

/-- The root's weight `T = 1 + sum(FREQ[s])`, exact (R80). -/
def totalWeight (freq : Table Nat 256) : Nat := 1 + freq.entries.sum

/-- BUILD up to its loop (R78): the valid bits cleared, the range check, PQ filled, NEXTSEQ = 257. -/
def buildStart (s : State) : Progress :=
  if totalWeight s.freq > 2 ^ s.wCount - 1 then .raised .countOverflow 0 0 s.dropTree
  else .more (.build (initialPq s.freq) 257) s.dropTree

/-- One turn of BUILD's loop, or its end (R78, R82, R83). -/
def buildStep (pq : List PqEntry) (nextSeq : Nat) (s : State) : Progress :=
  match removeMin pq with
  | none => .stuck .emptyQueue
  | some (a, others) =>
    match removeMin others with
    | none => .done (s.holdTree a.tree)
    | some (b, rest) => .more (.build (mergeEntry a b nextSeq :: rest) (nextSeq + 1)) s

end Sys2Proof.Machine
end

