-- ==== Sys2Proof/Machine/Engine.lean ====
section
/-! DEFINITION. The engine (spec/10_state.md rule R15): it runs one command from its acceptance to its
end (spec/40_control.md rules R67, R75), or up to a collaborator call that is not answered yet (the next
step resumes there), or up to the moment at which the hardware reset comes (spec/70_reset_and_hazards.md rule
R134). -/

namespace Sys2Proof.Machine

/-- The next piece of work of the command being run. -/
def engineStep (w : Work) (s : State) : Progress :=
  match w with
  | .build pq nextSeq => buildStep pq nextSeq s
  | .gencodes stack => gencodesStep stack s
  | .wrhdr stack => wrhdrStep stack s
  | .encode phase => encodeStep phase s
  | .flush => flushStep s
  | .rdhdr phase seen nint stack => rdhdrStep phase seen nint stack s
  | .decode cur => decodeStep cur s

/-- The calls of `walk` a stack still needs. -/
def walkCost : List (HuffTree × Bits) → Nat
  | [] => 0
  | e :: stack => e.1.nodeCount + walkCost stack

/-- At least the writes a stack still needs. -/
def writeCost : List HdrItem → Nat
  | [] => 0
  | .subtree t :: stack => 2 * t.nodeCount + writeCost stack
  | .field _ :: stack => 1 + writeCost stack

/-- A bound on the pieces of work a command still has (R75, R106, R112): the size of what it walks, or
of what IN still holds. -/
def workBound (w : Work) (s : State) : Nat :=
  match w with
  | .build pq _ => pq.length + 1
  | .gencodes stack => walkCost stack + 1
  | .wrhdr stack => writeCost stack + 1
  | .encode _ => 2 * s.remaining + 4
  | .flush => 1
  | .rdhdr _ _ _ _ => s.remaining + 2
  | .decode _ => 2 * s.remaining + 3

/-- The bound of a command that stands at `p`. -/
def Progress.bound : Progress → Nat
  | .more w s => workBound w s
  | .wait _ _ => 0
  | .done _ => 0
  | .raised _ _ _ _ => 0
  | .stuck _ => 0

/-- A command ends its step in a wait: BUSY stays 1, its hidden state is kept, and what STATUS shows is
free (R75, R142; log 9, 12). -/
def suspend (w : Work) (s : State) : State := (s.setWork (some w)).setWaits (s.waits + 1)

/-- Command `op` run on from where it stands (R75: success, error, or a wait). The number of pieces of
work is at most the fuel; a walk that outlasts it never reads (log 13). -/
def runEngine (op : BitVec 4) : Nat → Progress → Host.Outcome State Fault Refusal
  | _, .done s => .next (endCommand s)
  | _, .raised e sub sym s => .next (raiseError op e sub sym s)
  | _, .wait w s => .next (suspend w s)
  | _, .stuck f => .fault f
  | 0, .more _ _ => .fault .endlessWalk
  | fuel + 1, .more w s => runEngine op fuel (engineStep w s)

/-- Command `op` run to its end. -/
def finish (op : BitVec 4) (p : Progress) : Host.Outcome State Fault Refusal :=
  runEngine op p.bound p

/-- The prologue (R67): the rejection, an illegal command, or the command's own rule, `start`. -/
def prologue (i : Instr) (start : State → Progress) (s : State) : Progress :=
  if s.status.err ≠ 0 ∧ neverRejected i = false then .done (recordRejection s)
  else
    match illegalCause i with
    | some c => .raised .illegalCommand c.sub c.sym (accept i s)
    | none => start (accept i s)

/-- A command from its acceptance to its end, or to a wait. -/
def command (i : Instr) (start : State → Progress) (s : State) : Host.Outcome State Fault Refusal :=
  finish i.opcode (prologue i start s)

/-- A command after `n` more pieces of its work, or at its end or its wait, if that is earlier. -/
def runPieces : Nat → Progress → Progress
  | 0, p => p
  | n + 1, .more w s => runPieces n (engineStep w s)
  | _ + 1, .wait w s => .wait w s
  | _ + 1, .done s => .done s
  | _ + 1, .raised e sub sym s => .raised e sub sym s
  | _ + 1, .stuck f => .stuck f

/-- The hardware reset ends a command where it stands (R134): no error, block state at its reset values, the
streams as they are, and an outstanding call abandoned. -/
def cutShort : Progress → Host.Outcome State Fault Refusal
  | .more _ s => .next (hardReset s)
  | .wait _ s => .next (hardReset s)
  | .done s => .next (hardReset s)
  | .raised _ _ _ s => .next (hardReset s)
  | .stuck f => .fault f

/-- A BUSY block goes on with the command in its latch: the outstanding call is looked at again. ERR_OP
is the OPC field of the latched CMD (R33). -/
def resume (s : State) : Host.Outcome State Fault Refusal :=
  match s.work, s.latch with
  | some w, some l => finish (cmdOpc l.cmd) (.more w (s.setWork none))
  | some _, none => .fault .busyWithoutWork
  | none, _ => .fault .busyWithoutWork

end Sys2Proof.Machine
end

