-- ==== Sys2Proof/Machine/ExecCodec.lean ====
section
/-! DEFINITION. The meanings of the codec commands BUILD (spec/41_tree_builder.md rule R78), GENCODES
(spec/42_code_table.md rule R88), WRHDR and RDHDR (spec/43_header_codec.md rules R93, R95), ENCODE and
FLUSH (spec/44_body_encoder.md rules R102, R105) and DECODE (spec/45_body_decoder.md rule R107). -/

namespace Sys2Proof.Machine

/-- BUILD (R78). -/
def execBuild (low : BitVec 28) (s : State) : Host.Outcome State Fault Refusal :=
  command (.build low) buildStart s

/-- GENCODES (R88). -/
def execGencodes (low : BitVec 28) (s : State) : Host.Outcome State Fault Refusal :=
  command (.gencodes low) gencodesStart s

/-- WRHDR (R93). -/
def execWrhdr (low : BitVec 28) (s : State) : Host.Outcome State Fault Refusal :=
  command (.wrhdr low) wrhdrStart s

/-- ENCODE (R102). -/
def execEncode (low : BitVec 28) (s : State) : Host.Outcome State Fault Refusal :=
  command (.encode low) encodeStart s

/-- FLUSH (R105). -/
def execFlush (low : BitVec 28) (s : State) : Host.Outcome State Fault Refusal :=
  command (.flush low) flushStart s

/-- RDHDR (R95): no precondition. -/
def execRdhdr (low : BitVec 28) (s : State) : Host.Outcome State Fault Refusal :=
  command (.rdhdr low) rdhdrStart s

/-- DECODE (R107). -/
def execDecode (low : BitVec 28) (s : State) : Host.Outcome State Fault Refusal :=
  command (.decode low) decodeStart s

end Sys2Proof.Machine
end

