-- ==== Sys2Proof/Machine/ExecControl.lean ====
section
/-! DEFINITION. The meanings of NOP, CLRERR, SRST (spec/40_control.md rules R68, R73, R74) and of the two
reserved opcodes (spec/30_encoding.md rule R58). -/

namespace Sys2Proof.Machine

/-- CLRERR after its prologue (R73). -/
def clrerrStart (s : State) : Progress := .done (clearError s)

/-- SRST after its prologue (R74): the reset values of R36; IN and OUT are not touched. -/
def srstStart (s : State) : Progress := .done (resetBlock s)

/-- NOP (R68): nothing. -/
def execNop (low : BitVec 28) (s : State) : Host.Outcome State Fault Refusal :=
  command (.nop low) .done s

/-- CLRERR (R73). -/
def execClrerr (low : BitVec 28) (s : State) : Host.Outcome State Fault Refusal :=
  command (.clrerr low) clrerrStart s

/-- SRST (R74). -/
def execSrst (low : BitVec 28) (s : State) : Host.Outcome State Fault Refusal :=
  command (.srst low) srstStart s

/-- OPC 0xC (R58): the prologue raises IllegalCommand, sub 0, so the command has no body. -/
def execReservedC (low : BitVec 28) (s : State) : Host.Outcome State Fault Refusal :=
  command (.reservedC low) .done s

/-- OPC 0xD (R58): the prologue raises IllegalCommand, sub 0, so the command has no body. -/
def execReservedD (low : BitVec 28) (s : State) : Host.Outcome State Fault Refusal :=
  command (.reservedD low) .done s

end Sys2Proof.Machine
end

