-- ==== Sys2Proof/Machine/ExecTable.lean ====
section
/-! DEFINITION. The meanings of the table commands CLRFREQ, LDFREQ, RDFREQ and RDCODE
(spec/40_control.md rules R69 to R72). -/

namespace Sys2Proof.Machine

/-- CLRFREQ after its prologue (R69). -/
def clrfreqStart (s : State) : Progress := .done (s.setFreq (Table.fill 256 0))

/-- LDFREQ after its prologue (R70). -/
def ldfreqStart (sym : BitVec 9) (count : Nat) (s : State) : Progress :=
  .done (s.setFreq (setFreqAt s.freq sym.toNat (countOf s.wCount count)))

/-- RDFREQ after its prologue (R71): RESULT.COUNT alone. -/
def rdfreqStart (sym : BitVec 9) (s : State) : Progress :=
  .done (s.setResult { s.result with count := freqOf s.freq sym.toNat })

/-- CLRFREQ (R69). -/
def execClrfreq (low : BitVec 28) (s : State) : Host.Outcome State Fault Refusal :=
  command (.clrfreq low) clrfreqStart s

/-- LDFREQ (R70). -/
def execLdfreq (rsv : BitVec 19) (sym : BitVec 9) (count : Nat) (s : State) :
    Host.Outcome State Fault Refusal :=
  command (.ldfreq rsv sym count) (ldfreqStart sym count) s

/-- RDFREQ (R71). -/
def execRdfreq (rsv : BitVec 19) (sym : BitVec 9) (s : State) : Host.Outcome State Fault Refusal :=
  command (.rdfreq rsv sym) (rdfreqStart sym) s

/-- The body of RDCODE (R72): RESULT.PRESENT, LEN and BITS. -/
def rdcodeStart (sym : BitVec 9) (s : State) : Progress :=
  if s.status.codesValid then
    match s.code with
    | none => .stuck .unspecifiedRead
    | some code =>
      .done (s.setResult
        { s.result with
          present := codeP (codeAt code sym.toNat)
          len := codeLen (codeAt code sym.toNat)
          bits := codeBits (codeAt code sym.toNat) })
  else .raised .sequenceError 2 0 s

/-- RDCODE (R72). -/
def execRdcode (rsv : BitVec 19) (sym : BitVec 9) (s : State) : Host.Outcome State Fault Refusal :=
  command (.rdcode rsv sym) (rdcodeStart sym) s

end Sys2Proof.Machine
end

