-- ==== Sys2Proof/Machine/Dispatch.lean ====
section
/-! DEFINITION. Which meaning a command has: one arm per constructor of Instr. -/

namespace Sys2Proof.Machine

def exec (i : Instr) (s : State) : Host.Outcome State Fault Refusal :=
  match i with
  | .nop low => Sys2Proof.Machine.execNop low s
  | .clrfreq low => Sys2Proof.Machine.execClrfreq low s
  | .ldfreq rsv sym count => Sys2Proof.Machine.execLdfreq rsv sym count s
  | .rdfreq rsv sym => Sys2Proof.Machine.execRdfreq rsv sym s
  | .build low => Sys2Proof.Machine.execBuild low s
  | .gencodes low => Sys2Proof.Machine.execGencodes low s
  | .wrhdr low => Sys2Proof.Machine.execWrhdr low s
  | .encode low => Sys2Proof.Machine.execEncode low s
  | .flush low => Sys2Proof.Machine.execFlush low s
  | .rdhdr low => Sys2Proof.Machine.execRdhdr low s
  | .decode low => Sys2Proof.Machine.execDecode low s
  | .rdcode rsv sym => Sys2Proof.Machine.execRdcode rsv sym s
  | .reservedC low => Sys2Proof.Machine.execReservedC low s
  | .reservedD low => Sys2Proof.Machine.execReservedD low s
  | .clrerr low => Sys2Proof.Machine.execClrerr low s
  | .srst low => Sys2Proof.Machine.execSrst low s

end Sys2Proof.Machine
end

