-- ==== Sys2Proof/Machine/HostPort.lean ====
section
/-! DEFINITION. What the outside does to the block at a step: the level of the hardware reset input
(spec/70_reset_and_hazards.md rules R132, R134), the host's moves at the streams (rule R144), and the
latching of an offered command (spec/30_encoding.md rule R53). -/

namespace Sys2Proof.Machine

/-- The hardware reset input at this step. -/
def State.resetLevel (s : State) : ResetLevel := s.resetPin.headD .released

/-- Is the hardware reset asserted at this step, before it or while it runs? -/
def State.resetAsserted (s : State) : Bool := decide (s.resetLevel ≠ .released)

/-- The level used up. -/
def State.nextPin (s : State) : State := s.setResetPin s.resetPin.tail

/-- CMD and DATA latched and BUSY set, as the block accepts them (R31, R53); DATA has W_COUNT bits. -/
def State.latchCommand (s : State) (cmd : CmdWord) (data : Nat) : State :=
  (s.setStatus { s.status with busy := true }).setLatch
    (some { cmd := cmd, data := countOf s.wCount data })

/-- A rewind of IN (R40). -/
def State.rewindIn (s : State) : State := s.setInPos 0

/-- A source attached to IN, at a bit position (R144). -/
def State.attachIn (s : State) (bits : Bits) (pos : Nat) : State := (s.setInp bits).setInPos pos

/-- A sink attached to OUT (R144). -/
def State.attachOut (s : State) (bits : Bits) : State := s.setOut bits

/-- The port with one more transaction at its head. -/
def State.offerFirst (s : State) (cmd : CmdWord) (data : Nat) : State :=
  s.setPort (.offer cmd data :: s.port)

/-- The block idle, as a command's acceptance needs it (R32), and the hardware reset released for the
coming step. -/
def State.madeIdle (s : State) : State :=
  { s with
    status := { s.status with busy := false }
    latch := none
    work := none
    outstanding := none
    resetPin := .released :: s.resetPin }

/-- The host's next move, on an idle block. -/
def hostMove (s : State) : Host.Outcome State Fault Refusal :=
  match s.port with
  | [] => .next s
  | .offer cmd data :: moves => exec (decode cmd data) ((s.setPort moves).latchCommand cmd data)
  | .rewindIn :: moves => .next (s.setPort moves).rewindIn
  | .attachIn bits pos :: moves => .next ((s.setPort moves).attachIn bits pos)
  | .attachOut bits :: moves => .next ((s.setPort moves).attachOut bits)

/-! ### The hardware reset while a step runs (R134) -/

/-- What each command does after its prologue (R67 step 5), as its meaning has it. -/
def bodyOf : Instr → State → Progress
  | .nop _ => .done
  | .clrfreq _ => clrfreqStart
  | .ldfreq _ sym count => ldfreqStart sym count
  | .rdfreq _ sym => rdfreqStart sym
  | .build _ => buildStart
  | .gencodes _ => gencodesStart
  | .wrhdr _ => wrhdrStart
  | .encode _ => encodeStart
  | .flush _ => flushStart
  | .rdhdr _ => rdhdrStart
  | .decode _ => decodeStart
  | .rdcode _ sym => rdcodeStart sym
  | .reservedC _ => .done
  | .reservedD _ => .done
  | .clrerr _ => clrerrStart
  | .srst _ => srstStart

/-- The hardware reset after a move of the host at the streams, or with no move to make. -/
def thenReset : Host.Outcome State Fault Refusal → Host.Outcome State Fault Refusal
  | .next t => .next (hardReset t)
  | .fault f => .fault f
  | .refused r => .refused r

/-- A step that the hardware reset cuts short after `n` pieces of its command's work (R134, log 10). -/
def cutStep (n : Nat) (s : State) : Host.Outcome State Fault Refusal :=
  if s.status.busy then
    match s.work with
    | some w => cutShort (runPieces n (.more w (s.setWork none)))
    | none => .fault .busyWithoutWork
  else
    match s.port with
    | .offer cmd data :: moves =>
      let i := decode cmd data
      cutShort (runPieces n (prologue i (bodyOf i) ((s.setPort moves).latchCommand cmd data)))
    | [] => thenReset (hostMove s)
    | .rewindIn :: _ => thenReset (hostMove s)
    | .attachIn _ _ :: _ => thenReset (hostMove s)
    | .attachOut _ :: _ => thenReset (hostMove s)

/-- A step at which the hardware reset is asserted (R132, R134). -/
def resetStep (s : State) : Host.Outcome State Fault Refusal :=
  match s.resetLevel with
  | .during n => cutStep n s.nextPin
  | .asserted => .next (hardReset s.nextPin)
  | .released => .next (hardReset s.nextPin)

end Sys2Proof.Machine
end

