-- ==== Sys2Proof/Machine/Step.lean ====
section
/-! DEFINITION. One step of the machine, and how a command comes to be the next one.

A step looks at the hardware reset first (R126: it overrides everything; it may also come while the step runs,
R134), then lets a BUSY block go on with its command, then takes the host's next move: an offered command is
accepted and run, a stream move is made. With no move the block is idle and holds all its state (R131, R133). -/

namespace Sys2Proof.Machine

/-- One step. -/
def step (s : State) : Host.Outcome State Fault Refusal :=
  if s.resetAsserted then resetStep s
  else if s.status.busy then resume s.nextPin
  else hostMove s.nextPin

/-- The state in which the very next step runs the instruction of a table row's word: the block idle,
the hardware reset released for that step, and the word the host's next offer (log 21). -/
def State.withFetchWord (s : State) (nbits w : Nat) : State :=
  s.madeIdle.offerFirst (tableTransaction nbits w).1 (tableTransaction nbits w).2

end Sys2Proof.Machine
end

