-- ==== Sys2Proof/Machine/Asm.lean ====
section
/-! DEFINITION. The assembler of spec/30_encoding.md: the syntax of rule R60 and the pseudo-instructions
of rule R61. A line is a list of characters; the assembler answers the commands it stands for, or refuses
it (`none`). The block never sees a pseudo-instruction, only its expansion. -/

namespace Sys2Proof.Machine

/-! ### The pseudo-instructions (R61) -/

/-- A pair (Symbol, count) put among pairs in ascending order of their Symbols. -/
def insertPair (p : Nat × Nat) : List (Nat × Nat) → List (Nat × Nat)
  | [] => [p]
  | q :: pairs => if p.1 ≤ q.1 then p :: q :: pairs else q :: insertPair p pairs

/-- The pairs in ascending order of their Symbols. -/
def sortPairs : List (Nat × Nat) → List (Nat × Nat)
  | [] => []
  | p :: pairs => insertPair p (sortPairs pairs)

/-- `LDFREQ sym, count` (R60). -/
def ldfreqOf (p : Nat × Nat) : Instr := .ldfreq 0 (BitVec.ofNat 9 p.1) p.2

/-- LOADFREQS (R61): CLRFREQ, then one LDFREQ for each pair whose count is not 0, in ascending order. -/
def loadFreqs (pairs : List (Nat × Nat)) : List Instr :=
  .clrfreq 0 :: ((sortPairs pairs).filter fun p => p.2 ≠ 0).map ldfreqOf

/-- COMPRESS (R61). -/
def compress : List Instr := [.build 0, .gencodes 0, .wrhdr 0, .encode 0, .flush 0]

/-- DECOMPRESS (R61). -/
def decompress : List Instr := [.rdhdr 0, .decode 0, .flush 0]

/-! ### The syntax (R60) -/

/-- The tokens of a line. -/
inductive Token where
  /-- A mnemonic, a number or the word EOF. -/
  | word (cs : List Char)
  /-- A character in single quotes. -/
  | chr (c : Char)
  | comma
  | colon
  | braceOpen
  | braceClose
  deriving DecidableEq, Repr

/-- The word read so far, if there is one, in front of the tokens that follow it. -/
def flushWord (acc : List Char) (rest : List Token) : List Token :=
  match acc with
  | [] => rest
  | _ :: _ => .word acc.reverse :: rest

/-- The token a punctuation character is. -/
def punctuation (c : Char) : Option Token :=
  if c = ',' then some .comma
  else if c = ':' then some .colon
  else if c.toNat = 123 then some .braceOpen
  else if c.toNat = 125 then some .braceClose
  else none

/-- The tokens of a line, up to its comment; `acc` is the word being read, last character first. R60 says
nothing of what separates tokens: that spaces and tabs do, and that nothing has to stand beside a quoted
character or a punctuation character (so `RDFREQ'A'` assembles), is the model's choice (DESIGN CHOICE, log
22). R60 says both that `;` starts a comment and that a character may stand in single quotes: that a quoted `;` is
the character 59 and no comment, as any one character in quotes is itself, is the model's choice too (DESIGN
CHOICE, log 22). -/
def lex (acc : List Char) : List Char → Option (List Token)
  | [] => some (flushWord acc [])
  | '\'' :: c :: '\'' :: cs => (lex [] cs).map fun ts => flushWord acc (.chr c :: ts)
  | c :: cs =>
    if c = ';' then some (flushWord acc [])
    else if c = ' ' ∨ c = '\t' then (lex [] cs).map fun ts => flushWord acc ts
    else if c.isAlphanum then lex (c :: acc) cs
    else
      match punctuation c with
      | some t => (lex [] cs).map fun ts => flushWord acc (t :: ts)
      | none => none

/-- The value of a hexadecimal digit. -/
def hexDigit (c : Char) : Option Nat :=
  if c.isDigit then some (c.toNat - 48)
  else if 97 ≤ c.toNat ∧ c.toNat ≤ 102 then some (c.toNat - 87)
  else if 65 ≤ c.toNat ∧ c.toNat ≤ 70 then some (c.toNat - 55)
  else none

/-- Digits in a base, continued from a number. -/
def digits (base : Nat) : Nat → List Char → Option Nat
  | n, [] => some n
  | n, c :: cs =>
    match hexDigit c with
    | some d => if d < base then digits base (base * n + d) cs else none
    | none => none

/-- A decimal or `0x` hexadecimal number. -/
def number : List Char → Option Nat
  | [] => none
  | '0' :: 'x' :: c :: cs => digits 16 0 (c :: cs)
  | c :: cs => digits 10 0 (c :: cs)

/-- A `<sym>` that fits its 9-bit field: a number, a character's 7-bit ASCII code, or EOF (R60). -/
def symOf : Token → Option Nat
  | .word cs =>
    if cs = ['E', 'O', 'F'] then some 256 else (number cs).bind fun n => if n < 512 then some n else none
  | .chr c => if c.toNat < 128 then some c.toNat else none
  | .comma => none
  | .colon => none
  | .braceOpen => none
  | .braceClose => none

/-- A `<count>` that fits DATA of `w` bits (R60). -/
def countToken (w : Nat) : Token → Option Nat
  | .word cs => (number cs).bind fun n => if n < 2 ^ w then some n else none
  | .chr _ => none
  | .comma => none
  | .colon => none
  | .braceOpen => none
  | .braceClose => none

/-- A pair `s: c` of LOADFREQS. -/
def pairOf (w : Nat) (s c : Token) : Option (Nat × Nat) :=
  match symOf s, countToken w c with
  | some x, some n => some (x, n)
  | _, _ => none

/-- The pairs of LOADFREQS after the opening brace, up to the closing one (R61). R61's form does not say
whether a comma may follow the last pair, or whether there may be no pair: that both are accepted is the
model's choice (DESIGN CHOICE, log 22). -/
def pairsOf (w : Nat) : List Token → Option (List (Nat × Nat))
  | [.braceClose] => some []
  | [s, .colon, c, .braceClose] => (pairOf w s c).map fun p => [p]
  | s :: .colon :: c :: .comma :: ts =>
    match pairOf w s c, pairsOf w ts with
    | some p, some ps => some (p :: ps)
    | _, _ => none
  | _ => none

/-- The command or pseudo-instruction a mnemonic without operands stands for (R60, R61). -/
def plainMnemonic (cs : List Char) : Option (List Instr) :=
  if cs = ['N', 'O', 'P'] then some [.nop 0]
  else if cs = ['C', 'L', 'R', 'F', 'R', 'E', 'Q'] then some [.clrfreq 0]
  else if cs = ['B', 'U', 'I', 'L', 'D'] then some [.build 0]
  else if cs = ['G', 'E', 'N', 'C', 'O', 'D', 'E', 'S'] then some [.gencodes 0]
  else if cs = ['W', 'R', 'H', 'D', 'R'] then some [.wrhdr 0]
  else if cs = ['E', 'N', 'C', 'O', 'D', 'E'] then some [.encode 0]
  else if cs = ['F', 'L', 'U', 'S', 'H'] then some [.flush 0]
  else if cs = ['R', 'D', 'H', 'D', 'R'] then some [.rdhdr 0]
  else if cs = ['D', 'E', 'C', 'O', 'D', 'E'] then some [.decode 0]
  else if cs = ['C', 'L', 'R', 'E', 'R', 'R'] then some [.clrerr 0]
  else if cs = ['S', 'R', 'S', 'T'] then some [.srst 0]
  else if cs = ['C', 'O', 'M', 'P', 'R', 'E', 'S', 'S'] then some compress
  else if cs = ['D', 'E', 'C', 'O', 'M', 'P', 'R', 'E', 'S', 'S'] then some decompress
  else none

/-- The command of a mnemonic with one operand `<sym>` (R60). -/
def symMnemonic (cs : List Char) (x : Nat) : Option (List Instr) :=
  if cs = ['R', 'D', 'F', 'R', 'E', 'Q'] then some [.rdfreq 0 (BitVec.ofNat 9 x)]
  else if cs = ['R', 'D', 'C', 'O', 'D', 'E'] then some [.rdcode 0 (BitVec.ofNat 9 x)]
  else none

/-- The commands a line's tokens stand for (R60, R61). -/
def parseLine (w : Nat) : List Token → Option (List Instr)
  | [] => some []
  | [.word m] => plainMnemonic m
  | [.word m, s] => (symOf s).bind (symMnemonic m)
  | .word m :: .braceOpen :: ts =>
    if m = ['L', 'O', 'A', 'D', 'F', 'R', 'E', 'Q', 'S'] then (pairsOf w ts).map loadFreqs else none
  | [.word m, s, .comma, c] =>
    if m = ['L', 'D', 'F', 'R', 'E', 'Q'] then (pairOf w s c).map fun p => [ldfreqOf p] else none
  | _ => none

/-- The transactions a line assembles to, for DATA of `w` bits (R60, R61). -/
def assembleLine (w : Nat) (line : List Char) : Option (List (CmdWord × Nat)) :=
  ((lex [] line).bind (parseLine w)).map fun is => is.map encode

end Sys2Proof.Machine
end

