-- ==== Sys2Proof/Machine/Flags.lean ====
section
/-! DEFINITION. The STATUS word and what the host reads at the STATUS and RESULT ports
(spec/10_state.md rules R26, R30, R35; spec/70_reset_and_hazards.md rule R142). -/

namespace Sys2Proof.Machine

/-- STATUS as a word (R26): ERR_SYM 23:15, ERR_SUB 14:12, ERR_OP 11:8, ERR 7:4, REJ 3, CODES_VALID 2,
TREE_VALID 1, BUSY 0; bits 31:24 are reserved and 0 (R35). -/
def Status.word (x : Status) : BitVec 32 :=
  x.errSym.setWidth 32 <<< 15 ||| x.errSub.setWidth 32 <<< 12 ||| x.errOp.setWidth 32 <<< 8 |||
    x.err.setWidth 32 <<< 4 ||| (BitVec.ofBool x.rej).setWidth 32 <<< 3 |||
    (BitVec.ofBool x.codesValid).setWidth 32 <<< 2 ||| (BitVec.ofBool x.treeValid).setWidth 32 <<< 1 |||
    (BitVec.ofBool x.busy).setWidth 32

/-- The bits of STATUS that may show any value while a command runs: TREE_VALID, CODES_VALID and the
ERR fields (93_implementation_defined.md I15). -/
def busyFreeMask : BitVec 32 := 0x00FFFFF6

/-- What a read of STATUS gives (R26). While BUSY = 1 only BUSY, REJ and the reserved bits have a value;
the others are free (R142, D39, log 12). -/
def readStatus (s : State) : BitVec 32 :=
  if s.status.busy then
    (s.status.word &&& ~~~busyFreeMask) ||| (Config.busyStatus s.waits &&& busyFreeMask)
  else s.status.word

/-- What a read of RESULT gives (R30): no side effect. -/
def readResult (s : State) : Result := s.result

end Sys2Proof.Machine
end

