-- ==== Sys2Proof/Machine/Run.lean ====
section
/-! DEFINITION. A run of the block, its end and its outcome (spec/70_reset_and_hazards.md rule R145). -/

namespace Sys2Proof.Machine

/-- Is the host's move an offered command? -/
def PortEvent.isOffer : PortEvent → Bool
  | .offer _ _ => true
  | .rewindIn => false
  | .attachIn _ _ => false
  | .attachOut _ => false

/-- A run is over (R145): its last command has been accepted and BUSY = 0. Moves of the host at the streams
may still be to come; they are no commands. -/
abbrev State.RunEnded (s : State) : Prop :=
  s.port.any PortEvent.isOffer = false ∧ s.status.busy = false

/-- A run is successful (R145): STATUS.ERR = 0 and STATUS.REJ = 0 at its end. -/
abbrev State.Successful (s : State) : Prop :=
  s.RunEnded ∧ s.status.err = 0 ∧ s.status.rej = false

/-- The outcome of a run (R145): STATUS and RESULT at its end, the bits appended to OUT and consumed from
IN during it, and the collaborator calls made in it, in their order. -/
structure RunOutcome where
  status : Status
  result : Result
  appended : Bits
  consumed : Bits
  calls : List Call
  deriving DecidableEq, Repr

/-- The outcome of a run that is over at `s` before anything happened. -/
def State.outcome (s : State) : RunOutcome :=
  { status := s.status, result := s.result, appended := [], consumed := [], calls := [] }

/-- Does the next step make a move of the host at the streams? -/
def State.hostMoves (s : State) : Bool :=
  decide (s.resetLevel ≠ .asserted) && !s.status.busy && !((s.port.head?).any PortEvent.isOffer)

/-- The bits a step from `s` to `u` appends to OUT; a sink the host attaches brings none. -/
def appendedBits (s u : State) : Bits := if s.hostMoves then [] else u.out.drop s.out.length

/-- The bits of IN a step from `s` to `u` consumes; the host's moves at IN consume none. -/
def consumedBits (s u : State) : Bits := if s.hostMoves then [] else s.rest.take (u.inPos - s.inPos)

/-- The outcome of a run whose first step leads from `s` to `u` and whose other steps have outcome `o`. -/
def RunOutcome.after (s u : State) (o : RunOutcome) : RunOutcome :=
  { o with
    appended := appendedBits s u ++ o.appended
    consumed := consumedBits s u ++ o.consumed
    calls := u.calls.drop s.calls.length ++ o.calls }

/-- The outcome of the run of the commands at the port, if it is over after at most `n` steps. R145 does
not say what becomes of a run in which reset is asserted or a call fails; there this counts on, step by
step (DESIGN CHOICE, log 23). -/
def runOutcome : Nat → State → Option RunOutcome
  | 0, s => if s.RunEnded then some s.outcome else none
  | n + 1, s =>
    if s.RunEnded then some s.outcome
    else
      match step s with
      | .next u => (runOutcome n u).map (RunOutcome.after s u)
      | .fault _ => none
      | .refused _ => none

end Sys2Proof.Machine
end

