-- ==== Sys2Proof/Safety.lean ====
section
/-! DEFINITION. What the claims are stated with: the trees the block may hold (spec/10_state.md rules
R19, R21), the merges of BUILD (spec/41_tree_builder.md rules R81, R82), the tokens of a header
(spec/30_encoding.md rule R63), an idle block, a prompt collaborator, what a stream command may change, the
state of a command that waits, and the invariant of the machine. -/

namespace Sys2Proof.Machine

/-- The next state of an outcome, if there is one. -/
def nextState? (o : Host.Outcome State Fault Refusal) : Option State :=
  match o with
  | .next s => some s
  | .fault _ => none
  | .refused _ => none

/-! ### Trees -/

/-- The trees the block may hold (R19): no Symbol labels two leaves, and EOF labels one. -/
abbrev HuffTree.Proper (t : HuffTree) : Prop := t.leaves.Nodup ∧ eofSym ∈ t.leaves

/-- The weights of a built tree (R21): positive at the leaves, sums at the internal nodes. -/
abbrev HuffTree.BuiltWeights (t : HuffTree) : Prop :=
  t.weightsAdd = true ∧ t.weightsPositive = true

/-- `a` stands before `b` in PQ: its key (weight, seq) is the smaller one (R81). -/
abbrev PqEntry.Before (a b : PqEntry) : Prop :=
  a.weight < b.weight ∨ (a.weight = b.weight ∧ a.seq < b.seq)

/-- The merges that lead from the entries of PQ to one tree, `n` being NEXTSEQ (R82): `a` is the least
entry of all and becomes the left child, `b` the least of the others and becomes the right one; the merged
entry's seq is NEXTSEQ. In what order a list holds the entries does not matter. -/
inductive Merges : List PqEntry → Nat → HuffTree → Prop where
  | last (e : PqEntry) (n : Nat) : Merges [e] n e.tree
  | merge {pq rest : List PqEntry} {a b : PqEntry} {n : Nat} {t : HuffTree}
      (entries : pq.Perm (a :: b :: rest)) (first : ∀ x ∈ b :: rest, a.Before x)
      (second : ∀ x ∈ rest, b.Before x)
      (others : Merges
        ({ weight := a.tree.weight + b.tree.weight
           seq := n
           tree := .node a.tree b.tree (a.tree.weight + b.tree.weight) } :: rest) (n + 1) t) :
      Merges pq n t

/-! ### Headers -/

/-- What a header is made of (R63): the marker of an internal node, or a leaf's marker and field. -/
inductive HdrToken where
  | internal
  | leaf (s : Sym)
  deriving DecidableEq, Repr

/-- The bits of a token (R63). -/
def HdrToken.bits : HdrToken → Bits
  | .internal => [false]
  | .leaf s => true :: bin 9 s.val

/-- The tokens of a tree's header, in preorder (R63). -/
def HuffTree.tokens : HuffTree → List HdrToken
  | .leaf s _ => [.leaf s]
  | .node l r _ => .internal :: (l.tokens ++ r.tokens)

/-- The bits of some tokens. -/
def tokenBits (tokens : List HdrToken) : Bits := tokens.flatMap HdrToken.bits

/-! ### Calls -/

/-- The bits a call appends to OUT when it is answered OK, a flush's padding aside (R44). -/
def Call.bits : Call → Bits
  | .inRead _ => []
  | .outWrite n v => bin n v
  | .outFlush => []

/-- May a command make this call, `op` being its OPC (R49, R45)? ENCODE writes codes of any length but 0. -/
def mayCall (op : BitVec 4) : Call → Bool
  | .inRead n => decide ((op = 0x7 ∧ n = 8) ∨ (op = 0x9 ∧ (n = 1 ∨ n = 9)) ∨ (op = 0xA ∧ n = 1))
  | .outWrite n v => decide ((op = 0x6 ∧ (n = 1 ∨ n = 9) ∧ v < 2 ^ n) ∨ (op = 0x7 ∧ n ≠ 0) ∨
      (op = 0xA ∧ n = 8 ∧ v < 2 ^ n))
  | .outFlush => decide (op = 0x8)

/-- The reads of a token (R96, R49): a marker, and a leaf's field. -/
def HdrToken.reads : HdrToken → List Call
  | .internal => [.inRead 1]
  | .leaf _ => [.inRead 1, .inRead 9]

/-- The calls with which RDHDR reads some tokens (R96). -/
def tokenReads (tokens : List HdrToken) : List Call := tokens.flatMap HdrToken.reads

/-- The code of a byte; no bits where it has none. -/
def byteCode (code : Sym → Option Bits) (b : Fin 256) : Bits := (code (byteSym b)).getD []

/-- The codes of some bytes, one after the other (R65). -/
def codesOf (code : Sym → Option Bits) (bytes : List (Fin 256)) : Bits := bytes.flatMap (byteCode code)

/-- The call that writes a code (R102): none for a code of no bits (R44). -/
def codeWrite (c : Bits) : List Call := if c = [] then [] else [.outWrite c.length (val c)]

/-- The calls with which ENCODE codes some bytes (R102): for each, one read of 8 bits and the write of its
code. -/
def encodeCalls (code : Sym → Option Bits) (bytes : List (Fin 256)) : List Call :=
  bytes.flatMap fun b => .inRead 8 :: codeWrite (byteCode code b)

/-- `n` reads of one bit, as DECODE makes them (R108, R49). -/
def bitReads (n : Nat) : List Call := List.replicate n (.inRead 1)

/-- The calls with which DECODE decodes some bytes (R108, R114): for each, a read of one bit for every bit of
its code and one write of 8 bits. -/
def decodeCalls (code : Sym → Option Bits) (bytes : List (Fin 256)) : List Call :=
  bytes.flatMap fun b => bitReads (byteCode code b).length ++ [.outWrite 8 b.val]

/-! ### States -/

/-- The block idle, as it is when it accepts a command (R32): nothing of a command is left. -/
abbrev State.Idle (s : State) : Prop :=
  s.status.busy = false ∧ s.latch = none ∧ s.work = none ∧ s.outstanding = none

/-- The block idle and with no error: no command is rejected (R67 step 1). -/
abbrev State.Ready (s : State) : Prop := s.Idle ∧ s.status.err = 0

/-- An answer that is DATA, EOD or OK. -/
def Answer.isOk : Answer → Bool
  | .ok => true
  | .pad _ => true
  | .fail _ _ => false
  | .later => false
  | .never => false

/-- A collaborator that answers every listed call at once and fails none. -/
abbrev State.Prompt (s : State) : Prop := ∀ a ∈ s.answers, a.isOk = true

/-- `u` differs from `s` in nothing but IN's position, OUT, the calls made and the collaborator's
answers. -/
abbrev StreamsOnly (s u : State) : Prop :=
  u = { s with
    inPos := u.inPos
    out := u.out
    calls := u.calls
    answers := u.answers
    outstanding := u.outstanding }

/-- `s` after stream work that took `n` bits of IN, appended `bits` to OUT and made the calls `cs`, each
answered by the next answer: nothing else changes. -/
def State.streamed (s : State) (n : Nat) (bits : Bits) (cs : List Call) : State :=
  { s with
    inPos := s.inPos + n
    out := s.out ++ bits
    calls := s.calls ++ cs
    answers := s.answers.drop cs.length }

/-- `s` after command `i` has begun and its first call, `c`, is not answered yet: BUSY 1, the words of `i`
latched, the work at `w` kept, the call made and outstanding, `left` the answers still to come (R32, R75). -/
def State.waitingAt (s : State) (i : Instr) (w : Work) (c : Call) (left : List Answer) : State :=
  { s with
    status := { s.status with busy := true }
    latch := some { cmd := encodeCmd i, data := encodeData i }
    work := some w
    outstanding := some c
    calls := s.calls ++ [c]
    answers := left
    waits := s.waits + 1 }

/-- A call is not answered at this step, and `left` are the answers that may still come: one that comes
later is used up, one that never comes stays (log 9). -/
abbrev State.Unanswered (s : State) (left : List Answer) : Prop :=
  (s.nextAnswer = .later ∧ left = s.answers.tail) ∨ (s.nextAnswer = .never ∧ left = s.answers)

/-- STATUS after `raise E(sub, sym)` in command `op` of an idle block (R121). -/
def Status.afterError (x : Status) (op : BitVec 4) (e : ErrKind) (sub : BitVec 3) (sym : BitVec 9) :
    Status :=
  { x with busy := false, err := e.code, errOp := op, errSub := sub, errSym := sym }

/-- STATUS as BUILD and RDHDR leave it when they succeed (R83, R95). -/
def Status.withNewTree (x : Status) : Status := { x with treeValid := true, codesValid := false }

/-- STATUS with no tree and no codes (R122, BUILD and RDHDR). -/
def Status.withoutTree (x : Status) : Status := { x with treeValid := false, codesValid := false }

/-- `s` with no tree and no codes (R122, RDHDR). -/
def State.withoutTree (s : State) : State :=
  { s with tree := none, code := none, status := s.status.withoutTree }

/-- `s` after a read that failed in command `op`: IOFailure sub 1, IN where the collaborator left it
(R42, R121). -/
def State.readFailed (s : State) (op : BitVec 4) (k : Nat) : State :=
  { s with inPos := k, status := s.status.afterError op .ioFailure 1 0 }

/-- `s` after a write that failed in command `op`: IOFailure sub 2 (R44, R121). -/
def State.writeFailed (s : State) (op : BitVec 4) : State :=
  { s with status := s.status.afterError op .ioFailure 2 0 }

/-- Block state at its reset values (R36). -/
structure State.AtReset (s : State) : Prop where
  status : s.status = { busy := false, treeValid := false, codesValid := false, rej := false, err := 0,
                        errOp := 0, errSub := 0, errSym := 0 }
  freq : ∀ b, s.freq.get b = 0
  tree : s.tree = none
  code : s.code = none
  result : s.result = { count := 0, present := false, len := 0, bits := 0 }
  latch : s.latch = none
  work : s.work = none
  outstanding : s.outstanding = none

/-- The errors each command can end with (R119). -/
def errorsOf : Instr → List ErrKind
  | .nop _ => []
  | .clrfreq _ => [.illegalCommand]
  | .ldfreq _ _ _ => [.illegalCommand]
  | .rdfreq _ _ => [.illegalCommand]
  | .build _ => [.illegalCommand, .countOverflow]
  | .gencodes _ => [.illegalCommand, .sequenceError]
  | .wrhdr _ => [.ioFailure, .illegalCommand, .sequenceError]
  | .encode _ => [.ioFailure, .illegalCommand, .sequenceError, .missingCode]
  | .flush _ => [.ioFailure, .illegalCommand]
  | .rdhdr _ => [.ioFailure, .corruptHeader, .illegalCommand]
  | .decode _ => [.ioFailure, .corruptBody, .illegalCommand, .sequenceError]
  | .rdcode _ _ => [.illegalCommand, .sequenceError]
  | .reservedC _ => [.illegalCommand]
  | .reservedD _ => [.illegalCommand]
  | .clrerr _ => []
  | .srst _ => []

/-- The stream bits of a byte sequence, each byte most significant bit first (R46). -/
def byteBits (bytes : List (Fin 256)) : Bits := bytes.flatMap fun b => bin 8 b.val

/-! ### The invariant -/

/-- The complete subtrees a parse of RDHDR has on its stack. -/
def stackTrees : List (Option HuffTree) → List HuffTree
  | [] => []
  | none :: stack => stackTrees stack
  | some l :: stack => l :: stackTrees stack

/-- The call a command waits for at a piece of its work. -/
def Work.pendingCall : Work → Option Call
  | .build _ _ => none
  | .gencodes _ => none
  | .wrhdr [] => none
  | .wrhdr (.subtree (.node _ _ _) :: _) => some (.outWrite 1 0)
  | .wrhdr (.subtree (.leaf _ _) :: _) => some (.outWrite 1 1)
  | .wrhdr (.field x :: _) => some (.outWrite 9 x.val)
  | .encode .fetch => some (.inRead 8)
  | .encode (.emit c) => if c = [] then none else some (.outWrite c.length (val c))
  | .encode (.last e) => if e = [] then none else some (.outWrite e.length (val e))
  | .flush => some .outFlush
  | .rdhdr .marker _ _ _ => some (.inRead 1)
  | .rdhdr .field _ _ _ => some (.inRead 9)
  | .decode (.leaf x _) => if x = eofSym then none else some (.outWrite 8 x.val)
  | .decode (.node _ _ _) => some (.inRead 1)

/-- The OPC of the command a piece of work belongs to (R55). -/
def Work.opcode : Work → BitVec 4
  | .build _ _ => 0x4
  | .gencodes _ => 0x5
  | .wrhdr _ => 0x6
  | .encode _ => 0x7
  | .flush => 0x8
  | .rdhdr _ _ _ _ => 0x9
  | .decode _ => 0xA

/-- The hidden state of a suspended command fits the block's (R27 to R29, R97). -/
def Work.Fits (s : State) : Work → Prop
  | .build _ _ => False
  | .gencodes _ => False
  | .wrhdr _ => s.status.treeValid = true
  | .encode _ => s.status.codesValid = true
  | .flush => True
  | .rdhdr _ seen nint stack =>
    s.status.treeValid = false ∧ s.status.codesValid = false ∧
    seen.Nodup ∧ seen.Perm ((stackTrees stack).flatMap HuffTree.leaves) ∧
    (∀ t ∈ stackTrees stack, t = t.strip) ∧
    nint = stack.length + ((stackTrees stack).map HuffTree.internalCount).sum ∧ nint ≤ 256
  | .decode cur => ∃ t p, s.tree = some t ∧ t.at? p = some cur

/-- What holds of every state a run reaches. -/
structure State.Inv (s : State) : Prop where
  /-- R6. -/
  width : Config.minWCount ≤ s.wCount
  /-- R22: counts have W_COUNT bits. -/
  freqFits : ∀ c ∈ s.freq.entries, c < 2 ^ s.wCount
  /-- R30. -/
  countFits : s.result.count < 2 ^ s.wCount
  /-- R24, R92. -/
  lenFits : s.result.len.toNat ≤ Config.maxCodeLen
  /-- R30: BITS is 0 at and above LEN. -/
  bitsFit : s.result.bits.toNat < 2 ^ s.result.len.toNat
  /-- R72: an ABSENT entry reads LEN 0. -/
  absentReads : s.result.present = false → s.result.len = 0
  /-- R118: codes 8 to 15 are never written. -/
  errKnown : s.status.err.toNat ≤ 7
  /-- R33: with no error the record is 0. -/
  errClear : s.status.err = 0 → s.status.errOp = 0 ∧ s.status.errSub = 0 ∧ s.status.errSym = 0
  /-- R34: REJ records a rejection, and ERR is not 0 since. -/
  rejAfterError : s.status.rej = true → s.status.err ≠ 0
  /-- R20, R36. -/
  treeHeld : s.status.treeValid = s.tree.isSome
  /-- R25, R36. -/
  codesHeld : s.status.codesValid = s.code.isSome
  /-- R19. -/
  treeProper : ∀ t, s.tree = some t → t.Proper
  /-- R21. -/
  treeWeights : ∀ t, s.tree = some t → t.BuiltWeights ∨ t = t.strip
  /-- R25, R89: CODE was generated from the tree now in TREE. -/
  codesOfTree : ∀ table, s.code = some table → ∃ t, s.tree = some t ∧ ∀ x, table.get x = t.codeOf x
  /-- R32, R36: outside a command its hidden state does not exist. -/
  idle : s.status.busy = false → s.latch = none ∧ s.work = none ∧ s.outstanding = none
  /-- R75, R125: a command that still runs waits for its outstanding call, and no error is recorded. -/
  running : s.status.busy = true → s.status.err = 0 ∧ ∃ w l c,
    s.work = some w ∧ s.latch = some l ∧ s.outstanding = some c ∧
    w.pendingCall = some c ∧ cmdOpc l.cmd = w.opcode ∧ w.Fits s

/-! ### Sequences of commands -/

/-- Commands run one after the other, each from the state the one before left. -/
def execAll : List Instr → State → Host.Outcome State Fault Refusal
  | [], s => .next s
  | i :: is, s =>
    match exec i s with
    | .next t => execAll is t
    | .fault f => .fault f
    | .refused r => .refused r

end Sys2Proof.Machine
end

