-- ==== Sys2Proof/Certificates/Slice0/Obligations.lean ====
section
/-! DEFINITION. The statements about the block, one definition each; OBLIGATIONS.json lists them with the
rules of spec/ they formalise.

`State.Ready` is the block idle with no error, `State.Prompt` a collaborator that answers each call at
once and fails none; `State.streamed s n bits cs` is `s` after stream work and nothing else. -/

open Sys2Proof Sys2Proof.Machine

/-! ### Control and table commands -/

/-- R68. -/
def Obligations.NopChangesNothing : Prop :=
  ∀ (low : BitVec 28) (s : State), s.Idle → exec (.nop low) s = .next s

/-- R69: FREQ[0..255] <- 0, and nothing else changes. -/
def Obligations.ClrfreqZeroesEveryCount : Prop :=
  ∀ s : State, s.Ready →
    ∃ freq, exec (.clrfreq 0) s = .next { s with freq := freq } ∧ ∀ b, freq.get b = 0

/-- R70, R62: FREQ[SYM] <- DATA[W_COUNT-1:0], and nothing else changes. -/
def Obligations.LdfreqWritesOneCount : Prop :=
  ∀ (sym : BitVec 9) (data : Nat) (s : State) (h : sym.toNat < 256), s.Ready →
    ∃ freq, exec (.ldfreq 0 sym data) s = .next { s with freq := freq } ∧
      freq.get ⟨sym.toNat, h⟩ = data % 2 ^ s.wCount ∧
      ∀ b, b.val ≠ sym.toNat → freq.get b = s.freq.get b

/-- R71, R23: RESULT.COUNT <- FREQ[SYM], 1 for EOF, and nothing else changes. -/
def Obligations.RdfreqReadsOneCount : Prop :=
  (∀ (sym : BitVec 9) (s : State) (h : sym.toNat < 256), s.Ready →
    exec (.rdfreq 0 sym) s =
      .next { s with result := { s.result with count := s.freq.get ⟨sym.toNat, h⟩ } }) ∧
  ∀ s : State, s.Ready →
    exec (.rdfreq 0 256) s = .next { s with result := { s.result with count := 1 } }

/-- R72: PRESENT, LEN and BITS from CODE[SYM]; SequenceError 2 without valid codes. -/
def Obligations.RdcodeReadsOneEntry : Prop :=
  (∀ (sym : BitVec 9) (s : State) (table : Table (Option Bits) 257) (h : sym.toNat < 257),
    s.Ready → s.status.codesValid = true → s.code = some table →
    (∀ c, table.get ⟨sym.toNat, h⟩ = some c →
      exec (.rdcode 0 sym) s =
        .next { s with
          result := { s.result with
            present := true
            len := BitVec.ofNat 9 c.length
            bits := BitVec.ofNat 256 (val c) } }) ∧
    (table.get ⟨sym.toNat, h⟩ = none →
      exec (.rdcode 0 sym) s =
        .next { s with result := { s.result with present := false, len := 0, bits := 0 } })) ∧
  ∀ (sym : BitVec 9) (s : State), sym.toNat < 257 → s.Ready → s.status.codesValid = false →
    exec (.rdcode 0 sym) s =
      .next { s with status := s.status.afterError 0xB .sequenceError 2 0 }

/-- R73: the error record and REJ cleared in every state, and nothing else changes. -/
def Obligations.ClrerrClearsTheRecord : Prop :=
  ∀ (low : BitVec 28) (s : State), s.Idle →
    exec (.clrerr low) s =
      .next { s with
        status := { s.status with err := 0, errOp := 0, errSub := 0, errSym := 0, rej := false } }

/-- R74, R36: block state at its reset values from every state; the streams, the outside parties and
W_COUNT stay. -/
def Obligations.SrstResetsTheBlock : Prop :=
  ∀ (low : BitVec 28) (s : State),
    ∃ u, exec (.srst low) s = .next u ∧ u.AtReset ∧
      u.wCount = s.wCount ∧ u.inp = s.inp ∧ u.inPos = s.inPos ∧ u.out = s.out ∧ u.calls = s.calls ∧
      u.answers = s.answers ∧ u.port = s.port ∧ u.resetPin = s.resetPin

/-! ### The prologue -/

/-- R58: the reserved opcodes raise IllegalCommand sub 0. -/
def Obligations.ReservedOpcodesAreIllegal : Prop :=
  ∀ (low : BitVec 28) (s : State), s.Ready →
    exec (.reservedC low) s =
      .next { s with status := s.status.afterError 0xC .illegalCommand 0 0 } ∧
    exec (.reservedD low) s =
      .next { s with status := s.status.afterError 0xD .illegalCommand 0 0 }

/-- R56: a reserved bit that is not 0 raises IllegalCommand sub 1, for every command that reserves it,
whatever its SYM, and has no other effect; NOP, CLRERR and SRST ignore CMD[27:0]. -/
def Obligations.ReservedBitsAreIllegal : Prop :=
  (∀ (low : BitVec 28) (s : State), low ≠ 0 → s.Ready →
    ∀ i ∈ [Instr.clrfreq low, .build low, .gencodes low, .wrhdr low, .encode low, .flush low, .rdhdr low,
        .decode low],
      exec i s = .next { s with status := s.status.afterError i.opcode .illegalCommand 1 0 }) ∧
  (∀ (rsv : BitVec 19) (sym : BitVec 9) (data : Nat) (s : State), rsv ≠ 0 → s.Ready →
    ∀ i ∈ [Instr.ldfreq rsv sym data, .rdfreq rsv sym, .rdcode rsv sym],
      exec i s = .next { s with status := s.status.afterError i.opcode .illegalCommand 1 0 }) ∧
  ∀ (low : BitVec 28) (s : State),
    exec (.nop low) s = exec (.nop 0) s ∧ exec (.clrerr low) s = exec (.clrerr 0) s ∧
    exec (.srst low) s = exec (.srst 0) s

/-- R57: a SYM above its limit raises IllegalCommand sub 2 with ERR_SYM = SYM. -/
def Obligations.SymOutOfRangeIsIllegal : Prop :=
  ∀ (sym : BitVec 9) (data : Nat) (s : State), s.Ready →
    (255 < sym.toNat →
      exec (.ldfreq 0 sym data) s =
        .next { s with status := s.status.afterError 0x2 .illegalCommand 2 sym }) ∧
    (256 < sym.toNat →
      exec (.rdfreq 0 sym) s =
        .next { s with status := s.status.afterError 0x3 .illegalCommand 2 sym } ∧
      exec (.rdcode 0 sym) s =
        .next { s with status := s.status.afterError 0xB .illegalCommand 2 sym })

/-- R34, R125: while ERR is not 0 every command but NOP, CLRERR and SRST sets REJ and does nothing
else. -/
def Obligations.StickyErrorRejectsCommands : Prop :=
  ∀ (i : Instr) (s : State), s.Idle → s.status.err ≠ 0 → i.opcode ∉ [0x0, 0xE, 0xF] →
    exec i s = .next { s with status := { s.status with rej := true } }

/-- R127: NOP, CLRERR and SRST answer a next state from every state, raise nothing and are not
rejected; CLRERR and SRST leave no error. -/
def Obligations.ErrorStateCanBeLeft : Prop :=
  ∀ (i : Instr) (s : State), i.opcode ∈ [0x0, 0xE, 0xF] →
    ∃ u, exec i s = .next u ∧ (u.status.err = s.status.err ∨ u.status.err = 0) ∧
      (i.opcode ≠ 0x0 → u.status.err = 0) ∧
      (u.status.rej = true → s.status.rej = true)

/-- R122: SequenceError changes the ERR fields and nothing else. -/
def Obligations.SequenceErrorsChangeNothingElse : Prop :=
  (∀ s : State, s.Ready → s.status.treeValid = false →
    ∀ i ∈ [Instr.gencodes 0, .wrhdr 0, .decode 0],
      exec i s = .next { s with status := s.status.afterError i.opcode .sequenceError 1 0 }) ∧
  ∀ s : State, s.Ready → s.status.codesValid = false →
    exec (.encode 0) s = .next { s with status := s.status.afterError 0x7 .sequenceError 2 0 }

/-! ### The Tree Builder -/

/-- R81: removeMin takes the entry with the least key, and leaves the others. -/
def Obligations.RemoveMinTakesTheLeastKey : Prop :=
  ∀ (pq : List PqEntry) (e : PqEntry) (others : List PqEntry),
    removeMin pq = some (e, others) →
      pq.Perm (e :: others) ∧
      ∀ x ∈ others, e.weight < x.weight ∨ (e.weight = x.weight ∧ e.seq ≤ x.seq)

/-- R84, R79, R81, R82: a successful BUILD makes one tree, a function of FREQ alone: the merges that begin
with one entry for each byte that occurs and one for EOF, and with NEXTSEQ 257, lead to it, so at each merge
the least entry is the left child and the next one the right. Its leaves are the Symbols that occur, each
once and with its count, and its internal weights are sums. Nothing else changes but the valid bits (R83)
and CODE: that CODE is absent after a BUILD that succeeds is the model's deduction (DEDUCED, log 7). -/
def Obligations.BuildMakesTheTreeOfFreq : Prop :=
  ∀ freq : Table Nat 256, ∃ t : HuffTree,
    (∃ pq : List PqEntry, pq.Nodup ∧
      (∀ e, e ∈ pq ↔ e = { weight := 1, seq := 256, tree := .leaf eofSym 1 } ∨
        ∃ b, 0 < freq.get b ∧
          e = { weight := freq.get b, seq := b.val, tree := .leaf (byteSym b) (freq.get b) }) ∧
      Merges pq 257 t) ∧
    (∀ s : State, s.Ready → s.freq = freq → 1 + freq.entries.sum ≤ 2 ^ s.wCount - 1 →
      exec (.build 0) s =
        .next { s with tree := some t, code := none, status := s.status.withNewTree }) ∧
    t.leaves.Nodup ∧ eofSym ∈ t.leaves ∧ (∀ b, byteSym b ∈ t.leaves ↔ 0 < freq.get b) ∧
    t.internalCount + 1 = t.leafCount ∧ t.leafCount = t.leaves.length ∧
    (∀ b w, (byteSym b, w) ∈ t.weightedLeaves → w = freq.get b) ∧
    (∀ w, (eofSym, w) ∈ t.weightedLeaves → w = 1) ∧
    t.weightsAdd = true ∧ t.weight = 1 + freq.entries.sum

/-- R80: a total above 2^W_COUNT - 1 raises CountOverflow; no tree and no codes are left, FREQ stays. -/
def Obligations.BuildOverflowLeavesNoTree : Prop :=
  ∀ s : State, s.Ready → 2 ^ s.wCount - 1 < 1 + s.freq.entries.sum →
    exec (.build 0) s =
      .next { s with
        tree := none
        code := none
        status := (s.status.withoutTree).afterError 0x4 .countOverflow 0 0 }

/-- R85: the edge cases. FREQ all zero gives the one-leaf tree; exactly one byte `x` with count `c` gives
a two-leaf tree whose sides the keys decide, with one bit per code. That CODE is absent after a BUILD that
succeeds is the model's deduction (DEDUCED, log 7). -/
def Obligations.BuildEdgeCases : Prop :=
  ∀ s : State, s.Ready → 1 + s.freq.entries.sum ≤ 2 ^ s.wCount - 1 →
    ((∀ b, s.freq.get b = 0) →
      exec (.build 0) s =
        .next { s with tree := some (.leaf eofSym 1), code := none, status := s.status.withNewTree }) ∧
    ∀ (x : Fin 256) (c : Nat), s.freq.get x = c → (∀ b, b ≠ x → s.freq.get b = 0) →
      (2 ≤ c →
        exec (.build 0) s =
          .next { s with
            tree := some (.node (.leaf eofSym 1) (.leaf (byteSym x) c) (c + 1))
            code := none
            status := s.status.withNewTree } ∧
        (HuffTree.node (.leaf eofSym 1) (.leaf (byteSym x) c) (c + 1)).codeOf eofSym = some [false] ∧
        (HuffTree.node (.leaf eofSym 1) (.leaf (byteSym x) c) (c + 1)).codeOf (byteSym x) = some [true]) ∧
      (c = 1 →
        exec (.build 0) s =
          .next { s with
            tree := some (.node (.leaf (byteSym x) 1) (.leaf eofSym 1) 2)
            code := none
            status := s.status.withNewTree } ∧
        (HuffTree.node (.leaf (byteSym x) 1) (.leaf eofSym 1) 2).codeOf (byteSym x) = some [false] ∧
        (HuffTree.node (.leaf (byteSym x) 1) (.leaf eofSym 1) 2).codeOf eofSym = some [true])

/-! ### The Code Table Generator -/

/-- R89: GENCODES makes CODE[x] PRESENT with the path to the leaf labelled `x`, and ABSENT where no leaf
is; nothing else changes but CODES_VALID. `Proper` is R19's property of every tree the block holds. -/
def Obligations.GencodesRecordsThePaths : Prop :=
  ∀ (s : State) (t : HuffTree), s.Ready → s.status.treeValid = true → s.tree = some t → t.Proper →
    ∃ table, exec (.gencodes 0) s =
        .next { s with code := some table, status := { s.status with codesValid := true } } ∧
      ∀ x, (x ∈ t.leaves → ∃ p w, table.get x = some p ∧ t.at? p = some (.leaf x w)) ∧
        (x ∉ t.leaves → table.get x = none)

/-- R91 item 3: no code is a prefix of another Symbol's. -/
def Obligations.CodesArePrefixFree : Prop :=
  ∀ (s : State) (table : Table (Option Bits) 257) (x y : Sym) (p q : Bits), s.Inv →
    s.code = some table → table.get x = some p → table.get y = some q → x ≠ y → ¬ p <+: q

/-- R91 items 2 and 4: codes are complete, and non-empty unless the tree is one leaf. -/
def Obligations.CodesAreComplete : Prop :=
  ∀ t : HuffTree, t.leaves.Nodup →
    (t.leaves.map fun x => (1 / 2 : ℚ) ^ ((t.codeOf x).getD []).length).sum = 1 ∧
    (2 ≤ t.leafCount → ∀ x, t.codeOf x ≠ some []) ∧
    ∀ x, x ∈ t.leaves ↔ (t.codeOf x).isSome = true

/-- R90, R104, R109: the one-leaf tree. Its code is "", ENCODE at the end of IN writes nothing, DECODE
reads nothing and writes nothing. -/
def Obligations.OneLeafTreeNeedsNoBits : Prop :=
  ∀ (s : State) (w : Nat), s.Ready → s.status.treeValid = true → s.tree = some (.leaf eofSym w) →
    (∃ table, exec (.gencodes 0) s =
        .next { s with code := some table, status := { s.status with codesValid := true } } ∧
      table.get eofSym = some [] ∧ ∀ x, x ≠ eofSym → table.get x = none) ∧
    exec (.decode 0) s = .next s ∧
    ∀ table, s.status.codesValid = true → s.code = some table → table.get eofSym = some [] →
      s.Prompt → s.rest = [] → exec (.encode 0) s = .next (s.streamed 0 [] [.inRead 8])

/-- R19: every tree the block holds has each Symbol at most once and EOF once, and its sizes fit the
stores; R92: so do its codes. -/
def Obligations.HeldTreesFitTheStores : Prop :=
  ∀ (s : State) (t : HuffTree), s.Inv → s.tree = some t →
    t.Proper ∧ t.leafCount ≤ Config.maxLeaves ∧ t.internalCount + 1 = t.leafCount ∧
    t.internalCount ≤ Config.maxInternal ∧ t.nodeCount ≤ Config.maxNodes ∧
    t.depth ≤ t.internalCount ∧ t.depth ≤ Config.maxCodeLen ∧
    ∀ x p, t.codeOf x = some p → p.length ≤ t.depth

/-! ### The Header Codec -/

/-- R64: the header of a tree has 11 × leafCount − 1 bits, 10 for one leaf and at most 2826 for a tree
the block may hold. -/
def Obligations.HeaderLength : Prop :=
  ∀ t : HuffTree,
    t.hdr.length = (2 * t.leafCount - 1) + 9 * t.leafCount ∧ t.hdr.length = 11 * t.leafCount - 1 ∧
    t.leafCount + t.internalCount = 2 * t.leafCount - 1 ∧
    (t.leafCount = 1 → t.hdr.length = 10) ∧ (t.Proper → t.hdr.length ≤ 2826)

/-- R94, R93: WRHDR appends hdr(TREE), in `2 × leafCount − 1` one-bit calls and `leafCount` nine-bit
calls, and changes nothing else; weights do not matter. -/
def Obligations.WrhdrAppendsTheHeader : Prop :=
  ∀ (s : State) (t : HuffTree), s.Ready → s.Prompt → s.status.treeValid = true → s.tree = some t →
    exec (.wrhdr 0) s = .next (s.streamed 0 t.hdr t.hdrCalls) ∧
    (t.hdrCalls.filter fun c => c = .outWrite 1 0 ∨ c = .outWrite 1 1).length = 2 * t.leafCount - 1 ∧
    (t.hdrCalls.filter fun c => ∃ x : Sym, c = .outWrite 9 x.val).length = t.leafCount ∧
    t.hdrCalls.length = (2 * t.leafCount - 1) + t.leafCount ∧
    t.hdr.length = 11 * t.leafCount - 1 ∧ t.strip.hdr = t.hdr

/-- R122: whatever the collaborator answers, a WRHDR that ends has appended a prefix of hdr(TREE), all of
it unless it ends with IOFailure sub 2; tree and codes stay. -/
def Obligations.WrhdrWritesAPrefixOnFailure : Prop :=
  ∀ (s u : State) (t : HuffTree), s.Ready → s.status.treeValid = true → s.tree = some t →
    exec (.wrhdr 0) s = .next u →
      u.tree = s.tree ∧ u.code = s.code ∧ u.inPos = s.inPos ∧
      ∃ x, x <+: t.hdr ∧ u.out = s.out ++ x ∧
        (u.status.busy = false →
          (u.status = s.status ∧ x = t.hdr) ∨ u.status = s.status.afterError 0x6 .ioFailure 2 0)

/-- R99, R96, R49: RDHDR on hdr(t) ++ x succeeds, takes exactly hdr(t), by one read of 1 bit for each marker
and one of 9 bits after each leaf's, in the header's order and with no other call, and sets TREE to strip(t);
OUT, FREQ and RESULT stay. -/
def Obligations.RdhdrReadsBackAHeader : Prop :=
  ∀ (s : State) (t : HuffTree) (x : Bits), s.Ready → s.Prompt → t.Proper → s.rest = t.hdr ++ x →
    exec (.rdhdr 0) s =
      .next { s.streamed (11 * t.leafCount - 1) [] (tokenReads t.tokens) with
        tree := some t.strip, code := none, status := s.status.withNewTree }

/-- R99, R98: an RDHDR that succeeds has read exactly hdr(TREE), whatever the collaborator, and TREE is a
tree that R19 allows with every weight 0. -/
def Obligations.RdhdrSuccessMeansAHeader : Prop :=
  ∀ s u : State, s.Ready → exec (.rdhdr 0) s = .next u → u.status.busy = false → u.status.err = 0 →
    ∃ t, u.tree = some t ∧ u.status.treeValid = true ∧ t.Proper ∧ t = t.strip ∧
      s.rest = t.hdr ++ u.rest ∧ u.out = s.out

/-- R95: on any error of RDHDR TREE_VALID = 0 and no tree is kept, whatever the collaborator. -/
def Obligations.RdhdrErrorKeepsNoTree : Prop :=
  ∀ s u : State, s.Ready → exec (.rdhdr 0) s = .next u → u.status.err ≠ 0 →
    u.tree = none ∧ u.status.treeValid = false ∧ u.status.codesValid = false ∧ u.freq = s.freq ∧
      u.out = s.out

/-- R98 sub 0: IN ends before the tree is complete: what is left of IN is a proper prefix of a header,
that is, some whole tokens and a part of the next one. Every bit before the short read is taken (R100): the
marker of that token if it is there; fewer than 9 bits stay. The short read is its last call. -/
def Obligations.RdhdrTruncatedHeader : Prop :=
  ∀ (s : State) (t : HuffTree), s.Ready → s.Prompt → t.leaves.Nodup → s.rest <+: t.hdr → s.rest ≠ t.hdr →
    ∃ pre tok post part n,
      t.tokens = pre ++ tok :: post ∧ s.rest = tokenBits pre ++ part ∧ part <+: tok.bits ∧
      part ≠ tok.bits ∧ n = (tokenBits pre).length + min 1 part.length ∧ s.rest.length < n + 9 ∧
      exec (.rdhdr 0) s =
        .next { s.streamed n []
            (tokenReads pre ++ if part = [] then [Call.inRead 1] else [Call.inRead 1, Call.inRead 9]) with
          tree := none
          code := none
          status := (s.status.withoutTree).afterError 0x9 .corruptHeader 0 0 }

/-- R98 subs 1 and 2: at any leaf of a header, after any tokens `pre` that may stand before one, a field
that is no Symbol, and a Symbol that a leaf has already. RDHDR stops at that read and has taken all of it
(R100). -/
def Obligations.RdhdrBadLeaf : Prop :=
  ∀ (s : State) (t : HuffTree) (pre post : List HdrToken) (x : Sym) (v : Nat) (more : Bits),
    s.Ready → s.Prompt → t.leaves.Nodup → t.tokens = pre ++ .leaf x :: post →
    s.rest = tokenBits pre ++ true :: (bin 9 v ++ more) →
    (256 < v → v < 512 →
      exec (.rdhdr 0) s =
        .next { s.streamed ((tokenBits pre).length + 10) [] (tokenReads pre ++ [Call.inRead 1, Call.inRead 9]) with
          tree := none
          code := none
          status := (s.status.withoutTree).afterError 0x9 .corruptHeader 1 (BitVec.ofNat 9 v) }) ∧
    ∀ y : Sym, v = y.val → .leaf y ∈ pre →
      exec (.rdhdr 0) s =
        .next { s.streamed ((tokenBits pre).length + 10) [] (tokenReads pre ++ [Call.inRead 1, Call.inRead 9]) with
          tree := none
          code := none
          status := (s.status.withoutTree).afterError 0x9 .corruptHeader 2 (BitVec.ofNat 9 v) }

/-- R98 sub 3: the tree is complete and has no EOF leaf; exactly its header has been read. -/
def Obligations.RdhdrWithoutEof : Prop :=
  ∀ (s : State) (t : HuffTree) (x : Bits), s.Ready → s.Prompt → t.leaves.Nodup → eofSym ∉ t.leaves →
    s.rest = t.hdr ++ x →
    exec (.rdhdr 0) s =
      .next { s.streamed t.hdr.length [] (tokenReads t.tokens) with
        tree := none
        code := none
        status := (s.status.withoutTree).afterError 0x9 .corruptHeader 3 256 }

/-- R98 sub 4: the 257th internal marker, after any tokens `pre` of an unfinished header, 256 of them
internal markers, whether or not leaves stand between them. RDHDR stops at that read and has taken it
(R100). -/
def Obligations.RdhdrTooManyInternalMarkers : Prop :=
  ∀ (s : State) (t : HuffTree) (pre post : List HdrToken) (more : Bits), s.Ready → s.Prompt →
    t.leaves.Nodup → t.tokens = pre ++ post → post ≠ [] → pre.count .internal = 256 →
    s.rest = tokenBits pre ++ false :: more →
    exec (.rdhdr 0) s =
      .next { s.streamed ((tokenBits pre).length + 1) [] (tokenReads pre ++ [Call.inRead 1]) with
        tree := none
        code := none
        status := (s.status.withoutTree).afterError 0x9 .corruptHeader 4 0 }

/-! ### The Body Encoder and FLUSH -/

/-- R103, R106, R49: ENCODE appends body(S) for the bytes S that IN holds, the EOF code once and last. Its
calls, at most `2m + 2`, are for each byte a read of 8 bits and one write of its code, then the read that finds
no byte and one write of the EOF code (R44: a code of no bits is written by no call). Bits that do not fill a
byte stay unread (R43); nothing else changes. -/
def Obligations.EncodeAppendsTheBody : Prop :=
  ∀ (s : State) (t : HuffTree) (table : Table (Option Bits) 257) (bytes : List (Fin 256)) (b tail : Bits),
    s.Ready → s.Prompt → s.status.codesValid = true → s.code = some table →
    (∀ x, table.get x = t.codeOf x) → t.body bytes = some b →
    s.rest = byteBits bytes ++ tail → tail.length < 8 →
    ∃ cs, cs = encodeCalls t.codeOf bytes ++ Call.inRead 8 :: codeWrite ((t.codeOf eofSym).getD []) ∧
      exec (.encode 0) s = .next (s.streamed (8 * bytes.length) b cs) ∧ cs.length ≤ 2 * bytes.length + 2

/-- R102: at the first byte whose CODE entry is ABSENT, ENCODE raises MissingCode with that byte, having
written the codes of the bytes before it and no bit of that byte: its last call is that byte's read. -/
def Obligations.EncodeStopsAtAMissingCode : Prop :=
  ∀ (s : State) (table : Table (Option Bits) 257) (bytes : List (Fin 256)) (x : Fin 256) (more : Bits),
    s.Ready → s.Prompt → s.status.codesValid = true → s.code = some table →
    (∀ b ∈ bytes, (table.get (byteSym b)).isSome = true) → table.get (byteSym x) = none →
    s.rest = byteBits bytes ++ bin 8 x.val ++ more →
    exec (.encode 0) s =
      .next { s.streamed (8 * bytes.length + 8) (codesOf table.get bytes)
          (encodeCalls table.get bytes ++ [Call.inRead 8]) with
        status := s.status.afterError 0x7 .missingCode 0 (BitVec.ofNat 9 x.val) }

/-- R105, R45: FLUSH makes one call; answered OK it appends the collaborator's padding and nothing else
changes (R47: zeros to a multiple of 8 bits from the reference collaborator, log 3); FAIL
is IOFailure sub 3 and no block state changes but the record. -/
def Obligations.FlushAsksForThePadding : Prop :=
  ∀ s : State, s.Ready →
    (s.nextAnswer.isOk = true →
      exec (.flush 0) s = .next (s.streamed 0 (flushPad s.nextAnswer s.out.length) [.outFlush])) ∧
    (s.nextAnswer = .ok →
      ∃ n < 8, flushPad s.nextAnswer s.out.length = List.replicate n false ∧
        (s.out.length + n) % 8 = 0) ∧
    ∀ k left, s.nextAnswer = .fail k left →
      exec (.flush 0) s =
        .next { s.streamed 0 [] [.outFlush] with
          out := left, status := s.status.afterError 0x8 .ioFailure 3 0 }

/-! ### The Body Decoder -/

/-- R113, R111, R114, R49: DECODE on body(S) ++ x succeeds, writes exactly the bytes of S in order, each by one
write of 8 bits, takes exactly body(S), bit by bit, makes no other call, and changes nothing else. -/
def Obligations.DecodeInvertsTheBody : Prop :=
  ∀ (s : State) (t : HuffTree) (bytes : List (Fin 256)) (b x : Bits),
    s.Ready → s.Prompt → s.status.treeValid = true → t.Proper →
    (s.tree = some t ∨ s.tree = some t.strip) →
    t.body bytes = some b → s.rest = b ++ x →
    exec (.decode 0) s =
      .next (s.streamed b.length (byteBits bytes)
        (decodeCalls t.codeOf bytes ++ bitReads ((t.codeOf eofSym).getD []).length))

/-- R110: the end of IN before the EOF leaf is CorruptBody, sub 1 between two codes and sub 0 inside a
code; the bytes decoded before stay on OUT (R115). The read that finds no bit is its last call. -/
def Obligations.DecodeReportsATruncatedBody : Prop :=
  ∀ (s : State) (t : HuffTree) (bytes : List (Fin 256)) (codes : List Bits) (p q : Bits) (y : Sym),
    s.Ready → s.Prompt → s.status.treeValid = true → t.Proper → s.tree = some t →
    codes = bytes.map (fun b => (t.codeOf (byteSym b)).getD []) →
    (∀ b ∈ bytes, byteSym b ∈ t.leaves) →
    t.codeOf y = some (p ++ q) → q ≠ [] → s.rest = codes.flatten ++ p →
    exec (.decode 0) s =
      .next { s.streamed s.rest.length (byteBits bytes)
          (decodeCalls t.codeOf bytes ++ bitReads (p.length + 1)) with
        status := s.status.afterError 0xA .corruptBody (if p = [] then 1 else 0) 0 }

/-- R112, R117: whatever the collaborator and the bits of IN, a DECODE with a tree answers a next state
after at most `2k + 1` calls, `k` being the bits IN holds (R112's finite IN; the model has no other, log 24):
success, CorruptBody, IOFailure, or a wait for an answer. -/
def Obligations.DecodeAlwaysEnds : Prop :=
  ∀ (s : State) (t : HuffTree), s.Ready → s.status.treeValid = true → s.tree = some t → t.Proper →
    ∃ u, exec (.decode 0) s = .next u ∧ (∃ cs, u.calls = s.calls ++ cs ∧ cs.length ≤ 2 * s.remaining + 1) ∧
      (u.status.busy = true ∨ u.status = s.status ∨
        u.status = s.status.afterError 0xA .corruptBody 0 0 ∨
        u.status = s.status.afterError 0xA .corruptBody 1 0 ∨
        u.status = s.status.afterError 0xA .ioFailure 1 0 ∨
        u.status = s.status.afterError 0xA .ioFailure 2 0)

/-- R113 second part, P3: RDHDR; DECODE on hdr(t) ++ body(S) ++ x writes S and takes exactly the two. -/
def Obligations.HeaderAndBodyDecode : Prop :=
  ∀ (s : State) (t : HuffTree) (bytes : List (Fin 256)) (b x : Bits),
    s.Ready → s.Prompt → t.Proper → t.body bytes = some b → s.rest = t.hdr ++ b ++ x →
    ∃ u, execAll [.rdhdr 0, .decode 0] s = .next u ∧
      u.out = s.out ++ byteBits bytes ∧ u.rest = x ∧ u.status = s.status.withNewTree

/-- R113, P1, R66: for every finite byte sequence S, FREQ loaded with its counts and IN holding it, COMPRESS
appends hdr(TREE) ++ body(S) and then what the flush adds, and nothing else; DECOMPRESS on just that stream
writes S and then what its own flush adds, and nothing else. What a flush adds is the collaborator's
(`flushPad` of its answer and of OUT's length, R45, R47). -/
def Obligations.CompressedBytesDecompress : Prop :=
  ∀ (s : State) (bytes : List (Fin 256)), s.Ready → s.Prompt →
    (∀ b, s.freq.get b = bytes.count b) → 1 + bytes.length ≤ 2 ^ s.wCount - 1 →
    s.rest = byteBits bytes →
    ∃ c t body stream, execAll [.build 0, .gencodes 0, .wrhdr 0, .encode 0] s = .next c ∧
      c.tree = some t ∧ t.body bytes = some body ∧ c.out = s.out ++ (t.hdr ++ body) ∧ c.rest = [] ∧
      execAll compress s =
        .next (c.streamed 0 (flushPad c.nextAnswer c.out.length) [.outFlush]) ∧
      stream = t.hdr ++ body ++ flushPad c.nextAnswer c.out.length ∧
      c.Ready ∧
      ∀ v : State, v.Ready → v.Prompt → v.rest = stream →
        ∃ d, execAll [.rdhdr 0, .decode 0] v = .next d ∧ d.status.err = 0 ∧
          d.out = v.out ++ byteBits bytes ∧
          d.rest = flushPad c.nextAnswer c.out.length ∧
          execAll decompress v =
            .next (d.streamed 0 (flushPad d.nextAnswer d.out.length) [.outFlush])

/-! ### Failing calls -/

/-- R122, R42, R44, R115, R126: where a call of a command fails, whichever it is, the calls before it being
answered at once and not failing, the command ends with IOFailure, sub 1 for a read (also at the end of IN) and 2
for a write, and makes no further call. OUT holds what the calls before it wrote: the codes of the bytes before
the failing point (ENCODE), the bytes decoded before (DECODE), the bits of the header so far (WRHDR); IN is
past what they read. What the failing call did to its stream is the collaborator's (`k`, log 4). FLUSH has one
call (FlushAsksForThePadding). -/
def Obligations.FailingCallIsAnIOFailure : Prop :=
  ∀ (s : State) (before after : List Answer) (k : Nat) (left : Bits), s.Ready →
    s.answers = before ++ .fail k left :: after → (∀ a ∈ before, a.isOk = true) →
    -- ENCODE: the read after the bytes `bytes`; the write of the code of the byte `x` after them; the write of
    -- the EOF code.
    (∀ (table : Table (Option Bits) 257) (bytes : List (Fin 256)), s.status.codesValid = true →
      s.code = some table → (∀ b ∈ bytes, (table.get (byteSym b)).isSome = true) →
      (∀ more, s.rest = byteBits bytes ++ more → before.length = (encodeCalls table.get bytes).length →
        exec (.encode 0) s =
          .next ((s.streamed (8 * bytes.length) (codesOf table.get bytes)
            (encodeCalls table.get bytes ++ [Call.inRead 8])).readFailed 0x7 k)) ∧
      (∀ (x : Fin 256) (c more : Bits), s.rest = byteBits bytes ++ bin 8 x.val ++ more →
        table.get (byteSym x) = some c → c ≠ [] →
        before.length = (encodeCalls table.get bytes).length + 1 →
        exec (.encode 0) s =
          .next ((s.streamed (8 * bytes.length + 8) (codesOf table.get bytes ++ c.take k)
            (encodeCalls table.get bytes ++ [Call.inRead 8, Call.outWrite c.length (val c)])).writeFailed 0x7)) ∧
      (∀ e tail : Bits, s.rest = byteBits bytes ++ tail → tail.length < 8 →
        table.get eofSym = some e → e ≠ [] →
        before.length = (encodeCalls table.get bytes).length + 1 →
        exec (.encode 0) s =
          .next ((s.streamed (8 * bytes.length) (codesOf table.get bytes ++ e.take k)
            (encodeCalls table.get bytes ++ [Call.inRead 8, Call.outWrite e.length (val e)])).writeFailed 0x7))) ∧
    -- RDHDR: the read of the marker after the tokens `pre` of an unfinished header, and of the field after a
    -- leaf's marker.
    (∀ (t : HuffTree) (pre post : List HdrToken) (more : Bits), t.leaves.Nodup → t.tokens = pre ++ post →
      post ≠ [] →
      (s.rest = tokenBits pre ++ more → before.length = (tokenReads pre).length →
        exec (.rdhdr 0) s =
          .next ((s.streamed (tokenBits pre).length []
            (tokenReads pre ++ [Call.inRead 1])).withoutTree.readFailed 0x9 k)) ∧
      (s.rest = tokenBits pre ++ true :: more → before.length = (tokenReads pre).length + 1 →
        exec (.rdhdr 0) s =
          .next ((s.streamed ((tokenBits pre).length + 1) []
            (tokenReads pre ++ [Call.inRead 1, Call.inRead 9])).withoutTree.readFailed 0x9 k))) ∧
    -- WRHDR: the write `c` after the writes `pre`.
    (∀ (t : HuffTree) (pre post : List Call) (c : Call), s.status.treeValid = true → s.tree = some t →
      t.hdrCalls = pre ++ c :: post → before.length = pre.length →
      exec (.wrhdr 0) s =
        .next ((s.streamed 0 (pre.flatMap Call.bits ++ c.bits.take k) (pre ++ [c])).writeFailed 0x6)) ∧
    -- DECODE, with a tree of more than one leaf: the read after the bits `p` of a code after the bytes `bytes`,
    -- and the write of the byte `x` after them.
    ∀ (t l r : HuffTree) (w : Nat) (bytes : List (Fin 256)), s.status.treeValid = true → s.tree = some t →
      t = .node l r w → (∀ b ∈ bytes, byteSym b ∈ t.leaves) →
      (∀ (p more : Bits) (cl cr : HuffTree) (cw : Nat), t.at? p = some (.node cl cr cw) →
        s.rest = codesOf t.codeOf bytes ++ p ++ more →
        before.length = (decodeCalls t.codeOf bytes).length + p.length →
        exec (.decode 0) s =
          .next ((s.streamed (codesOf t.codeOf bytes ++ p).length (byteBits bytes)
            (decodeCalls t.codeOf bytes ++ bitReads (p.length + 1))).readFailed 0xA k)) ∧
      ∀ (x : Fin 256) (c more : Bits), t.codeOf (byteSym x) = some c →
        s.rest = codesOf t.codeOf bytes ++ c ++ more →
        before.length = (decodeCalls t.codeOf bytes).length + c.length →
        exec (.decode 0) s =
          .next ((s.streamed (codesOf t.codeOf bytes ++ c).length (byteBits bytes ++ (bin 8 x.val).take k)
            (decodeCalls t.codeOf bytes ++ bitReads c.length ++ [Call.outWrite 8 x.val])).writeFailed 0xA)

/-! ### Frames of all commands -/

/-- R18, R20, R22, R24, R25, R30: which commands may change FREQ, TREE, CODE and RESULT, also when they
end with an error. -/
def Obligations.TablesChangeOnlyByTheirCommands : Prop :=
  ∀ (i : Instr) (s u : State), exec i s = .next u →
    u.wCount = s.wCount ∧
    (i.opcode ∉ [0x1, 0x2, 0xF] → u.freq = s.freq) ∧
    (i.opcode ∉ [0x4, 0x9, 0xF] → u.tree = s.tree ∧ u.status.treeValid = s.status.treeValid) ∧
    (i.opcode ∉ [0x4, 0x5, 0x9, 0xF] → u.code = s.code ∧ u.status.codesValid = s.status.codesValid) ∧
    (i.opcode ∉ [0x3, 0xB, 0xF] → u.result = s.result)

/-- R40, R41, R50: IN's bits never change and only ENCODE, RDHDR and DECODE move its position; OUT
changes only by WRHDR, ENCODE, FLUSH and DECODE, and but for a FLUSH only grows; the host's and the reset
input's coming moves stay. R49, R45: whatever the collaborator answers, every call a command makes is one its
command may make: reads of 8 bits (ENCODE), of 1 or 9 (RDHDR) and of 1 (DECODE), writes of 1 or 9 bits (WRHDR)
and of 8 (DECODE) and of a code (ENCODE), and the flush of FLUSH alone. -/
def Obligations.StreamsChangeOnlyByTheirCommands : Prop :=
  ∀ (i : Instr) (s u : State), exec i s = .next u →
    u.inp = s.inp ∧ u.port = s.port ∧ u.resetPin = s.resetPin ∧
    (i.opcode ∉ [0x7, 0x9, 0xA] → u.inPos = s.inPos) ∧
    (i.opcode ∉ [0x6, 0x7, 0x8, 0xA] → u.out = s.out) ∧
    (i.opcode ≠ 0x8 → s.out <+: u.out) ∧
    (i.opcode ∉ [0x6, 0x7, 0x8, 0x9, 0xA] → u.calls = s.calls ∧ u.answers = s.answers) ∧
    ∃ cs, u.calls = s.calls ++ cs ∧ ∀ c ∈ cs, mayCall i.opcode c = true

/-- R119, R33, R34: a command that is not rejected ends with the record unchanged, cleared (CLRERR,
SRST), or set by an error that R119 allows it, with its own OPC; it never sets REJ. -/
def Obligations.CommandsRaiseOnlyTheirErrors : Prop :=
  ∀ (i : Instr) (s u : State), s.status.err = 0 → exec i s = .next u →
    (u.status.rej = true → s.status.rej = true) ∧
    (u.status.err = 0 ∨ ∃ e ∈ errorsOf i, u.status.err = e.code ∧ u.status.errOp = i.opcode)

/-! ### Steps -/

/-- R53, R67: a step of an idle block runs the command that the head of the port decodes to, with CMD and
DATA latched and BUSY = 1. So whatever a statement says of that command's `exec` from the idle state, the
step does: the two differ in nothing but the latch of a command that still waits, which holds the words as
they were offered (R31). -/
def Obligations.StepRunsTheDecodedCommand : Prop :=
  ∀ (s : State) (cmd : CmdWord) (data : Nat) (moves : List PortEvent),
    s.resetAsserted = false → s.status.busy = false → s.port = .offer cmd data :: moves →
    step s = exec (decode cmd data)
      { s with
        port := moves
        resetPin := s.resetPin.tail
        status := { s.status with busy := true }
        latch := some { cmd := cmd, data := data % 2 ^ s.wCount } } ∧
    ∀ u, s.Idle → exec (decode cmd data) { s with port := moves, resetPin := s.resetPin.tail } = .next u →
      (u.status.busy = false → step s = .next u) ∧
      (u.status.busy = true →
        step s = .next { u with latch := some { cmd := cmd, data := data % 2 ^ s.wCount } })

/-- R131, R133, R144: with no offer an idle block holds all its state; the host's stream moves change
the streams alone. -/
def Obligations.IdleBlockHoldsItsState : Prop :=
  ∀ s : State, s.resetAsserted = false → s.status.busy = false →
    (s.port = [] → step s = .next { s with resetPin := s.resetPin.tail }) ∧
    (∀ moves, s.port = .rewindIn :: moves →
      step s = .next { s with resetPin := s.resetPin.tail, port := moves, inPos := 0 }) ∧
    (∀ bits pos moves, s.port = .attachIn bits pos :: moves →
      step s = .next { s with resetPin := s.resetPin.tail, port := moves, inp := bits, inPos := pos }) ∧
    ∀ bits moves, s.port = .attachOut bits :: moves →
      step s = .next { s with resetPin := s.resetPin.tail, port := moves, out := bits }

/-- R132, R134, R126: the hardware reset, at any moment, gives block state its reset values, records no error
and makes no call. Asserted before a step, in every state: with no call outstanding the streams stay; in every
case what is on OUT stays on it unless a flush was outstanding, and IN stays where it is unless a read was.
Asserted while a step runs (`during n`: what `n` counts is the model's choice, log 10): the step ends there. A
moment stands before a command's first call and after each of its calls, and the last ones come when it has
ended; the calls made by then, and what they read and wrote, stay. -/
def Obligations.HardwareResetAtAnyMoment : Prop :=
  (∀ s : State, s.resetLevel = .asserted →
    ∃ u, step s = .next u ∧ u.AtReset ∧ u.wCount = s.wCount ∧ u.inp = s.inp ∧ u.port = s.port ∧
      u.calls = s.calls ∧
      (s.outstanding ≠ some .outFlush → s.out <+: u.out) ∧
      ((∀ n, s.outstanding ≠ some (.inRead n)) → u.inPos = s.inPos) ∧
      (s.outstanding = none → u.out = s.out ∧ u.answers = s.answers)) ∧
  -- While a step runs, `t` being where it would have ended and `cs` the calls it would have made.
  (∀ (s : State) (pin : List ResetLevel), s.Inv →
    ∃ t cs, step { s with resetPin := .released :: pin } = .next t ∧ t.calls = s.calls ++ cs ∧
      (∀ n, ∃ u k, step { s with resetPin := .during n :: pin } = .next u ∧ u.AtReset ∧
        u.wCount = s.wCount ∧ u.inp = t.inp ∧ u.port = t.port ∧ u.resetPin = pin ∧
        u.calls = s.calls ++ cs.take k) ∧
      (∀ k ≤ cs.length, ∃ n u, step { s with resetPin := .during n :: pin } = .next u ∧
        u.calls = s.calls ++ cs.take k) ∧
      ∃ m, ∀ n ≥ m, ∃ u, step { s with resetPin := .during n :: pin } = .next u ∧ u.calls = t.calls ∧
        (t.status.busy = false → u.out = t.out ∧ u.inPos = t.inPos ∧ u.answers = t.answers)) ∧
  -- In a BUSY block: the first moment is the one before the step.
  (∀ (s : State) (pin : List ResetLevel), s.Inv → s.status.busy = true →
    step { s with resetPin := .during 0 :: pin } = step { s with resetPin := .asserted :: pin } ∧
    ∀ n u, s.work ≠ some .flush → step { s with resetPin := .during n :: pin } = .next u →
      s.out <+: u.out) ∧
  -- A command offered to an idle block: at the first moment it is accepted and has touched no stream.
  ∀ (s : State) (pin : List ResetLevel) (cmd : CmdWord) (data : Nat) (moves : List PortEvent), s.Inv →
    s.status.busy = false → s.port = .offer cmd data :: moves →
    step { s with resetPin := .during 0 :: pin } =
      .next (resetBlock { s with port := moves, resetPin := pin }) ∧
    (∀ n u, cmdOpc cmd ≠ 0x8 → step { s with resetPin := .during n :: pin } = .next u → s.out <+: u.out) ∧
    -- WRHDR after any of its writes, ENCODE and DECODE after any of their bytes, RDHDR after any of its tokens.
    (s.status.err = 0 → s.Prompt →
      (∀ (t : HuffTree) (pre post : List Call), decode cmd data = .wrhdr 0 → s.tree = some t →
        t.hdrCalls = pre ++ post →
        ∃ n, step { s with resetPin := .during n :: pin } =
          .next (resetBlock { s.streamed 0 (pre.flatMap Call.bits) pre with
            port := moves, resetPin := pin })) ∧
      (∀ (table : Table (Option Bits) 257) (bytes : List (Fin 256)) (more : Bits),
        decode cmd data = .encode 0 → s.code = some table →
        (∀ b ∈ bytes, (table.get (byteSym b)).isSome = true) → s.rest = byteBits bytes ++ more →
        ∃ n, step { s with resetPin := .during n :: pin } =
          .next (resetBlock { s.streamed (8 * bytes.length) (codesOf table.get bytes)
              (encodeCalls table.get bytes) with port := moves, resetPin := pin })) ∧
      (∀ (t : HuffTree) (pre post : List HdrToken) (more : Bits), decode cmd data = .rdhdr 0 →
        t.leaves.Nodup → t.tokens = pre ++ post → post ≠ [] → s.rest = tokenBits pre ++ more →
        ∃ n, step { s with resetPin := .during n :: pin } =
          .next (resetBlock { s.streamed (tokenBits pre).length [] (tokenReads pre) with
            port := moves, resetPin := pin })) ∧
      ∀ (t : HuffTree) (bytes : List (Fin 256)) (more : Bits), decode cmd data = .decode 0 →
        s.tree = some t → (∀ b ∈ bytes, byteSym b ∈ t.leaves) →
        s.rest = codesOf t.codeOf bytes ++ more →
        ∃ n, step { s with resetPin := .during n :: pin } =
          .next (resetBlock { s.streamed (codesOf t.codeOf bytes).length (byteBits bytes)
              (decodeCalls t.codeOf bytes) with port := moves, resetPin := pin }))

/-- R32: a command offered while BUSY = 1 waits at the port; it is neither lost nor run. -/
def Obligations.OffersWaitWhileBusy : Prop :=
  ∀ s u : State, s.resetAsserted = false → s.status.busy = true → step s = .next u → u.port = s.port

/-- R75, R32, R31: a call that is not answered yet holds the block BUSY. In a BUSY block the step changes
nothing but the model's counter, and uses up the answer if one may still come. A command of an idle block
whose first call is not answered leaves BUSY = 1, its words latched, the call made and outstanding and its
work kept (RDHDR has cleared the valid bits, R95), and nothing else changed. -/
def Obligations.UnansweredCallHoldsTheBlock : Prop :=
  (∀ s : State, s.Inv → s.resetAsserted = false → s.status.busy = true →
    (s.nextAnswer = .never →
      step s = .next { s with resetPin := s.resetPin.tail, waits := s.waits + 1 }) ∧
    (s.nextAnswer = .later →
      step s = .next { s with
        resetPin := s.resetPin.tail
        answers := s.answers.tail
        waits := s.waits + 1 })) ∧
  ∀ (s : State) (left : List Answer), s.Ready → s.Unanswered left →
    (∀ table, s.status.codesValid = true → s.code = some table →
      exec (.encode 0) s = .next (s.waitingAt (.encode 0) (.encode .fetch) (.inRead 8) left)) ∧
    exec (.flush 0) s = .next (s.waitingAt (.flush 0) .flush .outFlush left) ∧
    exec (.rdhdr 0) s =
      .next { s.waitingAt (.rdhdr 0) (.rdhdr .marker [] 0 []) (.inRead 1) left with
        tree := none, code := none, status := { s.status.withoutTree with busy := true } } ∧
    ∀ t, s.status.treeValid = true → s.tree = some t →
      (∀ x w, t = .leaf x w →
        exec (.wrhdr 0) s = .next (s.waitingAt (.wrhdr 0) (.wrhdr [.subtree t]) (.outWrite 1 1) left)) ∧
      ∀ l r w, t = .node l r w →
        exec (.wrhdr 0) s = .next (s.waitingAt (.wrhdr 0) (.wrhdr [.subtree t]) (.outWrite 1 0) left) ∧
        exec (.decode 0) s = .next (s.waitingAt (.decode 0) (.decode t) (.inRead 1) left)

/-- R32, R75: a step of a BUSY block goes on with its command from the piece of work it stands at; ERR_OP
would be the OPC of the latched CMD (R33). A call that is answered late changes nothing in what the command
does: where one more `later` stands among the answers, a step either does not come to it, and then answers
the same state with it still to come, or waits at it, and the next step then ends in the state the first
would have reached without it (the model's counter and the reset input's levels aside). -/
def Obligations.BusyBlockGoesOnWithItsCommand : Prop :=
  (∀ (s : State) (w : Work) (l : Latch), s.resetAsserted = false → s.status.busy = true →
    s.work = some w → s.latch = some l →
    step s = finish (cmdOpc l.cmd) (.more w { s with resetPin := s.resetPin.tail, work := none })) ∧
  ∀ (s t : State) (before after : List Answer), s.Inv → s.resetAsserted = false →
    (∀ a ∈ before, a ≠ .later ∧ a ≠ .never) →
    step { s with answers := before ++ after } = .next t →
    ∃ u, step { s with answers := before ++ .later :: after } = .next u ∧
      ((∃ rest, t.answers = rest ++ after ∧ u = { t with answers := rest ++ .later :: after }) ∨
        (u.status.busy = true ∧ u.outstanding.isSome = true ∧ u.answers = after ∧
          u.resetPin = t.resetPin ∧
          (u.resetAsserted = false →
            step u = .next { t with resetPin := t.resetPin.tail, waits := t.waits + 1 })))

/-- R17, R31, R50: what a step of a BUSY block leaves unchanged: W_COUNT (R6), FREQ (R22), TREE and CODE but
for RDHDR (R18, R20, R24, R25), RESULT (R30), IN's bits (R40), what is on OUT but for a FLUSH (R41), the port
(R32), REJ (R34) and the latch; and which calls it may make (R37, R49, R45). -/
def Obligations.BusyStepsKeepToTheirCommand : Prop :=
  ∀ s u : State, s.Inv → s.resetAsserted = false → s.status.busy = true → step s = .next u →
    u.wCount = s.wCount ∧ u.freq = s.freq ∧ u.result = s.result ∧ u.inp = s.inp ∧ u.port = s.port ∧
    u.status.rej = s.status.rej ∧
    (∃ cs, u.calls = s.calls ++ cs ∧ ∀ c ∈ cs, ∀ l, s.latch = some l → mayCall (cmdOpc l.cmd) c = true) ∧
    ((∀ phase seen nint stack, s.work ≠ some (.rdhdr phase seen nint stack)) →
      u.tree = s.tree ∧ u.code = s.code) ∧
    (s.work ≠ some .flush → s.out <+: u.out) ∧
    (u.status.busy = true → u.latch = s.latch)

/-- R26, R35: the STATUS word by field; the host reads it as it is while BUSY = 0. While BUSY = 1 it reads
BUSY = 1 (R142, D39) and zeros in 31:24 (R35); that REJ then reads as it is stored is the model's choice
(DESIGN CHOICE, log 12: D39 gives such a read no value but BUSY = 1, and I15 does not name REJ). -/
def Obligations.StatusWordLayout : Prop :=
  (∀ x : Status,
    x.word.getLsbD 0 = x.busy ∧ x.word.getLsbD 1 = x.treeValid ∧ x.word.getLsbD 2 = x.codesValid ∧
    x.word.getLsbD 3 = x.rej ∧ x.word.extractLsb' 4 4 = x.err ∧ x.word.extractLsb' 8 4 = x.errOp ∧
    x.word.extractLsb' 12 3 = x.errSub ∧ x.word.extractLsb' 15 9 = x.errSym ∧
    x.word.extractLsb' 24 8 = 0) ∧
  ∀ s : State,
    (s.status.busy = false → readStatus s = s.status.word) ∧
    (s.status.busy = true →
      (readStatus s).getLsbD 0 = true ∧ (readStatus s).getLsbD 3 = s.status.rej ∧
      (readStatus s).extractLsb' 24 8 = 0)

/-! ### Reset and the invariant -/

/-- R36: the state after reset. -/
def Obligations.ResetState : Prop :=
  State.reset.AtReset ∧ State.reset.wCount = Config.defaultWCount

/-- The invariant holds at reset. -/
def Obligations.InvariantHoldsAtReset : Prop := State.reset.Inv

/-- Every step keeps the invariant, whatever the collaborator, the host and the reset input do. -/
def Obligations.EveryStepKeepsTheInvariant : Prop :=
  ∀ s u : State, s.Inv → step s = .next u → u.Inv

/-- R75: no command runs for ever and none is without an effect: from every state that meets the
invariant a step answers a next state. IN is finite (the model's choice, log 24). -/
def Obligations.NoStepStops : Prop :=
  ∀ s : State, s.Inv → ∃ u, step s = .next u

/-! ### Encoding -/

/-- R54, R55, R62: decoding the words of a command gives the command back, with every operand. -/
def Obligations.DecodeInvertsEncode : Prop :=
  ∀ i : Instr, decode (encodeCmd i) (encodeData i) = i

/-- R59, R53: every CMD word is the word of the command it decodes to: one encoding each, no bit lost;
DATA matters to LDFREQ alone. -/
def Obligations.EncodeInvertsDecode : Prop :=
  ∀ (cmd : CmdWord) (data : Nat), encodeCmd (decode cmd data) = cmd ∧
    (cmdOpc cmd = 0x2 → encodeData (decode cmd data) = data) ∧
    (cmdOpc cmd ≠ 0x2 → ∀ data', decode cmd data' = decode cmd data)

/-- R56 to R58, R67: the commands that are legal are those of the table: the prologue finds no cause
exactly for the well-formed ones, COUNT aside. -/
def Obligations.LegalCommandsAreWellFormed : Prop :=
  ∀ (w : Nat) (i : Instr), i.WellFormed w = true ↔ illegalCause i = none ∧
    ∀ rsv sym count, i = .ldfreq rsv sym count → count < 2 ^ w

/-- R55: words written out from the opcode map. -/
def Obligations.DecodedWords : Prop :=
  decode 0x20000041 3 = .ldfreq 0 65 3 ∧ decode 0x30000100 0 = .rdfreq 0 256 ∧
  decode 0x40000000 0 = .build 0 ∧ decode 0x60000000 0 = .wrhdr 0 ∧ decode 0xA0000000 0 = .decode 0 ∧
  decode 0xB0000063 0 = .rdcode 0 99 ∧ decode 0xEFFFFFFF 0 = .clrerr 0xFFFFFFF
end

