-- ==== Sys2Proof/Laws/Bits.lean ====
section
/-! SUPPORT. The two readings of a bit string, `bin` and `val`, are inverse (spec/00_scope.md rule R9). -/
namespace Sys2Proof.Machine

@[simp] theorem bin_length (n v : Nat) : (bin n v).length = n := by
  induction n with
  | zero => rfl
  | succ n ih => simp [bin, ih]

theorem valFrom_eq (s : Bits) (acc : Nat) : valFrom acc s = acc * 2 ^ s.length + val s := by
  induction s generalizing acc with
  | nil => simp [valFrom, val]
  | cons b s ih =>
    have h0 := ih (2 * acc + b.toNat)
    have h1 := ih (2 * 0 + b.toNat)
    simp only [valFrom, val, List.length_cons, pow_succ] at *
    rw [h0, h1]; ring

@[simp] theorem val_nil : val [] = 0 := rfl

theorem val_cons (b : Bool) (s : Bits) : val (b :: s) = b.toNat * 2 ^ s.length + val s := by
  rw [val, valFrom, valFrom_eq]; simp

theorem val_append (s t : Bits) : val (s ++ t) = val s * 2 ^ t.length + val t := by
  induction s with
  | nil => simp
  | cons b s ih => simp [val_cons, ih, pow_add]; ring

theorem val_lt (s : Bits) : val s < 2 ^ s.length := by
  induction s with
  | nil => simp
  | cons b s ih =>
    rw [val_cons, List.length_cons, pow_succ]
    cases b <;> simp <;> omega

theorem val_bin (n v : Nat) : val (bin n v) = v % 2 ^ n := by
  induction n with
  | zero => simp [bin, Nat.mod_one]
  | succ n ih =>
    rw [bin, val_cons, bin_length, ih, Nat.toNat_testBit, pow_succ, Nat.mod_mul]
    ring

theorem val_bin_of_lt {n v : Nat} (h : v < 2 ^ n) : val (bin n v) = v := by
  rw [val_bin, Nat.mod_eq_of_lt h]

theorem bin_val (s : Bits) : bin s.length (val s) = s := by
  induction s with
  | nil => rfl
  | cons b s ih =>
    have hlt := val_lt s
    rw [List.length_cons, bin, val_cons]
    congr 1
    · rw [Nat.testBit_eq_decide_div_mod_eq]
      have : (b.toNat * 2 ^ s.length + val s) / 2 ^ s.length = b.toNat := by
        rw [Nat.mul_comm, Nat.mul_add_div (by positivity), Nat.div_eq_of_lt hlt, Nat.add_zero]
      rw [this]; cases b <;> rfl
    · have hb : ∀ (n a c : Nat), bin n (a * 2 ^ n + c) = bin n c := by
        intro n
        induction n with
        | zero => intros; rfl
        | succ n ihn =>
          intro a c
          rw [bin, bin]
          congr 1
          · rw [Nat.testBit_eq_decide_div_mod_eq, Nat.testBit_eq_decide_div_mod_eq]
            have : (a * 2 ^ (n + 1) + c) / 2 ^ n = 2 * a + c / 2 ^ n := by
              rw [pow_succ, show a * (2 ^ n * 2) = 2 ^ n * (2 * a) by ring, Nat.mul_add_div (by positivity)]
            rw [this]
            have e : (2 * a + c / 2 ^ n) % 2 = c / 2 ^ n % 2 := by omega
            rw [e]
          · rw [pow_succ, show a * (2 ^ n * 2) = (2 * a) * 2 ^ n by ring]; exact ihn _ _
      rw [hb, ih]

theorem bin_injective {n v w : Nat} (hv : v < 2 ^ n) (hw : w < 2 ^ n) (h : bin n v = bin n w) : v = w := by
  rw [← val_bin_of_lt hv, ← val_bin_of_lt hw, h]
end Sys2Proof.Machine
end

