-- ==== Sys2Proof/Laws/State.lean ====
section
/-! SUPPORT. What each one-field update of State does to each field: the updated field holds the new
value, every other field its old one. Reads of a table after a write. -/

namespace Sys2Proof.Machine

/-! ### Tables -/

@[simp] theorem Table.get_set {α : Type} {n : Nat} (t : Table α n) (i j : Fin n) (a : α) :
    (t.set i a).get j = if i = j then a else t.get j := by
  simp [Table.get, Table.set, List.getElem_set, Fin.ext_iff]

@[simp] theorem Table.get_fill {α : Type} {n : Nat} (a : α) (i : Fin n) : (Table.fill n a).get i = a := by
  simp [Table.get, Table.fill]

@[ext] theorem Table.ext_get {α : Type} {n : Nat} {t u : Table α n} (h : ∀ i, t.get i = u.get i) :
    t = u := by
  rcases t with ⟨a, ha⟩
  rcases u with ⟨b, hb⟩
  have : a = b := List.ext_getElem (by omega) (fun i h1 _ => h ⟨i, by omega⟩)
  subst this; rfl

theorem Table.mem_set {α : Type} {n : Nat} {t : Table α n} {i : Fin n} {a x : α}
    (h : x ∈ (t.set i a).entries) : x ∈ t.entries ∨ x = a :=
  List.mem_or_eq_of_mem_set h

theorem Table.get_mem {α : Type} {n : Nat} (t : Table α n) (i : Fin n) : t.get i ∈ t.entries :=
  List.getElem_mem _

/-! ### setStatus -/

@[simp] theorem setStatus_wCount (s : State) (x : Status) : (s.setStatus x).wCount = s.wCount := rfl
@[simp] theorem setStatus_status (s : State) (x : Status) : (s.setStatus x).status = x := rfl
@[simp] theorem setStatus_freq (s : State) (x : Status) : (s.setStatus x).freq = s.freq := rfl
@[simp] theorem setStatus_tree (s : State) (x : Status) : (s.setStatus x).tree = s.tree := rfl
@[simp] theorem setStatus_code (s : State) (x : Status) : (s.setStatus x).code = s.code := rfl
@[simp] theorem setStatus_result (s : State) (x : Status) : (s.setStatus x).result = s.result := rfl
@[simp] theorem setStatus_latch (s : State) (x : Status) : (s.setStatus x).latch = s.latch := rfl
@[simp] theorem setStatus_work (s : State) (x : Status) : (s.setStatus x).work = s.work := rfl
@[simp] theorem setStatus_outstanding (s : State) (x : Status) : (s.setStatus x).outstanding = s.outstanding := rfl
@[simp] theorem setStatus_inp (s : State) (x : Status) : (s.setStatus x).inp = s.inp := rfl
@[simp] theorem setStatus_inPos (s : State) (x : Status) : (s.setStatus x).inPos = s.inPos := rfl
@[simp] theorem setStatus_out (s : State) (x : Status) : (s.setStatus x).out = s.out := rfl
@[simp] theorem setStatus_calls (s : State) (x : Status) : (s.setStatus x).calls = s.calls := rfl
@[simp] theorem setStatus_answers (s : State) (x : Status) : (s.setStatus x).answers = s.answers := rfl
@[simp] theorem setStatus_port (s : State) (x : Status) : (s.setStatus x).port = s.port := rfl
@[simp] theorem setStatus_resetPin (s : State) (x : Status) : (s.setStatus x).resetPin = s.resetPin := rfl
@[simp] theorem setStatus_waits (s : State) (x : Status) : (s.setStatus x).waits = s.waits := rfl

/-! ### setFreq -/

@[simp] theorem setFreq_wCount (s : State) (x : Table Nat 256) : (s.setFreq x).wCount = s.wCount := rfl
@[simp] theorem setFreq_status (s : State) (x : Table Nat 256) : (s.setFreq x).status = s.status := rfl
@[simp] theorem setFreq_freq (s : State) (x : Table Nat 256) : (s.setFreq x).freq = x := rfl
@[simp] theorem setFreq_tree (s : State) (x : Table Nat 256) : (s.setFreq x).tree = s.tree := rfl
@[simp] theorem setFreq_code (s : State) (x : Table Nat 256) : (s.setFreq x).code = s.code := rfl
@[simp] theorem setFreq_result (s : State) (x : Table Nat 256) : (s.setFreq x).result = s.result := rfl
@[simp] theorem setFreq_latch (s : State) (x : Table Nat 256) : (s.setFreq x).latch = s.latch := rfl
@[simp] theorem setFreq_work (s : State) (x : Table Nat 256) : (s.setFreq x).work = s.work := rfl
@[simp] theorem setFreq_outstanding (s : State) (x : Table Nat 256) : (s.setFreq x).outstanding = s.outstanding := rfl
@[simp] theorem setFreq_inp (s : State) (x : Table Nat 256) : (s.setFreq x).inp = s.inp := rfl
@[simp] theorem setFreq_inPos (s : State) (x : Table Nat 256) : (s.setFreq x).inPos = s.inPos := rfl
@[simp] theorem setFreq_out (s : State) (x : Table Nat 256) : (s.setFreq x).out = s.out := rfl
@[simp] theorem setFreq_calls (s : State) (x : Table Nat 256) : (s.setFreq x).calls = s.calls := rfl
@[simp] theorem setFreq_answers (s : State) (x : Table Nat 256) : (s.setFreq x).answers = s.answers := rfl
@[simp] theorem setFreq_port (s : State) (x : Table Nat 256) : (s.setFreq x).port = s.port := rfl
@[simp] theorem setFreq_resetPin (s : State) (x : Table Nat 256) : (s.setFreq x).resetPin = s.resetPin := rfl
@[simp] theorem setFreq_waits (s : State) (x : Table Nat 256) : (s.setFreq x).waits = s.waits := rfl

/-! ### setTree -/

@[simp] theorem setTree_wCount (s : State) (x : Option HuffTree) : (s.setTree x).wCount = s.wCount := rfl
@[simp] theorem setTree_status (s : State) (x : Option HuffTree) : (s.setTree x).status = s.status := rfl
@[simp] theorem setTree_freq (s : State) (x : Option HuffTree) : (s.setTree x).freq = s.freq := rfl
@[simp] theorem setTree_tree (s : State) (x : Option HuffTree) : (s.setTree x).tree = x := rfl
@[simp] theorem setTree_code (s : State) (x : Option HuffTree) : (s.setTree x).code = s.code := rfl
@[simp] theorem setTree_result (s : State) (x : Option HuffTree) : (s.setTree x).result = s.result := rfl
@[simp] theorem setTree_latch (s : State) (x : Option HuffTree) : (s.setTree x).latch = s.latch := rfl
@[simp] theorem setTree_work (s : State) (x : Option HuffTree) : (s.setTree x).work = s.work := rfl
@[simp] theorem setTree_outstanding (s : State) (x : Option HuffTree) : (s.setTree x).outstanding = s.outstanding := rfl
@[simp] theorem setTree_inp (s : State) (x : Option HuffTree) : (s.setTree x).inp = s.inp := rfl
@[simp] theorem setTree_inPos (s : State) (x : Option HuffTree) : (s.setTree x).inPos = s.inPos := rfl
@[simp] theorem setTree_out (s : State) (x : Option HuffTree) : (s.setTree x).out = s.out := rfl
@[simp] theorem setTree_calls (s : State) (x : Option HuffTree) : (s.setTree x).calls = s.calls := rfl
@[simp] theorem setTree_answers (s : State) (x : Option HuffTree) : (s.setTree x).answers = s.answers := rfl
@[simp] theorem setTree_port (s : State) (x : Option HuffTree) : (s.setTree x).port = s.port := rfl
@[simp] theorem setTree_resetPin (s : State) (x : Option HuffTree) : (s.setTree x).resetPin = s.resetPin := rfl
@[simp] theorem setTree_waits (s : State) (x : Option HuffTree) : (s.setTree x).waits = s.waits := rfl

/-! ### setCode -/

@[simp] theorem setCode_wCount (s : State) (x : Option (Table (Option Bits) 257)) : (s.setCode x).wCount = s.wCount := rfl
@[simp] theorem setCode_status (s : State) (x : Option (Table (Option Bits) 257)) : (s.setCode x).status = s.status := rfl
@[simp] theorem setCode_freq (s : State) (x : Option (Table (Option Bits) 257)) : (s.setCode x).freq = s.freq := rfl
@[simp] theorem setCode_tree (s : State) (x : Option (Table (Option Bits) 257)) : (s.setCode x).tree = s.tree := rfl
@[simp] theorem setCode_code (s : State) (x : Option (Table (Option Bits) 257)) : (s.setCode x).code = x := rfl
@[simp] theorem setCode_result (s : State) (x : Option (Table (Option Bits) 257)) : (s.setCode x).result = s.result := rfl
@[simp] theorem setCode_latch (s : State) (x : Option (Table (Option Bits) 257)) : (s.setCode x).latch = s.latch := rfl
@[simp] theorem setCode_work (s : State) (x : Option (Table (Option Bits) 257)) : (s.setCode x).work = s.work := rfl
@[simp] theorem setCode_outstanding (s : State) (x : Option (Table (Option Bits) 257)) : (s.setCode x).outstanding = s.outstanding := rfl
@[simp] theorem setCode_inp (s : State) (x : Option (Table (Option Bits) 257)) : (s.setCode x).inp = s.inp := rfl
@[simp] theorem setCode_inPos (s : State) (x : Option (Table (Option Bits) 257)) : (s.setCode x).inPos = s.inPos := rfl
@[simp] theorem setCode_out (s : State) (x : Option (Table (Option Bits) 257)) : (s.setCode x).out = s.out := rfl
@[simp] theorem setCode_calls (s : State) (x : Option (Table (Option Bits) 257)) : (s.setCode x).calls = s.calls := rfl
@[simp] theorem setCode_answers (s : State) (x : Option (Table (Option Bits) 257)) : (s.setCode x).answers = s.answers := rfl
@[simp] theorem setCode_port (s : State) (x : Option (Table (Option Bits) 257)) : (s.setCode x).port = s.port := rfl
@[simp] theorem setCode_resetPin (s : State) (x : Option (Table (Option Bits) 257)) : (s.setCode x).resetPin = s.resetPin := rfl
@[simp] theorem setCode_waits (s : State) (x : Option (Table (Option Bits) 257)) : (s.setCode x).waits = s.waits := rfl

/-! ### setResult -/

@[simp] theorem setResult_wCount (s : State) (x : Result) : (s.setResult x).wCount = s.wCount := rfl
@[simp] theorem setResult_status (s : State) (x : Result) : (s.setResult x).status = s.status := rfl
@[simp] theorem setResult_freq (s : State) (x : Result) : (s.setResult x).freq = s.freq := rfl
@[simp] theorem setResult_tree (s : State) (x : Result) : (s.setResult x).tree = s.tree := rfl
@[simp] theorem setResult_code (s : State) (x : Result) : (s.setResult x).code = s.code := rfl
@[simp] theorem setResult_result (s : State) (x : Result) : (s.setResult x).result = x := rfl
@[simp] theorem setResult_latch (s : State) (x : Result) : (s.setResult x).latch = s.latch := rfl
@[simp] theorem setResult_work (s : State) (x : Result) : (s.setResult x).work = s.work := rfl
@[simp] theorem setResult_outstanding (s : State) (x : Result) : (s.setResult x).outstanding = s.outstanding := rfl
@[simp] theorem setResult_inp (s : State) (x : Result) : (s.setResult x).inp = s.inp := rfl
@[simp] theorem setResult_inPos (s : State) (x : Result) : (s.setResult x).inPos = s.inPos := rfl
@[simp] theorem setResult_out (s : State) (x : Result) : (s.setResult x).out = s.out := rfl
@[simp] theorem setResult_calls (s : State) (x : Result) : (s.setResult x).calls = s.calls := rfl
@[simp] theorem setResult_answers (s : State) (x : Result) : (s.setResult x).answers = s.answers := rfl
@[simp] theorem setResult_port (s : State) (x : Result) : (s.setResult x).port = s.port := rfl
@[simp] theorem setResult_resetPin (s : State) (x : Result) : (s.setResult x).resetPin = s.resetPin := rfl
@[simp] theorem setResult_waits (s : State) (x : Result) : (s.setResult x).waits = s.waits := rfl

/-! ### setLatch -/

@[simp] theorem setLatch_wCount (s : State) (x : Option Latch) : (s.setLatch x).wCount = s.wCount := rfl
@[simp] theorem setLatch_status (s : State) (x : Option Latch) : (s.setLatch x).status = s.status := rfl
@[simp] theorem setLatch_freq (s : State) (x : Option Latch) : (s.setLatch x).freq = s.freq := rfl
@[simp] theorem setLatch_tree (s : State) (x : Option Latch) : (s.setLatch x).tree = s.tree := rfl
@[simp] theorem setLatch_code (s : State) (x : Option Latch) : (s.setLatch x).code = s.code := rfl
@[simp] theorem setLatch_result (s : State) (x : Option Latch) : (s.setLatch x).result = s.result := rfl
@[simp] theorem setLatch_latch (s : State) (x : Option Latch) : (s.setLatch x).latch = x := rfl
@[simp] theorem setLatch_work (s : State) (x : Option Latch) : (s.setLatch x).work = s.work := rfl
@[simp] theorem setLatch_outstanding (s : State) (x : Option Latch) : (s.setLatch x).outstanding = s.outstanding := rfl
@[simp] theorem setLatch_inp (s : State) (x : Option Latch) : (s.setLatch x).inp = s.inp := rfl
@[simp] theorem setLatch_inPos (s : State) (x : Option Latch) : (s.setLatch x).inPos = s.inPos := rfl
@[simp] theorem setLatch_out (s : State) (x : Option Latch) : (s.setLatch x).out = s.out := rfl
@[simp] theorem setLatch_calls (s : State) (x : Option Latch) : (s.setLatch x).calls = s.calls := rfl
@[simp] theorem setLatch_answers (s : State) (x : Option Latch) : (s.setLatch x).answers = s.answers := rfl
@[simp] theorem setLatch_port (s : State) (x : Option Latch) : (s.setLatch x).port = s.port := rfl
@[simp] theorem setLatch_resetPin (s : State) (x : Option Latch) : (s.setLatch x).resetPin = s.resetPin := rfl
@[simp] theorem setLatch_waits (s : State) (x : Option Latch) : (s.setLatch x).waits = s.waits := rfl

/-! ### setWork -/

@[simp] theorem setWork_wCount (s : State) (x : Option Work) : (s.setWork x).wCount = s.wCount := rfl
@[simp] theorem setWork_status (s : State) (x : Option Work) : (s.setWork x).status = s.status := rfl
@[simp] theorem setWork_freq (s : State) (x : Option Work) : (s.setWork x).freq = s.freq := rfl
@[simp] theorem setWork_tree (s : State) (x : Option Work) : (s.setWork x).tree = s.tree := rfl
@[simp] theorem setWork_code (s : State) (x : Option Work) : (s.setWork x).code = s.code := rfl
@[simp] theorem setWork_result (s : State) (x : Option Work) : (s.setWork x).result = s.result := rfl
@[simp] theorem setWork_latch (s : State) (x : Option Work) : (s.setWork x).latch = s.latch := rfl
@[simp] theorem setWork_work (s : State) (x : Option Work) : (s.setWork x).work = x := rfl
@[simp] theorem setWork_outstanding (s : State) (x : Option Work) : (s.setWork x).outstanding = s.outstanding := rfl
@[simp] theorem setWork_inp (s : State) (x : Option Work) : (s.setWork x).inp = s.inp := rfl
@[simp] theorem setWork_inPos (s : State) (x : Option Work) : (s.setWork x).inPos = s.inPos := rfl
@[simp] theorem setWork_out (s : State) (x : Option Work) : (s.setWork x).out = s.out := rfl
@[simp] theorem setWork_calls (s : State) (x : Option Work) : (s.setWork x).calls = s.calls := rfl
@[simp] theorem setWork_answers (s : State) (x : Option Work) : (s.setWork x).answers = s.answers := rfl
@[simp] theorem setWork_port (s : State) (x : Option Work) : (s.setWork x).port = s.port := rfl
@[simp] theorem setWork_resetPin (s : State) (x : Option Work) : (s.setWork x).resetPin = s.resetPin := rfl
@[simp] theorem setWork_waits (s : State) (x : Option Work) : (s.setWork x).waits = s.waits := rfl

/-! ### setOutstanding -/

@[simp] theorem setOutstanding_wCount (s : State) (x : Option Call) : (s.setOutstanding x).wCount = s.wCount := rfl
@[simp] theorem setOutstanding_status (s : State) (x : Option Call) : (s.setOutstanding x).status = s.status := rfl
@[simp] theorem setOutstanding_freq (s : State) (x : Option Call) : (s.setOutstanding x).freq = s.freq := rfl
@[simp] theorem setOutstanding_tree (s : State) (x : Option Call) : (s.setOutstanding x).tree = s.tree := rfl
@[simp] theorem setOutstanding_code (s : State) (x : Option Call) : (s.setOutstanding x).code = s.code := rfl
@[simp] theorem setOutstanding_result (s : State) (x : Option Call) : (s.setOutstanding x).result = s.result := rfl
@[simp] theorem setOutstanding_latch (s : State) (x : Option Call) : (s.setOutstanding x).latch = s.latch := rfl
@[simp] theorem setOutstanding_work (s : State) (x : Option Call) : (s.setOutstanding x).work = s.work := rfl
@[simp] theorem setOutstanding_outstanding (s : State) (x : Option Call) : (s.setOutstanding x).outstanding = x := rfl
@[simp] theorem setOutstanding_inp (s : State) (x : Option Call) : (s.setOutstanding x).inp = s.inp := rfl
@[simp] theorem setOutstanding_inPos (s : State) (x : Option Call) : (s.setOutstanding x).inPos = s.inPos := rfl
@[simp] theorem setOutstanding_out (s : State) (x : Option Call) : (s.setOutstanding x).out = s.out := rfl
@[simp] theorem setOutstanding_calls (s : State) (x : Option Call) : (s.setOutstanding x).calls = s.calls := rfl
@[simp] theorem setOutstanding_answers (s : State) (x : Option Call) : (s.setOutstanding x).answers = s.answers := rfl
@[simp] theorem setOutstanding_port (s : State) (x : Option Call) : (s.setOutstanding x).port = s.port := rfl
@[simp] theorem setOutstanding_resetPin (s : State) (x : Option Call) : (s.setOutstanding x).resetPin = s.resetPin := rfl
@[simp] theorem setOutstanding_waits (s : State) (x : Option Call) : (s.setOutstanding x).waits = s.waits := rfl

/-! ### setInp -/

@[simp] theorem setInp_wCount (s : State) (x : Bits) : (s.setInp x).wCount = s.wCount := rfl
@[simp] theorem setInp_status (s : State) (x : Bits) : (s.setInp x).status = s.status := rfl
@[simp] theorem setInp_freq (s : State) (x : Bits) : (s.setInp x).freq = s.freq := rfl
@[simp] theorem setInp_tree (s : State) (x : Bits) : (s.setInp x).tree = s.tree := rfl
@[simp] theorem setInp_code (s : State) (x : Bits) : (s.setInp x).code = s.code := rfl
@[simp] theorem setInp_result (s : State) (x : Bits) : (s.setInp x).result = s.result := rfl
@[simp] theorem setInp_latch (s : State) (x : Bits) : (s.setInp x).latch = s.latch := rfl
@[simp] theorem setInp_work (s : State) (x : Bits) : (s.setInp x).work = s.work := rfl
@[simp] theorem setInp_outstanding (s : State) (x : Bits) : (s.setInp x).outstanding = s.outstanding := rfl
@[simp] theorem setInp_inp (s : State) (x : Bits) : (s.setInp x).inp = x := rfl
@[simp] theorem setInp_inPos (s : State) (x : Bits) : (s.setInp x).inPos = s.inPos := rfl
@[simp] theorem setInp_out (s : State) (x : Bits) : (s.setInp x).out = s.out := rfl
@[simp] theorem setInp_calls (s : State) (x : Bits) : (s.setInp x).calls = s.calls := rfl
@[simp] theorem setInp_answers (s : State) (x : Bits) : (s.setInp x).answers = s.answers := rfl
@[simp] theorem setInp_port (s : State) (x : Bits) : (s.setInp x).port = s.port := rfl
@[simp] theorem setInp_resetPin (s : State) (x : Bits) : (s.setInp x).resetPin = s.resetPin := rfl
@[simp] theorem setInp_waits (s : State) (x : Bits) : (s.setInp x).waits = s.waits := rfl

/-! ### setInPos -/

@[simp] theorem setInPos_wCount (s : State) (x : Nat) : (s.setInPos x).wCount = s.wCount := rfl
@[simp] theorem setInPos_status (s : State) (x : Nat) : (s.setInPos x).status = s.status := rfl
@[simp] theorem setInPos_freq (s : State) (x : Nat) : (s.setInPos x).freq = s.freq := rfl
@[simp] theorem setInPos_tree (s : State) (x : Nat) : (s.setInPos x).tree = s.tree := rfl
@[simp] theorem setInPos_code (s : State) (x : Nat) : (s.setInPos x).code = s.code := rfl
@[simp] theorem setInPos_result (s : State) (x : Nat) : (s.setInPos x).result = s.result := rfl
@[simp] theorem setInPos_latch (s : State) (x : Nat) : (s.setInPos x).latch = s.latch := rfl
@[simp] theorem setInPos_work (s : State) (x : Nat) : (s.setInPos x).work = s.work := rfl
@[simp] theorem setInPos_outstanding (s : State) (x : Nat) : (s.setInPos x).outstanding = s.outstanding := rfl
@[simp] theorem setInPos_inp (s : State) (x : Nat) : (s.setInPos x).inp = s.inp := rfl
@[simp] theorem setInPos_inPos (s : State) (x : Nat) : (s.setInPos x).inPos = x := rfl
@[simp] theorem setInPos_out (s : State) (x : Nat) : (s.setInPos x).out = s.out := rfl
@[simp] theorem setInPos_calls (s : State) (x : Nat) : (s.setInPos x).calls = s.calls := rfl
@[simp] theorem setInPos_answers (s : State) (x : Nat) : (s.setInPos x).answers = s.answers := rfl
@[simp] theorem setInPos_port (s : State) (x : Nat) : (s.setInPos x).port = s.port := rfl
@[simp] theorem setInPos_resetPin (s : State) (x : Nat) : (s.setInPos x).resetPin = s.resetPin := rfl
@[simp] theorem setInPos_waits (s : State) (x : Nat) : (s.setInPos x).waits = s.waits := rfl

/-! ### setOut -/

@[simp] theorem setOut_wCount (s : State) (x : Bits) : (s.setOut x).wCount = s.wCount := rfl
@[simp] theorem setOut_status (s : State) (x : Bits) : (s.setOut x).status = s.status := rfl
@[simp] theorem setOut_freq (s : State) (x : Bits) : (s.setOut x).freq = s.freq := rfl
@[simp] theorem setOut_tree (s : State) (x : Bits) : (s.setOut x).tree = s.tree := rfl
@[simp] theorem setOut_code (s : State) (x : Bits) : (s.setOut x).code = s.code := rfl
@[simp] theorem setOut_result (s : State) (x : Bits) : (s.setOut x).result = s.result := rfl
@[simp] theorem setOut_latch (s : State) (x : Bits) : (s.setOut x).latch = s.latch := rfl
@[simp] theorem setOut_work (s : State) (x : Bits) : (s.setOut x).work = s.work := rfl
@[simp] theorem setOut_outstanding (s : State) (x : Bits) : (s.setOut x).outstanding = s.outstanding := rfl
@[simp] theorem setOut_inp (s : State) (x : Bits) : (s.setOut x).inp = s.inp := rfl
@[simp] theorem setOut_inPos (s : State) (x : Bits) : (s.setOut x).inPos = s.inPos := rfl
@[simp] theorem setOut_out (s : State) (x : Bits) : (s.setOut x).out = x := rfl
@[simp] theorem setOut_calls (s : State) (x : Bits) : (s.setOut x).calls = s.calls := rfl
@[simp] theorem setOut_answers (s : State) (x : Bits) : (s.setOut x).answers = s.answers := rfl
@[simp] theorem setOut_port (s : State) (x : Bits) : (s.setOut x).port = s.port := rfl
@[simp] theorem setOut_resetPin (s : State) (x : Bits) : (s.setOut x).resetPin = s.resetPin := rfl
@[simp] theorem setOut_waits (s : State) (x : Bits) : (s.setOut x).waits = s.waits := rfl

/-! ### setCalls -/

@[simp] theorem setCalls_wCount (s : State) (x : List Call) : (s.setCalls x).wCount = s.wCount := rfl
@[simp] theorem setCalls_status (s : State) (x : List Call) : (s.setCalls x).status = s.status := rfl
@[simp] theorem setCalls_freq (s : State) (x : List Call) : (s.setCalls x).freq = s.freq := rfl
@[simp] theorem setCalls_tree (s : State) (x : List Call) : (s.setCalls x).tree = s.tree := rfl
@[simp] theorem setCalls_code (s : State) (x : List Call) : (s.setCalls x).code = s.code := rfl
@[simp] theorem setCalls_result (s : State) (x : List Call) : (s.setCalls x).result = s.result := rfl
@[simp] theorem setCalls_latch (s : State) (x : List Call) : (s.setCalls x).latch = s.latch := rfl
@[simp] theorem setCalls_work (s : State) (x : List Call) : (s.setCalls x).work = s.work := rfl
@[simp] theorem setCalls_outstanding (s : State) (x : List Call) : (s.setCalls x).outstanding = s.outstanding := rfl
@[simp] theorem setCalls_inp (s : State) (x : List Call) : (s.setCalls x).inp = s.inp := rfl
@[simp] theorem setCalls_inPos (s : State) (x : List Call) : (s.setCalls x).inPos = s.inPos := rfl
@[simp] theorem setCalls_out (s : State) (x : List Call) : (s.setCalls x).out = s.out := rfl
@[simp] theorem setCalls_calls (s : State) (x : List Call) : (s.setCalls x).calls = x := rfl
@[simp] theorem setCalls_answers (s : State) (x : List Call) : (s.setCalls x).answers = s.answers := rfl
@[simp] theorem setCalls_port (s : State) (x : List Call) : (s.setCalls x).port = s.port := rfl
@[simp] theorem setCalls_resetPin (s : State) (x : List Call) : (s.setCalls x).resetPin = s.resetPin := rfl
@[simp] theorem setCalls_waits (s : State) (x : List Call) : (s.setCalls x).waits = s.waits := rfl

/-! ### setAnswers -/

@[simp] theorem setAnswers_wCount (s : State) (x : List Answer) : (s.setAnswers x).wCount = s.wCount := rfl
@[simp] theorem setAnswers_status (s : State) (x : List Answer) : (s.setAnswers x).status = s.status := rfl
@[simp] theorem setAnswers_freq (s : State) (x : List Answer) : (s.setAnswers x).freq = s.freq := rfl
@[simp] theorem setAnswers_tree (s : State) (x : List Answer) : (s.setAnswers x).tree = s.tree := rfl
@[simp] theorem setAnswers_code (s : State) (x : List Answer) : (s.setAnswers x).code = s.code := rfl
@[simp] theorem setAnswers_result (s : State) (x : List Answer) : (s.setAnswers x).result = s.result := rfl
@[simp] theorem setAnswers_latch (s : State) (x : List Answer) : (s.setAnswers x).latch = s.latch := rfl
@[simp] theorem setAnswers_work (s : State) (x : List Answer) : (s.setAnswers x).work = s.work := rfl
@[simp] theorem setAnswers_outstanding (s : State) (x : List Answer) : (s.setAnswers x).outstanding = s.outstanding := rfl
@[simp] theorem setAnswers_inp (s : State) (x : List Answer) : (s.setAnswers x).inp = s.inp := rfl
@[simp] theorem setAnswers_inPos (s : State) (x : List Answer) : (s.setAnswers x).inPos = s.inPos := rfl
@[simp] theorem setAnswers_out (s : State) (x : List Answer) : (s.setAnswers x).out = s.out := rfl
@[simp] theorem setAnswers_calls (s : State) (x : List Answer) : (s.setAnswers x).calls = s.calls := rfl
@[simp] theorem setAnswers_answers (s : State) (x : List Answer) : (s.setAnswers x).answers = x := rfl
@[simp] theorem setAnswers_port (s : State) (x : List Answer) : (s.setAnswers x).port = s.port := rfl
@[simp] theorem setAnswers_resetPin (s : State) (x : List Answer) : (s.setAnswers x).resetPin = s.resetPin := rfl
@[simp] theorem setAnswers_waits (s : State) (x : List Answer) : (s.setAnswers x).waits = s.waits := rfl

/-! ### setPort -/

@[simp] theorem setPort_wCount (s : State) (x : List PortEvent) : (s.setPort x).wCount = s.wCount := rfl
@[simp] theorem setPort_status (s : State) (x : List PortEvent) : (s.setPort x).status = s.status := rfl
@[simp] theorem setPort_freq (s : State) (x : List PortEvent) : (s.setPort x).freq = s.freq := rfl
@[simp] theorem setPort_tree (s : State) (x : List PortEvent) : (s.setPort x).tree = s.tree := rfl
@[simp] theorem setPort_code (s : State) (x : List PortEvent) : (s.setPort x).code = s.code := rfl
@[simp] theorem setPort_result (s : State) (x : List PortEvent) : (s.setPort x).result = s.result := rfl
@[simp] theorem setPort_latch (s : State) (x : List PortEvent) : (s.setPort x).latch = s.latch := rfl
@[simp] theorem setPort_work (s : State) (x : List PortEvent) : (s.setPort x).work = s.work := rfl
@[simp] theorem setPort_outstanding (s : State) (x : List PortEvent) : (s.setPort x).outstanding = s.outstanding := rfl
@[simp] theorem setPort_inp (s : State) (x : List PortEvent) : (s.setPort x).inp = s.inp := rfl
@[simp] theorem setPort_inPos (s : State) (x : List PortEvent) : (s.setPort x).inPos = s.inPos := rfl
@[simp] theorem setPort_out (s : State) (x : List PortEvent) : (s.setPort x).out = s.out := rfl
@[simp] theorem setPort_calls (s : State) (x : List PortEvent) : (s.setPort x).calls = s.calls := rfl
@[simp] theorem setPort_answers (s : State) (x : List PortEvent) : (s.setPort x).answers = s.answers := rfl
@[simp] theorem setPort_port (s : State) (x : List PortEvent) : (s.setPort x).port = x := rfl
@[simp] theorem setPort_resetPin (s : State) (x : List PortEvent) : (s.setPort x).resetPin = s.resetPin := rfl
@[simp] theorem setPort_waits (s : State) (x : List PortEvent) : (s.setPort x).waits = s.waits := rfl

/-! ### setResetPin -/

@[simp] theorem setResetPin_wCount (s : State) (x : List ResetLevel) : (s.setResetPin x).wCount = s.wCount := rfl
@[simp] theorem setResetPin_status (s : State) (x : List ResetLevel) : (s.setResetPin x).status = s.status := rfl
@[simp] theorem setResetPin_freq (s : State) (x : List ResetLevel) : (s.setResetPin x).freq = s.freq := rfl
@[simp] theorem setResetPin_tree (s : State) (x : List ResetLevel) : (s.setResetPin x).tree = s.tree := rfl
@[simp] theorem setResetPin_code (s : State) (x : List ResetLevel) : (s.setResetPin x).code = s.code := rfl
@[simp] theorem setResetPin_result (s : State) (x : List ResetLevel) : (s.setResetPin x).result = s.result := rfl
@[simp] theorem setResetPin_latch (s : State) (x : List ResetLevel) : (s.setResetPin x).latch = s.latch := rfl
@[simp] theorem setResetPin_work (s : State) (x : List ResetLevel) : (s.setResetPin x).work = s.work := rfl
@[simp] theorem setResetPin_outstanding (s : State) (x : List ResetLevel) : (s.setResetPin x).outstanding = s.outstanding := rfl
@[simp] theorem setResetPin_inp (s : State) (x : List ResetLevel) : (s.setResetPin x).inp = s.inp := rfl
@[simp] theorem setResetPin_inPos (s : State) (x : List ResetLevel) : (s.setResetPin x).inPos = s.inPos := rfl
@[simp] theorem setResetPin_out (s : State) (x : List ResetLevel) : (s.setResetPin x).out = s.out := rfl
@[simp] theorem setResetPin_calls (s : State) (x : List ResetLevel) : (s.setResetPin x).calls = s.calls := rfl
@[simp] theorem setResetPin_answers (s : State) (x : List ResetLevel) : (s.setResetPin x).answers = s.answers := rfl
@[simp] theorem setResetPin_port (s : State) (x : List ResetLevel) : (s.setResetPin x).port = s.port := rfl
@[simp] theorem setResetPin_resetPin (s : State) (x : List ResetLevel) : (s.setResetPin x).resetPin = x := rfl
@[simp] theorem setResetPin_waits (s : State) (x : List ResetLevel) : (s.setResetPin x).waits = s.waits := rfl

/-! ### setWaits -/

@[simp] theorem setWaits_wCount (s : State) (x : Nat) : (s.setWaits x).wCount = s.wCount := rfl
@[simp] theorem setWaits_status (s : State) (x : Nat) : (s.setWaits x).status = s.status := rfl
@[simp] theorem setWaits_freq (s : State) (x : Nat) : (s.setWaits x).freq = s.freq := rfl
@[simp] theorem setWaits_tree (s : State) (x : Nat) : (s.setWaits x).tree = s.tree := rfl
@[simp] theorem setWaits_code (s : State) (x : Nat) : (s.setWaits x).code = s.code := rfl
@[simp] theorem setWaits_result (s : State) (x : Nat) : (s.setWaits x).result = s.result := rfl
@[simp] theorem setWaits_latch (s : State) (x : Nat) : (s.setWaits x).latch = s.latch := rfl
@[simp] theorem setWaits_work (s : State) (x : Nat) : (s.setWaits x).work = s.work := rfl
@[simp] theorem setWaits_outstanding (s : State) (x : Nat) : (s.setWaits x).outstanding = s.outstanding := rfl
@[simp] theorem setWaits_inp (s : State) (x : Nat) : (s.setWaits x).inp = s.inp := rfl
@[simp] theorem setWaits_inPos (s : State) (x : Nat) : (s.setWaits x).inPos = s.inPos := rfl
@[simp] theorem setWaits_out (s : State) (x : Nat) : (s.setWaits x).out = s.out := rfl
@[simp] theorem setWaits_calls (s : State) (x : Nat) : (s.setWaits x).calls = s.calls := rfl
@[simp] theorem setWaits_answers (s : State) (x : Nat) : (s.setWaits x).answers = s.answers := rfl
@[simp] theorem setWaits_port (s : State) (x : Nat) : (s.setWaits x).port = s.port := rfl
@[simp] theorem setWaits_resetPin (s : State) (x : Nat) : (s.setWaits x).resetPin = s.resetPin := rfl
@[simp] theorem setWaits_waits (s : State) (x : Nat) : (s.setWaits x).waits = x := rfl

end Sys2Proof.Machine
end

