-- ==== Sys2Proof/Laws/Collab.lean ====
section
/-! SUPPORT. What a call does when it is answered at once, or fails (spec/20_memory.md rules R42 to R45), and
how stream work adds up. -/

namespace Sys2Proof.Machine

/-- The next `n` answers answer their calls at once and fail none. -/
abbrev State.PromptFor (s : State) (n : Nat) : Prop := ∀ a ∈ s.answers.take n, a.isOk = true

theorem State.Prompt.promptFor {s : State} (h : s.Prompt) (n : Nat) : s.PromptFor n :=
  fun a ha => h a (List.mem_of_mem_take ha)

theorem State.PromptFor.of_append {s : State} {before after : List Answer} (h : s.answers = before ++ after)
    (hb : ∀ a ∈ before, a.isOk = true) : s.PromptFor before.length := by
  rw [State.PromptFor, h, List.take_left]; exact hb

theorem State.PromptFor.mono {s : State} {m n : Nat} (h : s.PromptFor n) (hm : m ≤ n) : s.PromptFor m :=
  fun a ha => h a ((List.take_prefix_take_left hm).subset ha)

theorem State.PromptFor.nextAnswer {s : State} (h : s.PromptFor 1) : s.nextAnswer.isOk = true := by
  unfold State.nextAnswer
  cases ha : s.answers with
  | nil => rfl
  | cons a r => exact h a (by simp [ha])

/-- The calls `cs` use up the first answers. -/
theorem State.PromptFor.streamed {s : State} {k : Nat} {cs : List Call} (h : s.PromptFor (cs.length + k))
    (n : Nat) (b : Bits) : (s.streamed n b cs).PromptFor k := by
  intro a ha
  refine h a (List.mem_of_mem_drop (i := cs.length) ?_)
  rw [List.drop_take, Nat.add_sub_cancel_left]; exact ha

theorem State.Prompt.streamed {s : State} (h : s.Prompt) (n : Nat) (b : Bits) (cs : List Call) :
    (s.streamed n b cs).Prompt := fun a ha => h a (List.mem_of_mem_drop ha)

@[simp] theorem streamed_rest (s : State) (n : Nat) (b : Bits) (cs : List Call) :
    (s.streamed n b cs).rest = s.rest.drop n := by
  simp [State.streamed, State.rest, List.drop_drop]

@[simp] theorem streamed_remaining (s : State) (n : Nat) (b : Bits) (cs : List Call) :
    (s.streamed n b cs).remaining = s.remaining - n := by
  simp [State.streamed, State.remaining]; omega

theorem rest_length (s : State) : s.rest.length = s.remaining := by
  simp [State.rest, State.remaining]

theorem streamed_zero (s : State) : s.streamed 0 [] [] = s := by
  simp [State.streamed]

theorem streamed_streamed (s : State) (n m : Nat) (b d : Bits) (cs ds : List Call) :
    (s.streamed n b cs).streamed m d ds = s.streamed (n + m) (b ++ d) (cs ++ ds) := by
  simp only [State.streamed, List.append_assoc, List.drop_drop, List.length_append]
  congr 1; omega

/-- The answer to the call after the calls `cs`, each of which uses up one answer. -/
theorem nextAnswer_streamed {s : State} {before after : List Answer} {a : Answer} {cs : List Call}
    (h : s.answers = before ++ a :: after) (hl : cs.length = before.length) (n : Nat) (b : Bits) :
    (s.streamed n b cs).nextAnswer = a := by
  simp [State.streamed, State.nextAnswer, h, hl]

theorem callCollab_prompt {s : State} (c : Call) (h : s.PromptFor 1) :
    ∃ a, a.isOk = true ∧ callCollab c s = .ok (okEffect c a (s.issue c).closeCall) := by
  have h1 := h.nextAnswer
  unfold callCollab
  cases ha : s.nextAnswer <;> simp_all [Answer.isOk]
  · exact ⟨_, rfl, rfl⟩
  · exact ⟨_, rfl, rfl⟩

theorem issue_closeCall {s : State} (c : Call) (h : s.outstanding = none) :
    (s.issue c).closeCall = s.streamed 0 [] [c] := by
  simp [State.issue, State.closeCall, State.popAnswer, State.setAnswers, State.setOutstanding,
    State.setCalls, State.streamed, h]

theorem outWrite_prompt {s : State} {n : Nat} (v : Nat) (hn : n ≠ 0) (hp : s.PromptFor 1)
    (ho : s.outstanding = none) :
    outWrite n v s = .ok (s.streamed 0 (bin n v) [.outWrite n v]) := by
  obtain ⟨a, -, h⟩ := callCollab_prompt (.outWrite n v) hp
  simp [outWrite, hn, h, issue_closeCall _ ho, okEffect, State.append, State.setOut, State.streamed]

theorem inRead_prompt {s : State} {n : Nat} (hp : s.PromptFor 1) (ho : s.outstanding = none)
    (hn : n ≤ s.remaining) :
    inRead n s = .data (val (s.rest.take n)) (s.streamed n [] [.inRead n]) := by
  obtain ⟨a, -, h⟩ := callCollab_prompt (.inRead n) hp
  have h2 : ¬ s.remaining < n := by omega
  have h3 : ¬ (s.streamed 0 [] [.inRead n]).remaining < n := by simpa using h2
  simp only [inRead, h, issue_closeCall _ ho, okEffect, if_neg h2, if_neg h3]
  simp [State.setInPos, State.streamed]

theorem inRead_eod_prompt {s : State} {n : Nat} (hp : s.PromptFor 1) (ho : s.outstanding = none)
    (hn : s.remaining < n) :
    inRead n s = .eod (s.streamed 0 [] [.inRead n]) := by
  obtain ⟨a, -, h⟩ := callCollab_prompt (.inRead n) hp
  have h3 : (s.streamed 0 [] [.inRead n]).remaining < n := by simpa using hn
  simp only [inRead, h, issue_closeCall _ ho, okEffect, if_pos hn, if_pos h3]

/-- A read that fails (R42). -/
theorem inRead_fail {s : State} {k : Nat} {left : Bits} (n : Nat) (h : s.nextAnswer = .fail k left)
    (ho : s.outstanding = none) :
    inRead n s = .fail { s.streamed 0 [] [.inRead n] with inPos := k } := by
  unfold inRead callCollab
  rw [h]
  simp only [issue_closeCall _ ho]
  rfl

/-- A write that fails (R44). -/
theorem outWrite_fail {s : State} {k : Nat} {left : Bits} {n : Nat} (v : Nat) (hn : n ≠ 0)
    (h : s.nextAnswer = .fail k left) (ho : s.outstanding = none) :
    outWrite n v s = .fail (s.streamed 0 ((bin n v).take k) [.outWrite n v]) := by
  unfold outWrite callCollab
  rw [if_neg hn, h]
  simp [issue_closeCall _ ho, failEffect, State.append, State.setOut, State.streamed]

/-- A flush answered OK (R45). -/
theorem outFlush_ok {s : State} (h : s.nextAnswer.isOk = true) (ho : s.outstanding = none) :
    outFlush s = .ok (s.streamed 0 (flushPad s.nextAnswer s.out.length) [.outFlush]) := by
  have key : ∀ a, okEffect .outFlush a (s.issue .outFlush).closeCall =
      s.streamed 0 (flushPad a s.out.length) [.outFlush] := by
    intro a
    rw [issue_closeCall _ ho]
    simp [okEffect, State.append, State.setOut, State.streamed]
  unfold outFlush callCollab
  cases ha : s.nextAnswer <;> rw [ha] at h <;> simp only [Answer.isOk, Bool.false_eq_true] at h <;>
    simp only [key]

/-- A flush that fails (R45, R122). -/
theorem outFlush_fail {s : State} {k : Nat} {left : Bits} (h : s.nextAnswer = .fail k left)
    (ho : s.outstanding = none) :
    outFlush s = .fail { s.streamed 0 [] [.outFlush] with out := left } := by
  unfold outFlush callCollab
  rw [h]
  simp only [issue_closeCall _ ho]
  rfl

/-- A read whose bits are the first `n` of what is left. -/
theorem inRead_bits {s : State} {b x : Bits} (hp : s.PromptFor 1) (ho : s.outstanding = none)
    (hr : s.rest = b ++ x) :
    inRead b.length s = .data (val b) (s.streamed b.length [] [.inRead b.length]) := by
  have : b.length ≤ s.remaining := by rw [← rest_length, hr]; simp
  rw [inRead_prompt hp ho this, hr]; simp

/-! ### What the collaborator changes -/

/-- An answered call moves IN forward or appends to OUT, and changes nothing else. -/
theorem okEffect_eq (c : Call) (a : Answer) (s : State) :
    ∃ n b, okEffect c a s = { s with inPos := s.inPos + n, out := s.out ++ b } ∧
      ((∃ k, c = .inRead k) → b = []) ∧ ((∀ k, c ≠ .inRead k) → n = 0) := by
  cases c with
  | inRead k =>
    by_cases h : s.remaining < k
    · exact ⟨0, [], by simp [okEffect, h], by simp, by simp⟩
    · exact ⟨k, [], by simp [okEffect, h, State.setInPos], by simp, by simp⟩
  | outWrite n v => exact ⟨0, bin n v, by simp [okEffect, State.append, State.setOut], by simp, by simp⟩
  | outFlush =>
    exact ⟨0, flushPad a s.out.length, by simp [okEffect, State.append, State.setOut], by simp, by simp⟩

/-- A failing call moves IN or changes OUT, and nothing else; but for a flush, OUT only grows. -/
theorem failEffect_eq (c : Call) (k : Nat) (left : Bits) (s : State) :
    ∃ pos out, failEffect c k left s = { s with inPos := pos, out := out } ∧
      (c ≠ .outFlush → s.out <+: out) ∧ ((∃ n, c = .inRead n) → out = s.out) ∧
      ((∀ n, c ≠ .inRead n) → pos = s.inPos) := by
  cases c with
  | inRead n => exact ⟨k, s.out, by simp [failEffect, State.setInPos], by simp, by simp, by simp⟩
  | outWrite n v =>
    exact ⟨s.inPos, s.out ++ (bin n v).take k, by simp [failEffect, State.append, State.setOut],
      by simp, by simp, by simp⟩
  | outFlush => exact ⟨s.inPos, left, by simp [failEffect, State.setOut], by simp, by simp, by simp⟩

/-- What holds of a state `t` after a call `c` made at `s`, however it was answered. -/
structure CallFrame (c : Call) (s t : State) : Prop where
  streams : StreamsOnly s t
  grows : c ≠ .outFlush → s.out <+: t.out
  readKeepsOut : (∃ n, c = .inRead n) → t.out = s.out
  writeKeepsIn : (∀ n, c ≠ .inRead n) → t.inPos = s.inPos
  callsGrow : t.calls = s.calls ∨ t.calls = s.calls ++ [c]

theorem issue_eq (s : State) (c : Call) :
    ∃ cs, s.issue c = { s with calls := cs } ∧ (cs = s.calls ∨ cs = s.calls ++ [c]) := by
  unfold State.issue
  split
  · exact ⟨s.calls, rfl, .inl rfl⟩
  · exact ⟨s.calls ++ [c], rfl, .inr rfl⟩

/-- Everything a call can do: it is answered (no call outstanding then), or waited for (and outstanding
then). -/
theorem callCollab_cases (c : Call) (s : State) :
    (∃ t, callCollab c s = .ok t ∧ CallFrame c s t ∧ t.outstanding = none ∧
      ∃ a, a.isOk = true ∧ t = okEffect c a (s.issue c).closeCall) ∨
    (∃ t, callCollab c s = .fail t ∧ CallFrame c s t ∧ t.outstanding = none) ∨
    (∃ t, callCollab c s = .wait t ∧ CallFrame c s t ∧ t.outstanding = some c ∧ t.inPos = s.inPos ∧
      t.out = s.out) := by
  obtain ⟨cs, hi, hcs⟩ := issue_eq s c
  have hclose : (s.issue c).closeCall =
      { s with calls := cs, answers := s.answers.tail, outstanding := none } := by
    simp [hi, State.closeCall, State.popAnswer, State.setAnswers, State.setOutstanding]
  have hok : ∀ a, CallFrame c s (okEffect c a (s.issue c).closeCall) ∧
      (okEffect c a (s.issue c).closeCall).outstanding = none := by
    intro a
    obtain ⟨n, b, h, hb, hn⟩ := okEffect_eq c a (s.issue c).closeCall
    rw [h, hclose]
    exact ⟨⟨rfl, by simp, fun h => by simp [hb h], fun h => by simp [hn h], hcs⟩, rfl⟩
  unfold callCollab
  cases s.nextAnswer with
  | ok => exact .inl ⟨_, rfl, (hok _).1, (hok _).2, _, rfl, rfl⟩
  | pad bits => exact .inl ⟨_, rfl, (hok _).1, (hok _).2, _, rfl, rfl⟩
  | fail k left =>
    obtain ⟨pos, out, h, h1, h2, h3⟩ := failEffect_eq c k left (s.issue c).closeCall
    refine .inr (.inl ⟨_, rfl, ?_, ?_⟩)
    · rw [hclose] at h1 h2 h3
      rw [h, hclose]
      exact ⟨rfl, h1, h2, h3, hcs⟩
    · rw [h, hclose]
  | later =>
    refine .inr (.inr ⟨_, rfl, ?_, rfl, ?_, ?_⟩) <;>
      rw [hi]
    · exact ⟨rfl, by simp [State.popAnswer, State.setAnswers, State.setOutstanding], fun _ => rfl, fun _ => rfl, hcs⟩
    · rfl
    · rfl
  | never =>
    refine .inr (.inr ⟨_, rfl, ?_, rfl, ?_, ?_⟩) <;>
      rw [hi]
    · exact ⟨rfl, by simp [State.setOutstanding], fun _ => rfl, fun _ => rfl, hcs⟩
    · rfl
    · rfl

/-- Everything `InRead(n)` can do. -/
theorem inRead_cases (n : Nat) (s : State) :
    (∃ t, inRead n s = .data (val (s.rest.take n)) t ∧ n ≤ s.remaining ∧ CallFrame (.inRead n) s t ∧
      t.outstanding = none ∧ t.inPos = s.inPos + n) ∨
    (∃ t, inRead n s = .eod t ∧ s.remaining < n ∧ CallFrame (.inRead n) s t ∧ t.outstanding = none ∧
      t.inPos = s.inPos) ∨
    (∃ t, inRead n s = .fail t ∧ CallFrame (.inRead n) s t ∧ t.outstanding = none) ∨
    (∃ t, inRead n s = .wait t ∧ CallFrame (.inRead n) s t ∧ t.outstanding = some (.inRead n) ∧
      t.inPos = s.inPos) := by
  obtain ⟨cs, hi, -⟩ := issue_eq s (.inRead n)
  rcases callCollab_cases (.inRead n) s with ⟨t, h, hf, ho, a, -, ht⟩ | ⟨t, h, hf, ho⟩ | ⟨t, h, hf, ho, hp, -⟩
  · have hrem : (s.issue (.inRead n)).closeCall.remaining = s.remaining := by rw [hi]; rfl
    have hpos : (s.issue (.inRead n)).closeCall.inPos = s.inPos := by rw [hi]; rfl
    by_cases hn : s.remaining < n
    · refine .inr (.inl ⟨t, by simp [inRead, h, hn], hn, hf, ho, ?_⟩)
      rw [ht, okEffect, hrem, if_pos hn, hpos]
    · refine .inl ⟨t, by simp [inRead, h, hn], by omega, hf, ho, ?_⟩
      rw [ht, okEffect, hrem, if_neg hn, setInPos_inPos, hpos]
  · exact .inr (.inr (.inl ⟨t, by simp [inRead, h], hf, ho⟩))
  · exact .inr (.inr (.inr ⟨t, by simp [inRead, h], hf, ho, hp⟩))

/-- Everything `OutWrite(n, v)` can do. -/
theorem outWrite_cases (n v : Nat) (s : State) :
    (n = 0 ∧ outWrite n v s = .ok s) ∨
    (n ≠ 0 ∧
      ((∃ t, outWrite n v s = .ok t ∧ CallFrame (.outWrite n v) s t ∧ t.outstanding = none ∧
          t.out = s.out ++ bin n v) ∨
        (∃ t k, outWrite n v s = .fail t ∧ CallFrame (.outWrite n v) s t ∧ t.outstanding = none ∧
          t.out = s.out ++ (bin n v).take k) ∨
        (∃ t, outWrite n v s = .wait t ∧ CallFrame (.outWrite n v) s t ∧
          t.outstanding = some (.outWrite n v) ∧ t.out = s.out))) := by
  by_cases hn : n = 0
  · exact .inl ⟨hn, by simp [outWrite, hn]⟩
  refine .inr ⟨hn, ?_⟩
  obtain ⟨cs, hi, -⟩ := issue_eq s (.outWrite n v)
  have hout : (s.issue (.outWrite n v)).closeCall.out = s.out := by rw [hi]; rfl
  have hw : outWrite n v s = callCollab (.outWrite n v) s := by simp [outWrite, hn]
  rw [hw]
  rcases callCollab_cases (.outWrite n v) s with ⟨t, h, hf, ho, a, -, ht⟩ | ⟨t, h, hf, ho⟩ | ⟨t, h, hf, ho, -, hp⟩
  · refine .inl ⟨t, h, hf, ho, ?_⟩
    rw [ht]; simp [okEffect, State.append, hout]
  · refine .inr (.inl ?_)
    unfold callCollab at h
    cases ha : s.nextAnswer <;> simp [ha] at h
    rename_i k left
    refine ⟨t, k, by rw [callCollab, ha]; simp [h], hf, ho, ?_⟩
    rw [← h]; simp [failEffect, State.append, hout]
  · exact .inr (.inr ⟨t, h, hf, ho, hp⟩)

end Sys2Proof.Machine
end

