-- ==== Sys2Proof/Laws/Engine.lean ====
section
/-! SUPPORT. What a run of the engine and a command can do, said once: the pieces of work it goes through,
its end, and the prologue's cases (spec/40_control.md rules R67, R75). -/

namespace Sys2Proof.Machine

/-! ### Runs of the engine -/

/-- `k` pieces of work lead from `p` to `q`. -/
inductive Steps : Nat → Progress → Progress → Prop where
  | refl (p : Progress) : Steps 0 p p
  | step {k : Nat} {w : Work} {s : State} {q : Progress} (h : Steps k (engineStep w s) q) :
      Steps (k + 1) (.more w s) q

theorem Steps.trans {j k : Nat} {p q r : Progress} (h : Steps j p q) (h' : Steps k q r) :
    Steps (j + k) p r := by
  induction h with
  | refl => simpa using h'
  | step _ ih => rw [Nat.add_right_comm]; exact .step (ih h')

theorem Steps.one {w : Work} {s : State} {q : Progress} (h : engineStep w s = q) :
    Steps 1 (.more w s) q := h ▸ .step (.refl _)

theorem Steps.run {k m : Nat} {op : BitVec 4} {p q : Progress} (h : Steps k p q) :
    runEngine op (k + m) p = runEngine op m q := by
  induction h with
  | refl => simp
  | step _ ih => rw [Nat.add_right_comm, runEngine, ih]

@[simp] theorem runEngine_done (op : BitVec 4) (n : Nat) (s : State) :
    runEngine op n (.done s) = .next (endCommand s) := by cases n <;> rfl

@[simp] theorem runEngine_raised (op : BitVec 4) (n : Nat) (e : ErrKind) (sub : BitVec 3) (sym : BitVec 9)
    (s : State) : runEngine op n (.raised e sub sym s) = .next (raiseError op e sub sym s) := by
  cases n <;> rfl

@[simp] theorem runEngine_wait (op : BitVec 4) (n : Nat) (w : Work) (s : State) :
    runEngine op n (.wait w s) = .next (suspend w s) := by cases n <;> rfl

@[simp] theorem runEngine_stuck (op : BitVec 4) (n : Nat) (f : Fault) :
    runEngine op n (.stuck f) = .fault f := by cases n <;> rfl

theorem finish_of_steps {k : Nat} {op : BitVec 4} {p q : Progress} (h : Steps k p q) (hk : k ≤ p.bound) :
    finish op p = runEngine op (p.bound - k) q := by
  rw [finish, ← h.run (m := p.bound - k)]; congr 1; omega

theorem finish_done {k : Nat} {op : BitVec 4} {p : Progress} {s : State} (h : Steps k p (.done s))
    (hk : k ≤ p.bound) : finish op p = .next (endCommand s) := by
  rw [finish_of_steps h hk, runEngine_done]

theorem finish_raised {k : Nat} {op : BitVec 4} {p : Progress} {e : ErrKind} {sub : BitVec 3}
    {sym : BitVec 9} {s : State} (h : Steps k p (.raised e sub sym s)) (hk : k ≤ p.bound) :
    finish op p = .next (raiseError op e sub sym s) := by
  rw [finish_of_steps h hk, runEngine_raised]

/-- Where a run that answers a next state ends. -/
inductive Ended (op : BitVec 4) : Progress → State → Prop where
  | done (s : State) : Ended op (.done s) (endCommand s)
  | raised (e : ErrKind) (sub : BitVec 3) (sym : BitVec 9) (s : State) :
      Ended op (.raised e sub sym s) (raiseError op e sub sym s)
  | wait (w : Work) (s : State) : Ended op (.wait w s) (suspend w s)

/-- A run that answers a next state went through some pieces of work to its end. -/
theorem runEngine_next {op : BitVec 4} {n : Nat} {p : Progress} {u : State}
    (h : runEngine op n p = .next u) : ∃ k q, Steps k p q ∧ Ended op q u := by
  induction n generalizing p with
  | zero =>
    cases p <;> simp [runEngine] at h
    all_goals subst h; exact ⟨0, _, .refl _, by constructor⟩
  | succ n ih =>
    cases p with
    | more w s =>
      obtain ⟨k, q, hs, he⟩ := ih (by simpa [runEngine] using h)
      exact ⟨k + 1, q, .step hs, he⟩
    | _ =>
      simp [runEngine] at h
      try subst h
      try exact ⟨0, _, .refl _, by constructor⟩

theorem finish_next {op : BitVec 4} {p : Progress} {u : State} (h : finish op p = .next u) :
    ∃ k q, Steps k p q ∧ Ended op q u := runEngine_next h

/-- A run has one end. -/
theorem Steps.unique {j k : Nat} {op : BitVec 4} {p q r : Progress} {u v : State} (h : Steps j p q)
    (hu : Ended op q u) (h' : Steps k p r) (hv : Ended op r v) : u = v := by
  induction h generalizing k r with
  | refl p =>
    cases h' with
    | refl => cases hu <;> cases hv <;> rfl
    | step h' => cases hu
  | step h ih =>
    cases h' with
    | refl => cases hv
    | step h' => exact ih hu h' hv

/-! ### The prologue -/

theorem command_rejected {i : Instr} {f : State → Progress} {s : State} (he : s.status.err ≠ 0)
    (hi : neverRejected i = false) : command i f s = .next (reject s) := by
  rw [command, prologue, if_pos ⟨he, hi⟩]; rfl

theorem command_illegal {i : Instr} {f : State → Progress} {s : State} {c : IllegalCause}
    (ha : s.status.err = 0 ∨ neverRejected i = true) (hc : illegalCause i = some c) :
    command i f s = .next (raiseError i.opcode .illegalCommand c.sub c.sym (accept i s)) := by
  have : ¬ (s.status.err ≠ 0 ∧ neverRejected i = false) := by
    rintro ⟨h1, h2⟩; rcases ha with h | h
    · exact h1 h
    · rw [h] at h2; cases h2
  rw [command, prologue, if_neg this]
  simp only [hc]; rfl

theorem prologue_runs {i : Instr} {f : State → Progress} {s : State}
    (ha : s.status.err = 0 ∨ neverRejected i = true) (hc : illegalCause i = none) :
    prologue i f s = f (accept i s) := by
  have : ¬ (s.status.err ≠ 0 ∧ neverRejected i = false) := by
    rintro ⟨h1, h2⟩; rcases ha with h | h
    · exact h1 h
    · rw [h] at h2; cases h2
  rw [prologue, if_neg this]
  simp only [hc]

theorem command_runs {i : Instr} {f : State → Progress} {s : State}
    (ha : s.status.err = 0 ∨ neverRejected i = true) (hc : illegalCause i = none) :
    command i f s = finish i.opcode (f (accept i s)) := by
  rw [command, prologue_runs ha hc]

/-- Everything a command can do when it answers a next state. -/
theorem command_cases {i : Instr} {f : State → Progress} {s u : State} (h : command i f s = .next u) :
    (s.status.err ≠ 0 ∧ neverRejected i = false ∧ u = reject s) ∨
    ((s.status.err = 0 ∨ neverRejected i = true) ∧
      ((∃ c, illegalCause i = some c ∧
          u = raiseError i.opcode .illegalCommand c.sub c.sym (accept i s)) ∨
        (illegalCause i = none ∧ ∃ k q, Steps k (f (accept i s)) q ∧ Ended i.opcode q u))) := by
  by_cases hr : s.status.err ≠ 0 ∧ neverRejected i = false
  · rw [command_rejected hr.1 hr.2] at h
    exact .inl ⟨hr.1, hr.2, by injection h with h; exact h.symm⟩
  · have ha : s.status.err = 0 ∨ neverRejected i = true := by
      by_cases h0 : s.status.err = 0
      · exact .inl h0
      · right; cases hn : neverRejected i
        · exact absurd ⟨h0, hn⟩ hr
        · rfl
    refine .inr ⟨ha, ?_⟩
    cases hc : illegalCause i with
    | some c =>
      rw [command_illegal ha hc] at h
      exact .inl ⟨c, rfl, by injection h with h; exact h.symm⟩
    | none =>
      rw [command_runs ha hc] at h
      exact .inr ⟨rfl, finish_next h⟩

/-- Every command is its prologue and its body. -/
theorem exec_eq_command (i : Instr) (s : State) : exec i s = command i (bodyOf i) s := by
  cases i <;> rfl

/-- A command that the prologue lets through. -/
theorem exec_runs {i : Instr} {s : State} (ha : s.status.err = 0 ∨ neverRejected i = true)
    (hc : illegalCause i = none) : exec i s = finish i.opcode (bodyOf i (accept i s)) := by
  rw [exec_eq_command, command_runs ha hc]

/-! ### The beginning and the end of a command on an idle block -/

theorem endCommand_accept {s : State} (h : s.Idle) (i : Instr) : endCommand (accept i s) = s := by
  obtain ⟨h1, h2, -⟩ := h
  rcases s with ⟨w, ⟨b⟩⟩
  simp_all [endCommand, accept, State.setStatus, State.setLatch]

theorem raiseError_accept {s : State} (h : s.Idle) (i : Instr) (op : BitVec 4) (e : ErrKind)
    (sub : BitVec 3) (sym : BitVec 9) :
    raiseError op e sub sym (accept i s) = { s with status := s.status.afterError op e sub sym } := by
  obtain ⟨h1, h2, -⟩ := h
  rcases s with ⟨w, ⟨b⟩⟩
  simp_all [raiseError, endCommand, accept, State.setStatus, State.setLatch, Status.afterError]

/-- The end of a BUILD or RDHDR that holds a new tree. -/
theorem endCommand_holdTree {s : State} (h : s.Idle) (i : Instr) (t : HuffTree) :
    endCommand ((accept i s).dropTree.holdTree t) =
      { s with tree := some t, code := none, status := s.status.withNewTree } := by
  obtain ⟨h1, h2, -⟩ := h
  rcases s with ⟨w, ⟨b⟩⟩
  simp_all [endCommand, accept, State.setStatus, State.setLatch, State.dropTree, State.holdTree,
    State.setTree, State.setCode, State.setValid, Status.withNewTree]

/-- The end of a BUILD or RDHDR that fails. -/
theorem raiseError_dropTree {s : State} (h : s.Idle) (i : Instr) (op : BitVec 4) (e : ErrKind)
    (sub : BitVec 3) (sym : BitVec 9) :
    raiseError op e sub sym ((accept i s).dropTree) =
      { s with
        tree := none
        code := none
        status := s.status.withoutTree.afterError op e sub sym } := by
  obtain ⟨h1, h2, -⟩ := h
  rcases s with ⟨w, ⟨b⟩⟩
  simp_all [raiseError, endCommand, accept, State.setStatus, State.setLatch, State.dropTree,
    State.setTree, State.setCode, State.setValid, Status.withoutTree, Status.afterError]

/-- A command that fails its precondition. -/
theorem exec_raised {i : Instr} {s : State} {e : ErrKind} {sub : BitVec 3} {sym : BitVec 9} (h : s.Ready)
    (hc : illegalCause i = none) (hb : bodyOf i (accept i s) = .raised e sub sym (accept i s)) :
    exec i s = .next { s with status := s.status.afterError i.opcode e sub sym } := by
  rw [exec_runs (.inl h.2) hc, hb, finish, runEngine_raised, raiseError_accept h.1]

/-- An illegal command on a ready block (R56 to R58). -/
theorem exec_illegal {i : Instr} {s : State} {c : IllegalCause} (h : s.Ready)
    (hc : illegalCause i = some c) :
    exec i s = .next { s with status := s.status.afterError i.opcode .illegalCommand c.sub c.sym } := by
  rw [exec_eq_command, command_illegal (.inl h.2) hc, raiseError_accept h.1]

end Sys2Proof.Machine
end

