-- ==== Sys2Proof/Laws/Trees.lean ====
section
/-! SUPPORT. Facts about trees: the counts of spec/10_state.md rule R19, `strip` of
spec/43_header_codec.md rule R99, codes and paths of spec/42_code_table.md rule R89. -/

namespace Sys2Proof.Machine

/-! ### Counts -/

theorem HuffTree.leafCount_eq (t : HuffTree) : t.leafCount = t.leaves.length := by
  induction t with
  | leaf => rfl
  | node l r w hl hr => simp [leafCount, leaves, hl, hr]

theorem HuffTree.internalCount_succ (t : HuffTree) : t.internalCount + 1 = t.leafCount := by
  induction t with
  | leaf => rfl
  | node l r w hl hr => simp only [leafCount, internalCount]; omega

theorem HuffTree.nodeCount_eq (t : HuffTree) : t.nodeCount = t.leafCount + t.internalCount := by
  induction t with
  | leaf => rfl
  | node l r w hl hr => simp only [leafCount, internalCount, nodeCount]; omega

theorem HuffTree.leafCount_pos (t : HuffTree) : 0 < t.leafCount := by
  have := t.internalCount_succ; omega

theorem HuffTree.depth_le (t : HuffTree) : t.depth ≤ t.internalCount := by
  induction t with
  | leaf => exact Nat.le_refl _
  | node l r w hl hr => simp only [depth, internalCount]; omega

theorem HuffTree.Proper.leafCount_le {t : HuffTree} (h : t.leaves.Nodup) : t.leafCount ≤ Config.maxLeaves := by
  rw [t.leafCount_eq]
  have := h.length_le_card
  simpa [Config.maxLeaves] using this

/-! ### `strip` -/

@[simp] theorem HuffTree.strip_leaves (t : HuffTree) : t.strip.leaves = t.leaves := by
  induction t with
  | leaf => rfl
  | node l r w hl hr => simp [strip, leaves, hl, hr]

@[simp] theorem HuffTree.strip_strip (t : HuffTree) : t.strip.strip = t.strip := by
  induction t with
  | leaf => rfl
  | node l r w hl hr => simp [strip, hl, hr]

@[simp] theorem HuffTree.strip_codeOf (t : HuffTree) (x : Sym) : t.strip.codeOf x = t.codeOf x := by
  induction t with
  | leaf => rfl
  | node l r w hl hr => simp [strip, codeOf, hl, hr]

@[simp] theorem HuffTree.strip_hdr (t : HuffTree) : t.strip.hdr = t.hdr := by
  induction t with
  | leaf => rfl
  | node l r w hl hr => simp [strip, hdr, hl, hr]

@[simp] theorem HuffTree.strip_body (t : HuffTree) (bytes : List (Fin 256)) :
    t.strip.body bytes = t.body bytes := by
  induction bytes with
  | nil => simp [body]
  | cons b s ih => simp [body, ih]

/-! ### Codes and paths -/

theorem HuffTree.codeOf_isSome (t : HuffTree) (x : Sym) : (t.codeOf x).isSome = true ↔ x ∈ t.leaves := by
  induction t with
  | leaf s w =>
    by_cases h : s = x
    · simp [codeOf, leaves, h]
    · simp only [codeOf, leaves, if_neg h, List.mem_singleton]
      simp [Ne.symm h]
  | node l r w hl hr =>
    simp only [codeOf, leaves, List.mem_append, ← hl, ← hr]
    cases l.codeOf x <;> simp

theorem HuffTree.codeOf_none {t : HuffTree} {x : Sym} (h : x ∉ t.leaves) : t.codeOf x = none := by
  rw [← t.codeOf_isSome] at h
  simpa using h

theorem HuffTree.codeOf_some {t : HuffTree} {x : Sym} (h : x ∈ t.leaves) : ∃ p, t.codeOf x = some p :=
  Option.isSome_iff_exists.mp ((t.codeOf_isSome x).mpr h)

theorem HuffTree.codeOf_length_le {t : HuffTree} {x : Sym} {p : Bits} (h : t.codeOf x = some p) :
    p.length ≤ t.depth := by
  induction t generalizing p with
  | leaf s w =>
    simp only [codeOf] at h
    split at h <;> simp_all
  | node l r w hl hr =>
    simp only [codeOf] at h
    simp only [depth]
    cases hc : l.codeOf x with
    | some q =>
      rw [hc] at h
      have := hl hc
      cases h; simp; omega
    | none =>
      rw [hc] at h
      cases hd : r.codeOf x with
      | none => rw [hd] at h; cases h
      | some q =>
        rw [hd] at h
        have := hr hd
        cases h; simp; omega

@[simp] theorem HuffTree.at?_nil (t : HuffTree) : t.at? [] = some t := by cases t <;> rfl

theorem HuffTree.at?_append (t : HuffTree) (p q : Bits) : t.at? (p ++ q) = (t.at? p).bind (·.at? q) := by
  induction p generalizing t with
  | nil => simp
  | cons b p ih =>
    cases t with
    | leaf => rfl
    | node l r w => cases b <;> simp [at?, ih]

/-- A code is the path to its leaf (R89). -/
theorem HuffTree.at?_codeOf {t : HuffTree} {x : Sym} {p : Bits} (h : t.codeOf x = some p) :
    ∃ w, t.at? p = some (.leaf x w) := by
  induction t generalizing p with
  | leaf s w =>
    simp only [codeOf] at h
    split at h
    · rename_i e; cases h; exact ⟨w, by simp [e]⟩
    · cases h
  | node l r w hl hr =>
    simp only [codeOf] at h
    cases hc : l.codeOf x with
    | some q => rw [hc] at h; cases h; simpa [at?] using hl hc
    | none =>
      rw [hc] at h
      cases hd : r.codeOf x with
      | none => rw [hd] at h; cases h
      | some q => rw [hd] at h; cases h; simpa [at?] using hr hd

/-- A leaf of a tree in which no Symbol labels two leaves is reached by its code only. -/
theorem HuffTree.codeOf_at? {t : HuffTree} {x : Sym} {p : Bits} {w : Nat} (hn : t.leaves.Nodup)
    (h : t.at? p = some (.leaf x w)) : t.codeOf x = some p := by
  induction p generalizing t with
  | nil => simp at h; subst h; simp [codeOf]
  | cons b p ih =>
    cases t with
    | leaf => cases h
    | node l r wt =>
      simp only [leaves, List.nodup_append] at hn
      have mem : ∀ {u : HuffTree}, u.leaves.Nodup → u.at? p = some (.leaf x w) → x ∈ u.leaves :=
        fun hu hh => (codeOf_isSome _ x).mp (by rw [ih hu hh]; rfl)
      cases b with
      | false =>
        have := ih hn.1 (by simpa [at?] using h)
        simp [codeOf, this]
      | true =>
        have h2 : r.at? p = some (.leaf x w) := by simpa [at?] using h
        have := ih hn.2.1 h2
        have hx : x ∉ l.leaves := fun hx => hn.2.2 x hx x (mem hn.2.1 h2) rfl
        simp [codeOf, this, codeOf_none hx]

end Sys2Proof.Machine
end

