-- ==== Sys2Proof/Laws/CodeTable.lean ====
section
/-! SUPPORT. What GENCODES' walk writes into CODE (spec/42_code_table.md rules R88, R89). -/

namespace Sys2Proof.Machine

/-- The code a walk still has to write for `x`: the path to the first leaf labelled `x`. -/
def stackCode : List (HuffTree × Bits) → Sym → Option Bits
  | [], _ => none
  | (t, p) :: stack, x =>
    match t.codeOf x with
    | some q => some (p ++ q)
    | none => stackCode stack x

/-- The Symbols a walk still has to reach. -/
def stackLeaves (stack : List (HuffTree × Bits)) : List Sym := stack.flatMap fun e => e.1.leaves

theorem stackCode_none {stack : List (HuffTree × Bits)} {x : Sym} (h : x ∉ stackLeaves stack) :
    stackCode stack x = none := by
  induction stack with
  | nil => rfl
  | cons e stack ih =>
    simp only [stackLeaves, List.flatMap_cons, List.mem_append, not_or] at h
    simp [stackCode, HuffTree.codeOf_none h.1, ih h.2]

/-- An internal node's two subtrees stand for it. -/
theorem stackCode_node (l r : HuffTree) (w : Nat) (p : Bits) (stack : List (HuffTree × Bits)) (x : Sym) :
    stackCode ((.node l r w, p) :: stack) x = stackCode ((l, p ++ [false]) :: (r, p ++ [true]) :: stack) x := by
  simp only [stackCode, HuffTree.codeOf]
  cases l.codeOf x <;> simp
  cases r.codeOf x <;> simp

/-- What GENCODES' walk has written and what it has still to write. -/
theorem gencodes_steps (n : Nat) {stack : List (HuffTree × Bits)} {s : State}
    {table : Table (Option Bits) 257} (hn : walkCost stack = n) (hd : (stackLeaves stack).Nodup)
    (hc : s.code = some table) :
    ∃ table', Steps (n + 1) (.more (.gencodes stack) s)
        (.done ((s.setCode (some table')).setStatus { s.status with codesValid := true })) ∧
      ∀ x, table'.get x = (stackCode stack x).or (table.get x) := by
  induction n using Nat.strongRecOn generalizing stack s table with
  | _ n ih =>
    match stack with
    | [] =>
      have : n = 0 := by simpa [walkCost] using hn.symm
      subst this
      refine ⟨table, .one ?_, fun x => rfl⟩
      have : s.setCode (some table) = s := by rw [← hc]; rfl
      rw [this]; rfl
    | (.leaf x w, p) :: rest =>
      have hm : n = walkCost rest + 1 := by
        simp only [walkCost, HuffTree.nodeCount] at hn; omega
      simp only [stackLeaves, List.flatMap_cons, HuffTree.leaves, List.singleton_append,
        List.nodup_cons] at hd
      obtain ⟨table', hs, ht⟩ := ih (walkCost rest) (by omega) (stack := rest)
        (s := s.setCodeAt x p) (table := table.set x (some p)) rfl hd.2
        (by simp [State.setCodeAt, State.setCode, hc])
      refine ⟨table', ?_, ?_⟩
      · rw [hm]
        exact .step hs
      · intro y
        rw [ht y]
        by_cases hy : x = y
        · subst hy
          simp [stackCode_none hd.1, stackCode, HuffTree.codeOf]
        · simp [stackCode, HuffTree.codeOf, hy]
    | (.node l r w, p) :: rest =>
      have hm : n = walkCost ((l, p ++ [false]) :: (r, p ++ [true]) :: rest) + 1 := by
        simp only [walkCost, HuffTree.nodeCount] at hn ⊢; omega
      have hl : stackLeaves ((.node l r w, p) :: rest) =
          stackLeaves ((l, p ++ [false]) :: (r, p ++ [true]) :: rest) := by
        simp [stackLeaves, HuffTree.leaves]
      obtain ⟨table', hs, ht⟩ := ih _ (by omega) (stack := (l, p ++ [false]) :: (r, p ++ [true]) :: rest)
        (s := s) (table := table) rfl (hl ▸ hd) hc
      refine ⟨table', ?_, fun x => ?_⟩
      · rw [hm]
        exact .step hs
      · rw [ht x, stackCode_node]

/-- A whole walk. -/
theorem gencodes_walk {t : HuffTree} {s : State} (hd : t.leaves.Nodup)
    (hc : s.code = some (Table.fill 257 none)) :
    ∃ table, Steps (t.nodeCount + 1) (.more (.gencodes [(t, [])]) s)
        (.done ((s.setCode (some table)).setStatus { s.status with codesValid := true })) ∧
      ∀ x, table.get x = t.codeOf x := by
  obtain ⟨table, hs, ht⟩ := gencodes_steps t.nodeCount (stack := [(t, [])]) (by simp [walkCost])
    (by simpa [stackLeaves] using hd) hc
  refine ⟨table, hs, fun x => ?_⟩
  rw [ht x]
  simp only [stackCode, Table.get_fill, List.nil_append]
  cases t.codeOf x <;> rfl

end Sys2Proof.Machine
end

