-- ==== Sys2Proof/Laws/Codec.lean ====
section
/-! SUPPORT. What the codec commands do as long as their calls are answered at once and do not fail, call by
call, and where one fails: WRHDR writes a header (R93), RDHDR reads one (R96), ENCODE codes bytes (R102),
DECODE scans symbols (R108). -/

namespace Sys2Proof.Machine

theorem Steps.cons {k : Nat} {w : Work} {s : State} {p q : Progress} (h : engineStep w s = p) (h' : Steps k p q) :
    Steps (k + 1) (.more w s) q := .step (h ▸ h')

/-! ### The end of a stream command on an idle block -/

theorem endCommand_streamed {s : State} (h : s.Idle) (i : Instr) (n : Nat) (b : Bits) (cs : List Call) :
    endCommand ((accept i s).streamed n b cs) = s.streamed n b cs := by
  obtain ⟨h1, h2, -⟩ := h
  rcases s with ⟨w, ⟨bs⟩⟩
  simp_all [endCommand, accept, State.setStatus, State.setLatch, State.streamed]

theorem raiseError_streamed {s : State} (h : s.Idle) (i : Instr) (n : Nat) (b : Bits) (cs : List Call)
    (op : BitVec 4) (e : ErrKind) (sub : BitVec 3) (sym : BitVec 9) :
    raiseError op e sub sym ((accept i s).streamed n b cs) =
      { s.streamed n b cs with status := s.status.afterError op e sub sym } := by
  obtain ⟨h1, h2, -⟩ := h
  rcases s with ⟨w, ⟨bs⟩⟩
  simp_all [raiseError, endCommand, accept, State.setStatus, State.setLatch, State.streamed,
    Status.afterError]

theorem endCommand_streamed_holdTree {s : State} (h : s.Idle) (i : Instr) (n : Nat) (b : Bits)
    (cs : List Call) (t : HuffTree) :
    endCommand (((accept i s).dropTree.streamed n b cs).holdTree t) =
      { s.streamed n b cs with tree := some t, code := none, status := s.status.withNewTree } := by
  obtain ⟨h1, h2, -⟩ := h
  rcases s with ⟨w, ⟨bs⟩⟩
  simp_all [endCommand, accept, State.setStatus, State.setLatch, State.streamed, State.dropTree,
    State.holdTree, State.setTree, State.setCode, State.setValid, Status.withNewTree]

theorem raiseError_streamed_dropTree {s : State} (h : s.Idle) (i : Instr) (n : Nat) (b : Bits)
    (cs : List Call) (op : BitVec 4) (e : ErrKind) (sub : BitVec 3) (sym : BitVec 9) :
    raiseError op e sub sym ((accept i s).dropTree.streamed n b cs) =
      { s.streamed n b cs with
        tree := none
        code := none
        status := s.status.withoutTree.afterError op e sub sym } := by
  obtain ⟨h1, h2, -⟩ := h
  rcases s with ⟨w, ⟨bs⟩⟩
  simp_all [raiseError, endCommand, accept, State.setStatus, State.setLatch, State.streamed,
    State.dropTree, State.setTree, State.setCode, State.setValid, Status.withoutTree, Status.afterError]

/-! ### WRHDR -/

/-- The calls with which WRHDR writes what is still to be written (R93). -/
def HdrItem.calls : HdrItem → List Call
  | .subtree t => t.hdrCalls
  | .field x => [.outWrite 9 x.val]

theorem HuffTree.hdrCalls_ne_nil (t : HuffTree) : t.hdrCalls ≠ [] := by cases t <;> simp [hdrCalls]

theorem HuffTree.hdrCalls_length_le (t : HuffTree) : t.hdrCalls.length ≤ 2 * t.nodeCount := by
  induction t with
  | leaf => simp [hdrCalls, nodeCount]
  | node l r w hl hr => simp only [hdrCalls, nodeCount, List.length_cons, List.length_append]; omega

/-- The header is the bits of its calls (R93, R94). -/
theorem HuffTree.bits_hdrCalls (t : HuffTree) : t.hdrCalls.flatMap Call.bits = t.hdr := by
  induction t with
  | leaf => simp [hdrCalls, hdr, Call.bits, bin]
  | node l r w hl hr => simp [hdrCalls, hdr, hl, hr, Call.bits, bin]

/-- The next piece of WRHDR's work is its next call. -/
theorem wrhdr_next {stack : List HdrItem} {c : Call} {more : List Call}
    (h : stack.flatMap HdrItem.calls = c :: more) :
    ∃ n v after, c = .outWrite n v ∧ n ≠ 0 ∧ after.flatMap HdrItem.calls = more ∧
      ∀ s, engineStep (.wrhdr stack) s = wrhdrWrite n v stack after s := by
  match stack with
  | [] => simp at h
  | .subtree (.node l r w) :: others =>
    simp only [List.flatMap_cons, HdrItem.calls, HuffTree.hdrCalls, List.cons_append, List.cons.injEq] at h
    exact ⟨1, 0, .subtree l :: .subtree r :: others, h.1.symm, by decide, by
      simp [HdrItem.calls, ← h.2], fun s => rfl⟩
  | .subtree (.leaf x w) :: others =>
    simp only [List.flatMap_cons, HdrItem.calls, HuffTree.hdrCalls, List.cons_append, List.cons.injEq] at h
    exact ⟨1, 1, .field x :: others, h.1.symm, by decide, by simp [HdrItem.calls, ← h.2], fun s => rfl⟩
  | .field x :: others =>
    simp only [List.flatMap_cons, HdrItem.calls, List.cons_append, List.cons.injEq] at h
    exact ⟨9, x.val, others, h.1.symm, by decide, by simpa using h.2, fun s => rfl⟩

/-- Some calls of WRHDR made (R93): the others are still to come. -/
theorem wrhdr_run {pre post : List Call} {stack : List HdrItem} {s : State}
    (h : stack.flatMap HdrItem.calls = pre ++ post) (hp : s.PromptFor pre.length) (ho : s.outstanding = none) :
    ∃ stack', Steps pre.length (.more (.wrhdr stack) s)
        (.more (.wrhdr stack') (s.streamed 0 (pre.flatMap Call.bits) pre)) ∧
      stack'.flatMap HdrItem.calls = post := by
  induction pre generalizing stack s with
  | nil => exact ⟨stack, by rw [List.flatMap_nil, streamed_zero]; exact .refl _, h⟩
  | cons c pre ih =>
    obtain ⟨n, v, after, rfl, hn, ha, hs⟩ := wrhdr_next h
    obtain ⟨stack', h1, h2⟩ := ih (s := s.streamed 0 (bin n v) [.outWrite n v]) ha
      (State.PromptFor.streamed (by rw [Nat.add_comm]; exact hp) _ _) ho
    refine ⟨stack', .cons (p := .more (.wrhdr after) _) ?_ (by rw [streamed_streamed] at h1; exact h1), h2⟩
    rw [hs, wrhdrWrite, outWrite_prompt v hn (hp.mono (by simp)) ho]

/-- WRHDR's next call fails (R93). -/
theorem wrhdr_fail {stack : List HdrItem} {c : Call} {more : List Call} {s : State} {k : Nat} {left : Bits}
    (h : stack.flatMap HdrItem.calls = c :: more) (hf : s.nextAnswer = .fail k left)
    (ho : s.outstanding = none) :
    engineStep (.wrhdr stack) s = .raised .ioFailure 2 0 (s.streamed 0 (c.bits.take k) [c]) := by
  obtain ⟨n, v, after, rfl, hn, -, hs⟩ := wrhdr_next h
  rw [hs, wrhdrWrite, outWrite_fail v hn hf ho]; rfl

/-- With no call to come nothing is left to write. -/
theorem wrhdr_nothing_left {stack : List HdrItem} (h : stack.flatMap HdrItem.calls = []) : stack = [] := by
  match stack with
  | [] => rfl
  | .subtree t :: _ => simp [HdrItem.calls, t.hdrCalls_ne_nil] at h
  | .field _ :: _ => simp [HdrItem.calls] at h

/-! ### Headers by tokens -/

@[simp] theorem tokenBits_nil : tokenBits [] = [] := rfl

@[simp] theorem tokenBits_cons (x : HdrToken) (xs : List HdrToken) :
    tokenBits (x :: xs) = x.bits ++ tokenBits xs := rfl

@[simp] theorem tokenBits_append (xs ys : List HdrToken) :
    tokenBits (xs ++ ys) = tokenBits xs ++ tokenBits ys := by simp [tokenBits]

/-- The header is the bits of its tokens (R63). -/
theorem HuffTree.hdr_eq_tokenBits (t : HuffTree) : t.hdr = tokenBits t.tokens := by
  induction t with
  | leaf => rfl
  | node l r w hl hr => simp [hdr, tokens, hl, hr, HdrToken.bits]

/-- The Symbols of the leaves among some tokens. -/
def tokenLeaves : List HdrToken → List Sym
  | [] => []
  | .internal :: xs => tokenLeaves xs
  | .leaf s :: xs => s :: tokenLeaves xs

theorem mem_tokenLeaves {xs : List HdrToken} {s : Sym} : s ∈ tokenLeaves xs ↔ .leaf s ∈ xs := by
  induction xs with
  | nil => simp [tokenLeaves]
  | cons x xs ih => cases x <;> simp [tokenLeaves, ih]

@[simp] theorem tokenLeaves_append (xs ys : List HdrToken) :
    tokenLeaves (xs ++ ys) = tokenLeaves xs ++ tokenLeaves ys := by
  induction xs with
  | nil => rfl
  | cons x xs ih => cases x <;> simp [tokenLeaves, ih]

theorem HuffTree.tokenLeaves_tokens (t : HuffTree) : tokenLeaves t.tokens = t.leaves := by
  induction t with
  | leaf => rfl
  | node l r w hl hr => simp [tokens, tokenLeaves, leaves, hl, hr]

theorem HuffTree.count_internal (t : HuffTree) : t.tokens.count .internal = t.internalCount := by
  induction t with
  | leaf => simp [tokens, internalCount]
  | node l r w hl hr => simp [tokens, internalCount, hl, hr]

@[simp] theorem tokenReads_nil : tokenReads [] = [] := rfl

@[simp] theorem tokenReads_cons (x : HdrToken) (xs : List HdrToken) :
    tokenReads (x :: xs) = x.reads ++ tokenReads xs := rfl

@[simp] theorem tokenReads_append (xs ys : List HdrToken) :
    tokenReads (xs ++ ys) = tokenReads xs ++ tokenReads ys := by simp [tokenReads]

/-! ### RDHDR -/

/-- Where RDHDR stands once it has read a subtree `t`. -/
def rdhdrReturned (t : HuffTree) (seen : List Sym) (nint : Nat) (stack : List (Option HuffTree)) (s : State) :
    Progress :=
  match returnTree t stack with
  | .inl u => rdhdrEnd u seen s
  | .inr stack' => .more (.rdhdr .marker seen nint stack') s

theorem rdhdr_marker {s : State} {b : Bool} {x : Bits} (seen : List Sym) (nint : Nat)
    (stack : List (Option HuffTree)) (hp : s.PromptFor 1) (ho : s.outstanding = none) (hr : s.rest = b :: x) :
    engineStep (.rdhdr .marker seen nint stack) s =
      if b then .more (.rdhdr .field seen nint stack) (s.streamed 1 [] [.inRead 1])
      else rdhdrInternal seen nint stack (s.streamed 1 [] [.inRead 1]) := by
  have h := inRead_bits (b := [b]) (x := x) hp ho hr
  simp only [List.length_singleton] at h
  simp only [engineStep, rdhdrStep, h]
  cases b <;> rfl

theorem rdhdr_field {s : State} {v : Nat} {x : Bits} (seen : List Sym) (nint : Nat)
    (stack : List (Option HuffTree)) (hp : s.PromptFor 1) (ho : s.outstanding = none) (hv : v < 512)
    (hr : s.rest = bin 9 v ++ x) :
    engineStep (.rdhdr .field seen nint stack) s =
      rdhdrLeaf v seen nint stack (s.streamed 9 [] [.inRead 9]) := by
  have h := inRead_bits (b := bin 9 v) (x := x) hp ho hr
  simp only [bin_length, val_bin_of_lt (n := 9) hv] at h
  simp only [engineStep, rdhdrStep, h]

/-- A subtree read (R96), if its Symbols are new and its internal nodes not too many. -/
theorem rdhdr_steps (t : HuffTree) (seen : List Sym) (nint : Nat) (stack : List (Option HuffTree))
    (s : State) (x : Bits) (hp : s.PromptFor (tokenReads t.tokens).length) (ho : s.outstanding = none)
    (hr : s.rest = t.hdr ++ x) (hd : t.leaves.Nodup) (hs : ∀ y ∈ t.leaves, y ∉ seen)
    (hn : nint + t.internalCount ≤ 256) :
    ∃ k, Steps k (.more (.rdhdr .marker seen nint stack) s)
        (rdhdrReturned t.strip (t.leaves.reverse ++ seen) (nint + t.internalCount) stack
          (s.streamed t.hdr.length [] (tokenReads t.tokens))) ∧ k ≤ t.hdr.length := by
  induction t generalizing seen nint stack s x with
  | leaf y w =>
    refine ⟨2, .cons (rdhdr_marker seen nint stack (hp.mono (by simp [HuffTree.tokens, HdrToken.reads])) ho hr)
      (.cons (rdhdr_field (v := y.val) (x := x) seen nint stack
        (State.PromptFor.streamed (cs := [.inRead 1]) hp _ _) ho (by omega) ?_) ?_), by simp [HuffTree.hdr]⟩
    · rw [streamed_rest, hr]; rfl
    · have hy : y ∉ seen := hs y (by simp [HuffTree.leaves])
      simp only [rdhdrLeaf, y.isLt, dif_pos, Fin.eta, if_neg hy, streamed_streamed]
      simp only [HuffTree.strip, HuffTree.leaves, HuffTree.hdr, List.length_cons, bin_length]
      exact .refl _
  | node l r w hl hr' =>
    simp only [HuffTree.leaves, List.nodup_append] at hd
    simp only [HuffTree.leaves, List.mem_append] at hs
    simp only [HuffTree.internalCount] at hn
    have ec : tokenReads (HuffTree.node l r w).tokens =
        [.inRead 1] ++ tokenReads l.tokens ++ tokenReads r.tokens := by
      simp [HuffTree.tokens, HdrToken.reads]
    rw [ec] at hp ⊢
    simp only [List.length_append, Nat.add_assoc] at hp
    have hi : engineStep (.rdhdr .marker seen nint stack) s =
        .more (.rdhdr .marker seen (nint + 1) (none :: stack)) (s.streamed 1 [] [.inRead 1]) := by
      rw [rdhdr_marker seen nint stack (hp.mono (by simp)) ho hr]
      simp only [rdhdrInternal, Bool.false_eq_true, if_false]
      rw [if_neg (by omega)]
    obtain ⟨j, hj, hj'⟩ := hl seen (nint + 1) (none :: stack) (s.streamed 1 [] [.inRead 1]) (r.hdr ++ x)
      ((hp.streamed _ _).mono (by omega)) ho (by rw [streamed_rest, hr]; simp [HuffTree.hdr]) hd.1
      (fun y hy => hs y (.inl hy)) (by omega)
    obtain ⟨k, hk, hk'⟩ := hr' (l.leaves.reverse ++ seen) (nint + 1 + l.internalCount) (some l.strip :: stack)
      ((s.streamed 1 [] [.inRead 1]).streamed l.hdr.length [] (tokenReads l.tokens)) x
      ((hp.streamed _ _).streamed _ _) ho
      (by rw [streamed_rest, streamed_rest, hr]; simp [HuffTree.hdr]) hd.2.1
      (fun y hy => by
        simp only [List.mem_append, List.mem_reverse, not_or]
        exact ⟨fun h => hd.2.2 y h y hy rfl, hs y (.inr hy)⟩) (by omega)
    refine ⟨j + k + 1, .cons hi (hj.trans ?_), ?_⟩
    · have e1 : (HuffTree.node l r w).leaves.reverse ++ seen = r.leaves.reverse ++ (l.leaves.reverse ++ seen) := by
        simp [HuffTree.leaves]
      have e2 : nint + (HuffTree.node l r w).internalCount = nint + 1 + l.internalCount + r.internalCount := by
        simp only [HuffTree.internalCount]; omega
      have e3 : (HuffTree.node l r w).hdr.length = 1 + l.hdr.length + r.hdr.length := by
        simp [HuffTree.hdr]; omega
      rw [e1, e2, e3, streamed_streamed]
      rw [streamed_streamed, streamed_streamed] at hk
      exact hk
    · simp [HuffTree.hdr]; omega

/-- Some whole tokens of an unfinished subtree read (R96): RDHDR stands at the next marker, with their
Symbols in SEEN and their internal nodes in NINT. -/
theorem rdhdr_tokens (t : HuffTree) (seen : List Sym) (nint : Nat) (stack : List (Option HuffTree))
    (s : State) (pre post : List HdrToken) (x : Bits) (hp : s.PromptFor (tokenReads pre).length) (ho : s.outstanding = none)
    (ht : t.tokens = pre ++ post) (hpost : post ≠ []) (hr : s.rest = tokenBits pre ++ x)
    (hd : t.leaves.Nodup) (hs : ∀ y ∈ t.leaves, y ∉ seen) (hn : nint + t.internalCount ≤ 256) :
    ∃ k stack', Steps k (.more (.rdhdr .marker seen nint stack) s)
        (.more (.rdhdr .marker ((tokenLeaves pre).reverse ++ seen) (nint + pre.count .internal) stack')
          (s.streamed (tokenBits pre).length [] (tokenReads pre))) ∧ k ≤ (tokenBits pre).length := by
  induction t generalizing seen nint stack s pre post x with
  | leaf y w =>
    have : pre = [] := by
      cases pre with
      | nil => rfl
      | cons a pre =>
        simp only [HuffTree.tokens, List.cons_append, List.cons.injEq, List.nil_eq, List.append_eq_nil_iff] at ht
        exact absurd ht.2.2 hpost
    subst this
    exact ⟨0, stack, by simp [tokenLeaves, streamed_zero]; exact .refl _, by simp⟩
  | node l r w hl hr' =>
    cases pre with
    | nil => exact ⟨0, stack, by simp [tokenLeaves, streamed_zero]; exact .refl _, by simp⟩
    | cons a pre =>
      simp only [HuffTree.tokens, List.cons_append, List.cons.injEq] at ht
      obtain ⟨rfl, ht⟩ := ht
      simp only [HuffTree.leaves, List.nodup_append] at hd
      simp only [HuffTree.leaves, List.mem_append] at hs
      simp only [HuffTree.internalCount] at hn
      have hr1 : s.rest = false :: (tokenBits pre ++ x) := by rw [hr]; rfl
      have ec : tokenReads (.internal :: pre) = [.inRead 1] ++ tokenReads pre := rfl
      rw [ec] at hp ⊢
      rw [List.length_append] at hp
      have hi : engineStep (.rdhdr .marker seen nint stack) s =
          .more (.rdhdr .marker seen (nint + 1) (none :: stack)) (s.streamed 1 [] [.inRead 1]) := by
        rw [rdhdr_marker seen nint stack (hp.mono (by simp)) ho hr1, if_neg (by decide), rdhdrInternal, if_neg (by omega)]
      have hr2 : (s.streamed 1 [] [.inRead 1]).rest = tokenBits pre ++ x := by rw [streamed_rest, hr1]; rfl
      have e1 : (tokenBits (.internal :: pre)).length = 1 + (tokenBits pre).length := by
        simp [HdrToken.bits]; omega
      have e2 : nint + (HdrToken.internal :: pre).count .internal = nint + 1 + pre.count .internal := by
        simp; omega
      by_cases hlt : pre.length < l.tokens.length
      · obtain ⟨post', h1⟩ : pre <+: l.tokens :=
          List.prefix_of_prefix_length_le ⟨post, ht.symm⟩ (List.prefix_append _ _) (by omega)
        obtain ⟨k, stack', h2, h3⟩ := hl seen (nint + 1) (none :: stack) (s.streamed 1 [] [.inRead 1]) pre
          post' x (hp.streamed _ _) ho h1.symm (by rintro rfl; simp [← h1] at hlt) hr2 hd.1
          (fun y hy => hs y (.inl hy)) (by omega)
        refine ⟨k + 1, stack', .cons hi ?_, by omega⟩
        rw [streamed_streamed] at h2
        rw [e1, e2]; exact h2
      · obtain ⟨pre', rfl⟩ : l.tokens <+: pre :=
          List.prefix_of_prefix_length_le (List.prefix_append _ _) ⟨post, ht.symm⟩ (by omega)
        rw [List.append_assoc, List.append_right_inj] at ht
        rw [tokenBits_append, ← l.hdr_eq_tokenBits, List.append_assoc] at hr2
        rw [tokenReads_append, List.length_append] at hp
        obtain ⟨j, hj, hj'⟩ := rdhdr_steps l seen (nint + 1) (none :: stack) (s.streamed 1 [] [.inRead 1])
          (tokenBits pre' ++ x) ((hp.streamed _ _).mono (by omega)) ho hr2 hd.1 (fun y hy => hs y (.inl hy)) (by omega)
        obtain ⟨k, stack', hk, hk'⟩ := hr' (l.leaves.reverse ++ seen) (nint + 1 + l.internalCount)
          (some l.strip :: stack)
          ((s.streamed 1 [] [.inRead 1]).streamed l.hdr.length [] (tokenReads l.tokens)) pre' post x
          ((hp.streamed _ _).streamed _ _) ho ht hpost (by rw [streamed_rest, hr2]; simp) hd.2.1
          (fun y hy => by
            simp only [List.mem_append, List.mem_reverse, not_or]
            exact ⟨fun h => hd.2.2 y h y hy rfl, hs y (.inr hy)⟩) (by omega)
        refine ⟨j + k + 1, stack', .cons hi (hj.trans ?_), ?_⟩
        · rw [streamed_streamed, streamed_streamed] at hk
          rw [streamed_streamed, tokenReads_append, ← List.append_assoc]
          have e3 : (tokenLeaves (.internal :: (l.tokens ++ pre'))).reverse ++ seen =
              (tokenLeaves pre').reverse ++ (l.leaves.reverse ++ seen) := by
            simp [tokenLeaves, l.tokenLeaves_tokens]
          have e4 : (tokenBits (l.tokens ++ pre')).length = l.hdr.length + (tokenBits pre').length := by
            rw [tokenBits_append, ← l.hdr_eq_tokenBits, List.length_append]
          have e5 : (l.tokens ++ pre').count .internal = l.internalCount + pre'.count .internal := by
            rw [List.count_append, l.count_internal]
          rw [e1, e2, e3, e4, e5, ← Nat.add_assoc, ← Nat.add_assoc]
          exact hk
        · rw [e1, tokenBits_append, ← l.hdr_eq_tokenBits, List.length_append]; omega

/-- A proper prefix of some tokens' bits is the bits of some whole tokens and a part of the next one. -/
theorem prefix_tokenBits {xs : List HdrToken} {p : Bits} (h : p <+: tokenBits xs) (hne : p ≠ tokenBits xs) :
    ∃ pre x post part, xs = pre ++ x :: post ∧ p = tokenBits pre ++ part ∧ part <+: x.bits ∧ part ≠ x.bits := by
  induction xs generalizing p with
  | nil => exact absurd (List.prefix_nil.mp h) hne
  | cons x xs ih =>
    by_cases hx : x.bits <+: p
    · obtain ⟨q, rfl⟩ := hx
      rw [tokenBits_cons] at h hne
      obtain ⟨pre, y, post, part, h1, h2, h3, h4⟩ :=
        ih ((List.prefix_append_right_inj _).mp h) (fun e => hne (by rw [e]))
      exact ⟨x :: pre, y, post, part, by rw [h1]; rfl, by rw [h2, tokenBits_cons, List.append_assoc], h3, h4⟩
    · refine ⟨[], x, xs, p, rfl, rfl, ?_, fun e => hx (e ▸ List.prefix_rfl)⟩
      rcases List.prefix_or_prefix_of_prefix h (List.prefix_append x.bits (tokenBits xs)) with h | h
      · exact h
      · exact absurd h hx

/-! ### A read of RDHDR that fails -/

/-- A failing read of RDHDR, at a marker or at a field (R96). -/
theorem rdhdr_fail {s : State} {k : Nat} {left : Bits} (seen : List Sym) (nint : Nat)
    (stack : List (Option HuffTree)) (hf : s.nextAnswer = .fail k left) (ho : s.outstanding = none) :
    engineStep (.rdhdr .marker seen nint stack) s =
      .raised .ioFailure 1 0 { s.streamed 0 [] [.inRead 1] with inPos := k } ∧
    engineStep (.rdhdr .field seen nint stack) s =
      .raised .ioFailure 1 0 { s.streamed 0 [] [.inRead 9] with inPos := k } := by
  constructor <;> simp only [engineStep, rdhdrStep, inRead_fail _ hf ho]

/-! ### ENCODE -/

@[simp] theorem codesOf_nil (code : Sym → Option Bits) : codesOf code [] = [] := rfl

@[simp] theorem codesOf_cons (code : Sym → Option Bits) (b : Fin 256) (bytes : List (Fin 256)) :
    codesOf code (b :: bytes) = byteCode code b ++ codesOf code bytes := rfl

@[simp] theorem codesOf_append (code : Sym → Option Bits) (xs ys : List (Fin 256)) :
    codesOf code (xs ++ ys) = codesOf code xs ++ codesOf code ys := by simp [codesOf]

@[simp] theorem byteBits_nil : byteBits [] = [] := rfl

@[simp] theorem byteBits_cons (b : Fin 256) (bytes : List (Fin 256)) :
    byteBits (b :: bytes) = bin 8 b.val ++ byteBits bytes := rfl

@[simp] theorem byteBits_append (xs ys : List (Fin 256)) :
    byteBits (xs ++ ys) = byteBits xs ++ byteBits ys := by simp [byteBits]

@[simp] theorem byteBits_length (bytes : List (Fin 256)) : (byteBits bytes).length = 8 * bytes.length := by
  simp [byteBits, Nat.mul_comm]

theorem codeWrite_length_le (c : Bits) : (codeWrite c).length ≤ 1 := by
  simp only [codeWrite]; split <;> simp

theorem encodeCalls_cons (code : Sym → Option Bits) (b : Fin 256) (bytes : List (Fin 256)) :
    encodeCalls code (b :: bytes) =
      (.inRead 8 :: codeWrite (byteCode code b)) ++ encodeCalls code bytes := rfl

theorem encodeCalls_length_le (code : Sym → Option Bits) (bytes : List (Fin 256)) :
    (encodeCalls code bytes).length ≤ 2 * bytes.length := by
  induction bytes with
  | nil => simp [encodeCalls]
  | cons b bytes ih =>
    have := codeWrite_length_le (byteCode code b)
    rw [encodeCalls_cons]; simp only [List.length_append, List.length_cons]; omega

/-- A byte's code, or the EOF code, written (R102). -/
theorem outWrite_code {s : State} (c : Bits) (hp : s.PromptFor (codeWrite c).length)
    (ho : s.outstanding = none) : outWrite c.length (val c) s = .ok (s.streamed 0 c (codeWrite c)) := by
  by_cases hc : c = []
  · subst hc
    show Answered.ok s = .ok (s.streamed 0 [] [])
    rw [streamed_zero]
  · have hl : c.length ≠ 0 := fun h => hc (List.length_eq_zero_iff.mp h)
    rw [codeWrite, if_neg hc] at hp ⊢
    rw [outWrite_prompt _ hl hp ho, bin_val]

/-- A byte read that has a code (R102). -/
theorem encode_fetch {table : Table (Option Bits) 257} {b : Fin 256} {c x : Bits} {s : State}
    (hp : s.PromptFor 1) (ho : s.outstanding = none) (hc : s.code = some table)
    (hr : s.rest = bin 8 b.val ++ x) (hb : table.get (byteSym b) = some c) :
    engineStep (.encode .fetch) s = .more (.encode (.emit c)) (s.streamed 8 [] [.inRead 8]) := by
  have hread := inRead_bits hp ho hr
  rw [bin_length, val_bin_of_lt (n := 8) (by omega)] at hread
  have hat : codeAt table b.val = some c := by
    have : b.val < 257 := by omega
    simp only [codeAt, this, dif_pos]
    exact hb
  simp [engineStep, encodeStep, encodeFetch, hc, hread, encodeByte, hat]

/-- The bytes of IN coded one after the other (R102), as long as each has a code. -/
theorem encode_steps (table : Table (Option Bits) 257) (bytes : List (Fin 256)) (s : State) (x : Bits)
    (hp : s.PromptFor (encodeCalls table.get bytes).length) (ho : s.outstanding = none)
    (hc : s.code = some table) (hr : s.rest = byteBits bytes ++ x)
    (hb : ∀ b ∈ bytes, (table.get (byteSym b)).isSome = true) :
    Steps (2 * bytes.length) (.more (.encode .fetch) s)
      (.more (.encode .fetch)
        (s.streamed (8 * bytes.length) (codesOf table.get bytes) (encodeCalls table.get bytes))) := by
  induction bytes generalizing s with
  | nil =>
    show Steps 0 _ (.more _ (s.streamed 0 [] []))
    rw [streamed_zero]; exact .refl _
  | cons b bytes ih =>
    obtain ⟨c, hcode⟩ := Option.isSome_iff_exists.mp (hb b (by simp))
    have hbc : byteCode table.get b = c := by rw [byteCode, hcode]; rfl
    have hr1 : s.rest = bin 8 b.val ++ (byteBits bytes ++ x) := by rw [hr]; simp
    rw [encodeCalls_cons, hbc] at hp ⊢
    rw [List.length_append] at hp
    have h1 := encode_fetch (hp.mono (by simp; omega)) ho hc hr1 hcode
    have hp1 : (s.streamed 8 [] [.inRead 8]).PromptFor (codeWrite c).length :=
      State.PromptFor.streamed (hp.mono (by simp; omega)) _ _
    have h2 : engineStep (.encode (.emit c)) (s.streamed 8 [] [.inRead 8]) =
        .more (.encode .fetch) (s.streamed 8 c (.inRead 8 :: codeWrite c)) := by
      simp only [engineStep, encodeStep, outWrite_code c hp1 ho, streamed_streamed]
      simp
    have h3 := ih (s.streamed 8 c (.inRead 8 :: codeWrite c)) (hp.streamed _ _) ho hc
      (by rw [streamed_rest, hr1]; simp) (fun y hy => hb y (by simp [hy]))
    have e : 2 * (b :: bytes).length = 2 * bytes.length + 1 + 1 := by simp; omega
    have e1 : 8 * (b :: bytes).length = 8 + 8 * bytes.length := by simp; omega
    rw [e, e1, codesOf_cons, hbc, ← streamed_streamed]
    exact .cons h1 (.cons h2 h3)

/-- The end of IN in ENCODE's loop (R102). -/
theorem encode_eod {table : Table (Option Bits) 257} {s : State} {e : Bits} (hp : s.PromptFor 1)
    (ho : s.outstanding = none) (hc : s.code = some table) (hr : s.rest.length < 8)
    (he : table.get eofSym = some e) :
    engineStep (.encode .fetch) s = .more (.encode (.last e)) (s.streamed 0 [] [.inRead 8]) := by
  rw [rest_length] at hr
  have : codeAt table 256 = some e := he
  simp [engineStep, encodeStep, encodeFetch, hc, inRead_eod_prompt hp ho hr, encodeEnd, this]

/-- The loop left at the end of IN (R102): the EOF code written. -/
theorem encode_last {table : Table (Option Bits) 257} {s : State} {e : Bits}
    (hp : s.PromptFor (1 + (codeWrite e).length)) (ho : s.outstanding = none) (hc : s.code = some table)
    (hr : s.rest.length < 8) (he : table.get eofSym = some e) :
    Steps 2 (.more (.encode .fetch) s) (.done (s.streamed 0 e (.inRead 8 :: codeWrite e))) := by
  refine .cons (encode_eod (hp.mono (by omega)) ho hc hr he) (.one ?_)
  simp only [engineStep, encodeStep, outWrite_code e (State.PromptFor.streamed (cs := [.inRead 8]) hp _ _) ho,
    streamed_streamed]
  simp

/-- A failing read of ENCODE (R102). -/
theorem encode_read_fail {table : Table (Option Bits) 257} {s : State} {k : Nat} {left : Bits}
    (hc : s.code = some table) (hf : s.nextAnswer = .fail k left) (ho : s.outstanding = none) :
    engineStep (.encode .fetch) s = .raised .ioFailure 1 0 { s.streamed 0 [] [.inRead 8] with inPos := k } := by
  simp only [engineStep, encodeStep, encodeFetch, hc, inRead_fail _ hf ho]

/-- A failing write of ENCODE: a byte's code, or the EOF code (R102). -/
theorem encode_write_fail {c : Bits} {s : State} {k : Nat} {left : Bits} (hc : c ≠ [])
    (hf : s.nextAnswer = .fail k left) (ho : s.outstanding = none) :
    engineStep (.encode (.emit c)) s = .raised .ioFailure 2 0 (s.streamed 0 (c.take k) (codeWrite c)) ∧
    engineStep (.encode (.last c)) s = .raised .ioFailure 2 0 (s.streamed 0 (c.take k) (codeWrite c)) := by
  have hl : c.length ≠ 0 := fun h => hc (List.length_eq_zero_iff.mp h)
  have := outWrite_fail (val c) hl hf ho
  rw [bin_val] at this
  constructor <;> simp only [engineStep, encodeStep, this, codeWrite, if_neg hc]

/-! ### DECODE -/

@[simp] theorem bitReads_length (n : Nat) : (bitReads n).length = n := List.length_replicate

theorem decodeCalls_cons (code : Sym → Option Bits) (b : Fin 256) (bytes : List (Fin 256)) :
    decodeCalls code (b :: bytes) =
      (bitReads (byteCode code b).length ++ [.outWrite 8 b.val]) ++ decodeCalls code bytes := rfl

/-- The walker follows the bits of IN down to the node they lead to (R108). -/
theorem decode_walk {root : HuffTree} (p : Bits) (cur leafNode : HuffTree) (s : State) (x : Bits)
    (hp : s.PromptFor p.length) (ho : s.outstanding = none) (ht : s.tree = some root) (hr : s.rest = p ++ x)
    (hat : cur.at? p = some leafNode) :
    Steps p.length (.more (.decode cur) s)
      (.more (.decode leafNode) (s.streamed p.length [] (bitReads p.length))) := by
  induction p generalizing cur s with
  | nil =>
    simp at hat; subst hat
    show Steps 0 _ (.more _ (s.streamed 0 [] []))
    rw [streamed_zero]
    exact .refl _
  | cons b p ih =>
    cases cur with
    | leaf => cases hat
    | node l r w =>
      have hread := inRead_bits (b := [b]) (x := p ++ x) (hp.mono (by simp)) ho hr
      have h1 : engineStep (.decode (.node l r w)) s =
          .more (.decode (if b then r else l)) (s.streamed 1 [] [.inRead 1]) := by
        simp only [List.length_singleton] at hread
        simp only [engineStep, decodeStep, ht, decodeNode, hread]
        cases b <;> rfl
      have hs := ih (if b then r else l) (s.streamed 1 [] [.inRead 1])
        (State.PromptFor.streamed (hp.mono (by simp; omega)) _ _) ho ht
        (by rw [streamed_rest, hr]; rfl) (by cases b <;> simpa [HuffTree.at?] using hat)
      rw [streamed_streamed, Nat.add_comm 1] at hs
      exact .cons h1 hs

theorem byteSym_ne_eofSym (b : Fin 256) : byteSym b ≠ eofSym := by
  intro h; have := congrArg Fin.val h; simp [byteSym, eofSym] at this; omega

/-- The walker at a byte's leaf (R107, R114): its write is answered, or fails. -/
theorem decode_write {root : HuffTree} {b : Fin 256} {w : Nat} {s : State} (ho : s.outstanding = none)
    (ht : s.tree = some root) :
    (s.PromptFor 1 → engineStep (.decode (.leaf (byteSym b) w)) s =
      .more (.decode root) (s.streamed 0 (bin 8 b.val) [.outWrite 8 b.val])) ∧
    ∀ k left, s.nextAnswer = .fail k left → engineStep (.decode (.leaf (byteSym b) w)) s =
      .raised .ioFailure 2 0 (s.streamed 0 ((bin 8 b.val).take k) [.outWrite 8 b.val]) := by
  have hv : (byteSym b).val = b.val := rfl
  refine ⟨fun hp => ?_, fun k left hf => ?_⟩
  · simp only [engineStep, decodeStep, ht, decodeLeaf, if_neg (byteSym_ne_eofSym b), hv,
      outWrite_prompt (n := 8) b.val (by decide) hp ho]
  · simp only [engineStep, decodeStep, ht, decodeLeaf, if_neg (byteSym_ne_eofSym b), hv,
      outWrite_fail (n := 8) b.val (by decide) hf ho]

/-- A failing read of DECODE (R107). -/
theorem decode_read_fail {root l r : HuffTree} {w : Nat} {s : State} {k : Nat} {left : Bits}
    (ht : s.tree = some root) (hf : s.nextAnswer = .fail k left) (ho : s.outstanding = none) :
    engineStep (.decode (.node l r w)) s =
      .raised .ioFailure 1 0 { s.streamed 0 [] [.inRead 1] with inPos := k } := by
  simp only [engineStep, decodeStep, ht, decodeNode, inRead_fail _ hf ho]

/-- The scans of a byte sequence (R113, R114). -/
theorem decode_bytes {root : HuffTree} (bytes : List (Fin 256)) (x : Bits) (s : State)
    (hp : s.PromptFor (decodeCalls root.codeOf bytes).length) (ho : s.outstanding = none)
    (ht : s.tree = some root) (hm : ∀ b ∈ bytes, byteSym b ∈ root.leaves)
    (hr : s.rest = codesOf root.codeOf bytes ++ x) :
    ∃ k, Steps k (.more (.decode root) s)
        (.more (.decode root) (s.streamed (codesOf root.codeOf bytes).length (byteBits bytes)
          (decodeCalls root.codeOf bytes))) ∧
      ((∀ b ∈ bytes, root.codeOf (byteSym b) ≠ some []) → k ≤ 2 * (codesOf root.codeOf bytes).length) := by
  induction bytes generalizing s with
  | nil =>
    refine ⟨0, ?_, by simp⟩
    show Steps 0 _ (.more _ (s.streamed 0 [] []))
    rw [streamed_zero]; exact .refl _
  | cons b bytes ih =>
    obtain ⟨c, hc⟩ := HuffTree.codeOf_some (hm b (by simp))
    have hbc : byteCode root.codeOf b = c := by rw [byteCode, hc]; rfl
    rw [decodeCalls_cons, hbc] at hp ⊢
    rw [codesOf_cons, hbc] at hr ⊢
    rw [List.length_append] at hp
    obtain ⟨w, hat⟩ := HuffTree.at?_codeOf hc
    have h1 := decode_walk c root _ s _ (hp.mono (by simp; omega)) ho ht (by rw [hr, List.append_assoc]) hat
    have hp1 : (s.streamed c.length [] (bitReads c.length)).PromptFor 1 :=
      State.PromptFor.streamed (hp.mono (by simp)) _ _
    have h2 := h1.trans (.one ((decode_write (root := root) (s := s.streamed _ _ _) ho ht).1 hp1))
    rw [streamed_streamed] at h2
    obtain ⟨k, h3, hk⟩ := ih (s.streamed (c.length + 0) ([] ++ bin 8 b.val) (bitReads c.length ++ [.outWrite 8 b.val]))
      (hp.streamed _ _) ho ht (fun y hy => hm y (by simp [hy])) (by rw [streamed_rest, hr]; simp)
    refine ⟨c.length + 1 + k, ?_, ?_⟩
    · have h4 := h2.trans h3
      rw [streamed_streamed] at h4
      rw [List.length_append, byteBits_cons]
      exact h4
    · intro hne
      have hc0 : c ≠ [] := by rintro rfl; exact hne b (by simp) hc
      have := List.length_pos_iff.mpr hc0
      have := hk fun y hy => hne y (by simp [hy])
      rw [List.length_append]; omega

/-- The scan that ends at the EOF leaf (R111). -/
theorem decode_eof {root : HuffTree} {e x : Bits} {s : State} (hp : s.PromptFor e.length)
    (ho : s.outstanding = none) (ht : s.tree = some root) (he : root.codeOf eofSym = some e)
    (hr : s.rest = e ++ x) :
    Steps (e.length + 1) (.more (.decode root) s) (.done (s.streamed e.length [] (bitReads e.length))) := by
  obtain ⟨w, hat⟩ := HuffTree.at?_codeOf he
  refine (decode_walk e root _ s x hp ho ht hr hat).trans (.one ?_)
  have ht' : (s.streamed e.length [] (bitReads e.length)).tree = some root := ht
  simp only [engineStep, decodeStep, ht', decodeLeaf, if_pos]

/-- The body of a byte sequence, by its parts (R65). -/
theorem HuffTree.body_eq {t : HuffTree} {bytes : List (Fin 256)} {b : Bits} (h : t.body bytes = some b) :
    (∀ x ∈ bytes, byteSym x ∈ t.leaves) ∧ ∃ e, t.codeOf eofSym = some e ∧
      b = (bytes.flatMap fun x => (t.codeOf (byteSym x)).getD []) ++ e := by
  induction bytes generalizing b with
  | nil => exact ⟨by simp, b, h, by simp⟩
  | cons x bytes ih =>
    simp only [body] at h
    split at h
    · rename_i c rest hc hrest
      cases h
      obtain ⟨h1, e, h2, h3⟩ := ih hrest
      refine ⟨?_, e, h2, by simp [hc, h3]⟩
      intro y hy
      rcases List.mem_cons.mp hy with rfl | hy
      · exact (t.codeOf_isSome _).mp (by rw [hc]; rfl)
      · exact h1 y hy
    · cases h

end Sys2Proof.Machine
end

