-- ==== Sys2Proof/Laws/Frame.lean ====
section
/-! SUPPORT. What a piece of work, and so a run of a command, may change: the tables and streams its
command may touch (spec/10_state.md rules R20, R25; spec/20_memory.md rules R40, R41) and nothing else. -/

namespace Sys2Proof.Machine

/-- `P` holds of the state a command stands in. -/
def Progress.Holds (P : State → Prop) : Progress → Prop
  | .more _ s => P s
  | .wait _ s => P s
  | .done s => P s
  | .raised _ _ _ s => P s
  | .stuck _ => True

theorem Progress.Holds.mono {P Q : State → Prop} (h : ∀ s, P s → Q s) {p : Progress} (hp : p.Holds P) :
    p.Holds Q := by
  cases p <;> first | exact h _ hp | trivial

/-- What may differ between `s` and a later state `t` of the same command, `op` being its OPC. -/
structure WorkFrame (op : BitVec 4) (s t : State) : Prop where
  others : t = { s with
    status := { s.status with treeValid := t.status.treeValid, codesValid := t.status.codesValid }
    tree := t.tree
    code := t.code
    inPos := t.inPos
    out := t.out
    calls := t.calls
    answers := t.answers
    outstanding := t.outstanding }
  tree : op ∉ [0x4, 0x9] → t.tree = s.tree ∧ t.status.treeValid = s.status.treeValid
  code : op ∉ [0x4, 0x5, 0x9] → t.code = s.code ∧ t.status.codesValid = s.status.codesValid
  inPos : op ∉ [0x7, 0x9, 0xA] → t.inPos = s.inPos
  out : op ∉ [0x6, 0x7, 0x8, 0xA] → t.out = s.out
  grows : op ≠ 0x8 → s.out <+: t.out
  calls : ∃ cs, t.calls = s.calls ++ cs ∧ ∀ c ∈ cs, mayCall op c = true
  quiet : op ∈ [0x4, 0x5] → t.calls = s.calls ∧ t.answers = s.answers ∧ t.outstanding = s.outstanding

theorem WorkFrame.refl (op : BitVec 4) (s : State) : WorkFrame op s s where
  others := rfl
  tree _ := ⟨rfl, rfl⟩
  code _ := ⟨rfl, rfl⟩
  inPos _ := rfl
  out _ := rfl
  grows _ := List.prefix_rfl
  calls := ⟨[], by simp, by simp⟩
  quiet _ := ⟨rfl, rfl, rfl⟩

theorem WorkFrame.trans {op : BitVec 4} {s t u : State} (h : WorkFrame op s t) (h' : WorkFrame op t u) :
    WorkFrame op s u where
  others := by
    have h1 := h'.others
    have h2 := h.others
    generalize t.tree = a1, t.code = a2, t.inPos = a3, t.out = a4, t.calls = a5, t.answers = a6,
      t.outstanding = a7, t.status.treeValid = a8, t.status.codesValid = a9 at h2
    rw [h2] at h1
    exact h1
  tree ho := ⟨(h'.tree ho).1.trans (h.tree ho).1, (h'.tree ho).2.trans (h.tree ho).2⟩
  code ho := ⟨(h'.code ho).1.trans (h.code ho).1, (h'.code ho).2.trans (h.code ho).2⟩
  inPos ho := (h'.inPos ho).trans (h.inPos ho)
  out ho := (h'.out ho).trans (h.out ho)
  grows ho := (h.grows ho).trans (h'.grows ho)
  calls := by
    obtain ⟨cs, h1, h2⟩ := h.calls
    obtain ⟨ds, h3, h4⟩ := h'.calls
    refine ⟨cs ++ ds, by rw [h3, h1, List.append_assoc], fun c hc => ?_⟩
    rcases List.mem_append.mp hc with hc | hc
    · exact h2 c hc
    · exact h4 c hc
  quiet ho := ⟨(h'.quiet ho).1.trans (h.quiet ho).1, (h'.quiet ho).2.1.trans (h.quiet ho).2.1,
    (h'.quiet ho).2.2.trans (h.quiet ho).2.2⟩

theorem CallFrame.callsMay {op : BitVec 4} {c : Call} {s t : State} (h : CallFrame c s t)
    (hm : mayCall op c = true) : ∃ cs, t.calls = s.calls ++ cs ∧ ∀ c ∈ cs, mayCall op c = true := by
  rcases h.callsGrow with h | h
  · exact ⟨[], by simpa using h, by simp⟩
  · exact ⟨[c], h, by simpa using hm⟩

theorem WorkFrame.callsPrefix {op : BitVec 4} {s t : State} (h : WorkFrame op s t) : s.calls <+: t.calls := by
  obtain ⟨cs, h, -⟩ := h.calls
  exact ⟨cs, h.symm⟩

/-- Which commands may read, and which may write or flush. -/
theorem mayCall_op {op : BitVec 4} {c : Call} (h : mayCall op c = true) :
    ((∃ n, c = .inRead n) → op ∈ [0x7, 0x9, 0xA]) ∧
    ((∀ n, c ≠ .inRead n) → op ∈ [0x6, 0x7, 0x8, 0xA]) ∧ (c = .outFlush → op = 0x8) := by
  cases c with
  | inRead n =>
    simp only [mayCall, decide_eq_true_eq] at h
    refine ⟨fun _ => ?_, fun hn => absurd rfl (hn n), by simp⟩
    rcases h with ⟨rfl, -⟩ | ⟨rfl, -⟩ | ⟨rfl, -⟩ <;> decide
  | outWrite n v =>
    simp only [mayCall, decide_eq_true_eq] at h
    refine ⟨by simp, fun _ => ?_, by simp⟩
    rcases h with ⟨rfl, -⟩ | ⟨rfl, -⟩ | ⟨rfl, -⟩ <;> decide
  | outFlush =>
    simp only [mayCall, decide_eq_true_eq] at h
    subst h
    exact ⟨by simp, fun _ => by decide, fun _ => rfl⟩

theorem StreamsOnly.withValid {s t : State} (h : StreamsOnly s t) : t = { s with
    status := { s.status with treeValid := t.status.treeValid, codesValid := t.status.codesValid }
    tree := t.tree
    code := t.code
    inPos := t.inPos
    out := t.out
    calls := t.calls
    answers := t.answers
    outstanding := t.outstanding } := by
  have h1 : t.status = s.status := by rw [h]
  have h2 : t.tree = s.tree := by rw [h]
  have h3 : t.code = s.code := by rw [h]
  rw [h1, h2, h3]
  exact h

theorem StreamsOnly.kept {s t : State} (h : StreamsOnly s t) :
    t.status = s.status ∧ t.tree = s.tree ∧ t.code = s.code := by
  rw [h]; exact ⟨rfl, rfl, rfl⟩

/-- A command that uses a stream is none of those that use none. -/
theorem not_quiet : ∀ op : BitVec 4, op ∈ [0x6, 0x7, 0x8, 0x9, 0xA] → op ∉ [0x4, 0x5] := by decide

/-- A read as a piece of work of ENCODE, RDHDR or DECODE. -/
theorem WorkFrame.read {n : Nat} {op : BitVec 4} {s t : State} (h : CallFrame (.inRead n) s t)
    (hm : mayCall op (.inRead n) = true) : WorkFrame op s t where
  others := h.streams.withValid
  tree _ := by obtain ⟨h1, h2, -⟩ := h.streams.kept; exact ⟨h2, by rw [h1]⟩
  code _ := by obtain ⟨h1, -, h3⟩ := h.streams.kept; exact ⟨h3, by rw [h1]⟩
  inPos ho' := absurd ((mayCall_op hm).1 ⟨n, rfl⟩) ho'
  out _ := h.readKeepsOut ⟨n, rfl⟩
  grows _ := h.grows (by simp)
  calls := h.callsMay hm
  quiet ho' := by
    have ho := (mayCall_op hm).1 ⟨n, rfl⟩
    exact absurd ho' (not_quiet op (by simp only [List.mem_cons, List.not_mem_nil, or_false] at ho ⊢; tauto))

/-- A write or a flush as a piece of work of WRHDR, ENCODE, FLUSH or DECODE. -/
theorem WorkFrame.write {c : Call} {op : BitVec 4} {s t : State} (h : CallFrame c s t)
    (hc : ∀ n, c ≠ .inRead n) (hm : mayCall op c = true) : WorkFrame op s t where
  others := h.streams.withValid
  tree _ := by obtain ⟨h1, h2, -⟩ := h.streams.kept; exact ⟨h2, by rw [h1]⟩
  code _ := by obtain ⟨h1, -, h3⟩ := h.streams.kept; exact ⟨h3, by rw [h1]⟩
  inPos _ := h.writeKeepsIn hc
  out ho' := absurd ((mayCall_op hm).2.1 hc) ho'
  grows ho' := h.grows fun hh => ho' ((mayCall_op hm).2.2 hh)
  calls := h.callsMay hm
  quiet ho' := by
    have ho := (mayCall_op hm).2.1 hc
    exact absurd ho' (not_quiet op (by simp only [List.mem_cons, List.not_mem_nil, or_false] at ho ⊢; tauto))

theorem outFlush_cases (s : State) :
    (∃ t, outFlush s = .ok t ∧ CallFrame .outFlush s t ∧ t.outstanding = none) ∨
    (∃ t, outFlush s = .fail t ∧ CallFrame .outFlush s t ∧ t.outstanding = none) ∨
    (∃ t, outFlush s = .wait t ∧ CallFrame .outFlush s t ∧ t.outstanding = some .outFlush) := by
  rcases callCollab_cases .outFlush s with ⟨t, h, hf, ho, -⟩ | ⟨t, h, hf, ho⟩ | ⟨t, h, hf, ho, -⟩
  · exact .inl ⟨t, h, hf, ho⟩
  · exact .inr (.inl ⟨t, h, hf, ho⟩)
  · exact .inr (.inr ⟨t, h, hf, ho⟩)

/-- A write of WRHDR, ENCODE or DECODE, whatever its outcome. -/
theorem outWrite_frame {op : BitVec 4} (n v : Nat) (s : State)
    (hm : n ≠ 0 → mayCall op (.outWrite n v) = true) :
    (∃ t, outWrite n v s = .ok t ∧ WorkFrame op s t) ∨
    (∃ t, outWrite n v s = .fail t ∧ WorkFrame op s t) ∨
    (∃ t, outWrite n v s = .wait t ∧ WorkFrame op s t) := by
  rcases outWrite_cases n v s with ⟨-, h⟩ | ⟨hn, ⟨t, h, hf, -⟩ | ⟨t, k, h, hf, -⟩ | ⟨t, h, hf, -⟩⟩
  · exact .inl ⟨s, h, .refl _ _⟩
  · exact .inl ⟨t, h, .write hf (by simp) (hm hn)⟩
  · exact .inr (.inl ⟨t, h, .write hf (by simp) (hm hn)⟩)
  · exact .inr (.inr ⟨t, h, .write hf (by simp) (hm hn)⟩)

/-- TREE written at the end of BUILD or RDHDR. -/
theorem WorkFrame.holdTree {op : BitVec 4} (t : HuffTree) (s : State) (ho : op ∈ [0x4, 0x9]) :
    WorkFrame op s (s.holdTree t) where
  others := rfl
  tree ho' := absurd ho ho'
  code _ := ⟨rfl, rfl⟩
  inPos _ := rfl
  out _ := rfl
  grows _ := List.prefix_rfl
  calls := ⟨[], by simp [State.holdTree], by simp⟩
  quiet _ := ⟨rfl, rfl, rfl⟩

/-- CODE and CODES_VALID written by GENCODES. -/
theorem WorkFrame.code_of {s t : State}
    (h : t = { s with code := t.code, status := { s.status with codesValid := t.status.codesValid } }) :
    WorkFrame 0x5 s t := by
  generalize t.code = a, t.status.codesValid = b at h
  subst h
  exact ⟨rfl, fun _ => ⟨rfl, rfl⟩, fun h => absurd (by decide) h, fun _ => rfl, fun _ => rfl, fun _ => List.prefix_rfl,
    ⟨[], by simp, by simp⟩, fun _ => ⟨rfl, rfl, rfl⟩⟩

/-- A piece of work keeps to the frame of its command, and the command stays the same. -/
theorem engineStep_frame (w : Work) (s : State) :
    (engineStep w s).Holds (WorkFrame w.opcode s) ∧
    (∀ w' t, engineStep w s = .more w' t → w'.opcode = w.opcode) ∧
    ∀ w' t, engineStep w s = .wait w' t → w' = w := by
  cases w with
  | build pq nextSeq =>
    simp only [engineStep, buildStep]
    split
    · simp [Progress.Holds]
    · split
      · exact ⟨.holdTree _ _ (by simp [Work.opcode]), by simp, by simp⟩
      · exact ⟨.refl _ _, by rintro _ _ ⟨⟩; rfl, by simp⟩
  | gencodes stack =>
    simp only [engineStep, gencodesStep]
    split
    · exact ⟨.code_of rfl, by simp, by simp⟩
    · exact ⟨.code_of rfl, by rintro _ _ ⟨⟩; rfl, by simp⟩
    · exact ⟨.refl _ _, by rintro _ _ ⟨⟩; rfl, by simp⟩
  | wrhdr stack =>
    have key : ∀ n v here after, mayCall 0x6 (.outWrite n v) = true → here = stack → (wrhdrWrite n v here after s).Holds (WorkFrame 0x6 s) ∧
        (∀ w' t, wrhdrWrite n v here after s = .more w' t → w'.opcode = 0x6) ∧
        ∀ w' t, wrhdrWrite n v here after s = .wait w' t → w' = .wrhdr stack := by
      rintro n v here after hm rfl
      unfold wrhdrWrite
      rcases outWrite_frame (op := 0x6) n v s (fun _ => hm) with ⟨t, h, hf⟩ | ⟨t, h, hf⟩ | ⟨t, h, hf⟩ <;>
        rw [h] <;> refine ⟨hf, ?_, ?_⟩ <;> rintro _ _ ⟨⟩ <;> rfl
    simp only [engineStep, wrhdrStep]
    split
    · exact ⟨.refl _ _, by simp, by simp⟩
    · exact key _ _ _ _ (by decide) rfl
    · exact key _ _ _ _ (by decide) rfl
    · rename_i x _
      exact key _ _ _ _ (by simp [mayCall]; omega) rfl
  | encode phase =>
    cases phase with
    | fetch =>
      simp only [engineStep, encodeStep, encodeFetch]
      split
      · simp [Progress.Holds]
      · rename_i code hc
        rcases inRead_cases 8 s with ⟨t, h, -, hf, -⟩ | ⟨t, h, -, hf, -⟩ | ⟨t, h, hf, -⟩ | ⟨t, h, hf, -⟩ <;>
          rw [h] <;> have hw := WorkFrame.read (op := 0x7) hf (by decide)
        · simp only [encodeByte]
          split
          · exact ⟨hw, by simp, by simp⟩
          · exact ⟨hw, by rintro _ _ ⟨⟩; rfl, by simp⟩
        · simp only [encodeEnd]
          split
          · simp [Progress.Holds]
          · exact ⟨hw, by rintro _ _ ⟨⟩; rfl, by simp⟩
        · exact ⟨hw, by simp, by simp⟩
        · exact ⟨hw, by simp, by rintro _ _ ⟨⟩; rfl⟩
    | emit c =>
      simp only [engineStep, encodeStep]
      rcases outWrite_frame (op := 0x7) c.length (val c) s (by simp [mayCall]) with ⟨t, h, hf⟩ | ⟨t, h, hf⟩ | ⟨t, h, hf⟩ <;>
        rw [h] <;> refine ⟨hf, ?_, ?_⟩ <;> rintro _ _ ⟨⟩ <;> rfl
    | last c =>
      simp only [engineStep, encodeStep]
      rcases outWrite_frame (op := 0x7) c.length (val c) s (by simp [mayCall]) with ⟨t, h, hf⟩ | ⟨t, h, hf⟩ | ⟨t, h, hf⟩ <;>
        rw [h] <;> refine ⟨hf, ?_, ?_⟩ <;> rintro _ _ ⟨⟩ <;> rfl
  | flush =>
    simp only [engineStep, flushStep]
    rcases outFlush_cases s with ⟨t, h, hf, -⟩ | ⟨t, h, hf, -⟩ | ⟨t, h, hf, -⟩ <;>
      rw [h] <;> refine ⟨.write hf (by simp) (by decide), ?_, ?_⟩ <;> rintro _ _ ⟨⟩ <;> rfl
  | rdhdr phase seen nint stack =>
    simp only [engineStep, rdhdrStep]
    cases phase with
    | marker =>
      dsimp only
      rcases inRead_cases 1 s with ⟨t, h, -, hf, -⟩ | ⟨t, h, -, hf, -⟩ | ⟨t, h, hf, -⟩ | ⟨t, h, hf, -⟩ <;>
        rw [h] <;> have hw := WorkFrame.read (op := 0x9) hf (by decide) <;> dsimp only
      · split
        · simp only [rdhdrInternal]
          split
          · exact ⟨hw, by simp, by simp⟩
          · exact ⟨hw, by rintro _ _ ⟨⟩; rfl, by simp⟩
        · exact ⟨hw, by rintro _ _ ⟨⟩; rfl, by simp⟩
      · exact ⟨hw, by simp, by simp⟩
      · exact ⟨hw, by simp, by simp⟩
      · exact ⟨hw, by simp, by rintro _ _ ⟨⟩; rfl⟩
    | field =>
      dsimp only
      rcases inRead_cases 9 s with ⟨t, h, -, hf, -⟩ | ⟨t, h, -, hf, -⟩ | ⟨t, h, hf, -⟩ | ⟨t, h, hf, -⟩ <;>
        rw [h] <;> have hw := WorkFrame.read (op := 0x9) hf (by decide) <;> dsimp only
      · simp only [rdhdrLeaf]
        split
        · split
          · exact ⟨hw, by simp, by simp⟩
          · split
            · simp only [rdhdrEnd]
              split
              · exact ⟨hw.trans (.holdTree _ _ (by decide)), by simp, by simp⟩
              · exact ⟨hw, by simp, by simp⟩
            · exact ⟨hw, by rintro _ _ ⟨⟩; rfl, by simp⟩
        · exact ⟨hw, by simp, by simp⟩
      · exact ⟨hw, by simp, by simp⟩
      · exact ⟨hw, by simp, by simp⟩
      · exact ⟨hw, by simp, by rintro _ _ ⟨⟩; rfl⟩
  | decode cur =>
    simp only [engineStep, decodeStep]
    split
    · simp [Progress.Holds]
    · split
      · simp only [decodeLeaf]
        split
        · exact ⟨.refl _ _, by simp, by simp⟩
        · rename_i x _ hx
          have hb : x.val < 256 := by
            have : x.val ≠ 256 := fun h => hx (Fin.ext h)
            omega
          rcases outWrite_frame (op := 0xA) 8 x.val s (fun _ => by simp [mayCall, hb]) with ⟨t, h, hf⟩ | ⟨t, h, hf⟩ | ⟨t, h, hf⟩ <;>
            rw [h] <;> refine ⟨hf, ?_, ?_⟩ <;> rintro _ _ ⟨⟩ <;> rfl
      · simp only [decodeNode]
        rcases inRead_cases 1 s with ⟨t, h, -, hf, -⟩ | ⟨t, h, -, hf, -⟩ | ⟨t, h, hf, -⟩ | ⟨t, h, hf, -⟩ <;>
          rw [h] <;> have hw := WorkFrame.read (op := 0xA) hf (by decide)
        · exact ⟨hw, by rintro _ _ ⟨⟩; rfl, by simp⟩
        · exact ⟨hw, by simp, by simp⟩
        · exact ⟨hw, by simp, by simp⟩
        · exact ⟨hw, by simp, by rintro _ _ ⟨⟩; rfl⟩

/-- The valid bits cleared and what stands behind them dropped, as BUILD and RDHDR begin. -/
theorem WorkFrame.dropTree {op : BitVec 4} (s : State) (ho : op ∈ [0x4, 0x9]) :
    WorkFrame op s s.dropTree where
  others := rfl
  tree ho' := absurd ho ho'
  code ho' := absurd (by simp only [List.mem_cons, List.not_mem_nil, or_false] at ho ⊢; tauto) ho'
  inPos _ := rfl
  out _ := rfl
  grows _ := List.prefix_rfl
  calls := ⟨[], by simp [State.dropTree, State.setValid], by simp⟩
  quiet _ := ⟨rfl, rfl, rfl⟩

/-- A command stands in the frame of its beginning `s`, and its work is of its own kind. -/
def Progress.Within (op : BitVec 4) (s : State) (p : Progress) : Prop :=
  p.Holds (WorkFrame op s) ∧ (∀ w t, p = .more w t → w.opcode = op) ∧ ∀ w t, p = .wait w t → w.opcode = op

/-- A run of pieces of work keeps to the frame of its command. -/
theorem Steps.within {k : Nat} {op : BitVec 4} {s₀ : State} {p q : Progress} (h : Steps k p q)
    (hp : p.Within op s₀) : q.Within op s₀ := by
  induction h with
  | refl => exact hp
  | @step k w s q h ih =>
    have e := hp.2.1 w s rfl
    obtain ⟨h1, h2, h3⟩ := engineStep_frame w s
    exact ih ⟨h1.mono fun t ht => WorkFrame.trans hp.1 (e ▸ ht), fun w' t h' => (h2 w' t h').trans e,
      fun w' t h' => (h3 w' t h') ▸ e⟩

/-- The next state of a command that stands in its frame. -/
theorem finish_within {op : BitVec 4} {s₀ u : State} {p : Progress} (h : finish op p = .next u)
    (hp : p.Within op s₀) :
    ∃ t, WorkFrame op s₀ t ∧
      (u = endCommand t ∨ (∃ e sub sym, u = raiseError op e sub sym t) ∨ ∃ w, w.opcode = op ∧ u = suspend w t) := by
  obtain ⟨k, q, hs, he⟩ := finish_next h
  obtain ⟨h1, -, h3⟩ := hs.within hp
  cases he with
  | done t => exact ⟨t, h1, .inl rfl⟩
  | raised e sub sym t => exact ⟨t, h1, .inr (.inl ⟨_, _, _, rfl⟩)⟩
  | wait w t => exact ⟨t, h1, .inr (.inr ⟨w, h3 w t rfl, rfl⟩)⟩

/-- BUILD to DECODE begin in their frame. -/
theorem bodyOf_within {i : Instr} (s : State) (hi : i.opcode ∈ [0x4, 0x5, 0x6, 0x7, 0x8, 0x9, 0xA]) :
    (bodyOf i s).Within i.opcode s := by
  cases i <;> simp [Instr.opcode] at hi
  · simp only [bodyOf, buildStart]
    split
    · exact ⟨.dropTree _ (by simp [Instr.opcode]), by simp, by simp⟩
    · exact ⟨.dropTree _ (by simp [Instr.opcode]), by rintro _ _ ⟨⟩; rfl, by simp⟩
  · simp only [bodyOf, gencodesStart]
    split
    · split
      · simp [Progress.Within, Progress.Holds]
      · exact ⟨.code_of rfl, by rintro _ _ ⟨⟩; rfl, by simp⟩
    · exact ⟨.refl _ _, by simp, by simp⟩
  · simp only [bodyOf, wrhdrStart]
    split
    · split
      · simp [Progress.Within, Progress.Holds]
      · exact ⟨.refl _ _, by rintro _ _ ⟨⟩; rfl, by simp⟩
    · exact ⟨.refl _ _, by simp, by simp⟩
  · simp only [bodyOf, encodeStart]
    split
    · exact ⟨.refl _ _, by rintro _ _ ⟨⟩; rfl, by simp⟩
    · exact ⟨.refl _ _, by simp, by simp⟩
  · exact ⟨.refl _ _, by rintro _ _ ⟨⟩; rfl, by rintro _ _ ⟨⟩⟩
  · exact ⟨.dropTree _ (by simp [Instr.opcode]), by rintro _ _ ⟨⟩; rfl, by rintro _ _ ⟨⟩⟩
  · simp only [bodyOf, decodeStart]
    split
    · split
      · simp [Progress.Within, Progress.Holds]
      · exact ⟨.refl _ _, by rintro _ _ ⟨⟩; rfl, by simp⟩
    · exact ⟨.refl _ _, by simp, by simp⟩

end Sys2Proof.Machine
end

