-- ==== Sys2Proof/Laws/TreeBuilder.lean ====
section
/-! SUPPORT. What BUILD's loop does to the leaves and the weights of the trees in PQ, and the order of its
merges (spec/41_tree_builder.md rules R79, R81, R82, R84). -/

namespace Sys2Proof.Machine

/-! ### The priority collection -/

theorem removeMin_eq_none {pq : List PqEntry} : removeMin pq = none ↔ pq = [] := by
  cases pq with
  | nil => simp [removeMin]
  | cons e pq =>
    simp only [removeMin]
    split
    · simp
    · split <;> simp

/-- What is removed and what is left are together what was there. -/
theorem removeMin_perm {pq : List PqEntry} {e : PqEntry} {others : List PqEntry}
    (h : removeMin pq = some (e, others)) : pq.Perm (e :: others) := by
  induction pq generalizing e others with
  | nil => cases h
  | cons a pq ih =>
    simp only [removeMin] at h
    split at h
    · rename_i hn
      cases h
      rw [removeMin_eq_none.mp hn]
    · rename_i m rest hm
      split at h
      · cases h
        exact ((ih hm).cons a).trans (List.Perm.swap _ _ _)
      · cases h; exact List.Perm.refl _

/-! ### The weights of a tree -/

theorem HuffTree.leaves_eq (t : HuffTree) : t.leaves = t.weightedLeaves.map Prod.fst := by
  induction t with
  | leaf => rfl
  | node l r w hl hr => simp [leaves, weightedLeaves, hl, hr]

theorem HuffTree.weight_eq_sum {t : HuffTree} (h : t.weightsAdd = true) :
    t.weight = (t.weightedLeaves.map Prod.snd).sum := by
  induction t with
  | leaf => simp [weight, weightedLeaves]
  | node l r w hl hr =>
    simp only [weightsAdd, Bool.and_eq_true, decide_eq_true_eq] at h
    simp [weight, weightedLeaves, ← hl h.1.2, ← hr h.2, h.1.1]

theorem HuffTree.weightsPositive_iff (t : HuffTree) :
    t.weightsPositive = true ↔ ∀ x ∈ t.weightedLeaves, 0 < x.2 := by
  induction t with
  | leaf => simp [weightsPositive, weightedLeaves]
  | node l r w hl hr =>
    simp only [weightsPositive, Bool.and_eq_true, hl, hr, weightedLeaves, List.mem_append]
    constructor
    · rintro ⟨h1, h2⟩ x (h | h)
      · exact h1 x h
      · exact h2 x h
    · exact fun h => ⟨fun x hx => h x (.inl hx), fun x hx => h x (.inr hx)⟩

/-! ### The merges -/

/-- The leaves of the trees of PQ. -/
def pqLeaves (pq : List PqEntry) : List (Sym × Nat) := pq.flatMap fun e => e.tree.weightedLeaves

theorem mergeEntry_leaves (a b : PqEntry) (n : Nat) (rest : List PqEntry) :
    pqLeaves (mergeEntry a b n :: rest) = a.tree.weightedLeaves ++ b.tree.weightedLeaves ++ pqLeaves rest := by
  simp [pqLeaves, mergeEntry, HuffTree.weightedLeaves]

/-- One turn of BUILD's loop: PQ's leaves stay, and so do its sums. -/
theorem buildStep_cases {pq : List PqEntry} (nextSeq : Nat) (hne : pq ≠ [])
    (hadd : ∀ e ∈ pq, e.tree.weightsAdd = true) :
    (∃ t, (∀ s, buildStep pq nextSeq s = .done (s.holdTree t)) ∧ pq.length = 1 ∧
      t.weightedLeaves.Perm (pqLeaves pq) ∧ t.weightsAdd = true) ∨
    (∃ pq', (∀ s, buildStep pq nextSeq s = .more (.build pq' (nextSeq + 1)) s) ∧
      pq'.length + 1 = pq.length ∧ pq' ≠ [] ∧ (pqLeaves pq').Perm (pqLeaves pq) ∧
      ∀ e ∈ pq', e.tree.weightsAdd = true) := by
  cases h1 : removeMin pq with
  | none => exact absurd (removeMin_eq_none.mp h1) hne
  | some x =>
    obtain ⟨a, others⟩ := x
    have hp := removeMin_perm h1
    have hl1 := hp.length_eq
    have ha := hadd a (hp.mem_iff.mpr (by simp))
    cases h2 : removeMin others with
    | none =>
      have he := removeMin_eq_none.mp h2
      subst he
      refine .inl ⟨a.tree, fun s => by simp [buildStep, h1, h2], by simpa using hl1, ?_, ha⟩
      have := (hp.flatMap_right fun e => e.tree.weightedLeaves).symm
      simpa [pqLeaves] using this
    | some y =>
      obtain ⟨b, rest⟩ := y
      have hp2 := removeMin_perm h2
      have hl2 := hp2.length_eq
      have hall : pq.Perm (a :: b :: rest) := hp.trans (hp2.cons a)
      have hb := hadd b (hall.mem_iff.mpr (by simp))
      refine .inr ⟨mergeEntry a b nextSeq :: rest, fun s => by simp [buildStep, h1, h2], ?_, by simp, ?_, ?_⟩
      · simp at hl1 hl2 ⊢; omega
      · rw [mergeEntry_leaves]
        have := (hall.flatMap_right fun e => e.tree.weightedLeaves).symm
        simpa [pqLeaves] using this
      · intro e he
        rcases List.mem_cons.mp he with rfl | he
        · simp [mergeEntry, HuffTree.weightsAdd, ha, hb]
        · exact hadd e (hall.mem_iff.mpr (by simp [he]))

/-- BUILD's loop ends with one tree, a function of PQ alone, with PQ's leaves. -/
theorem build_steps (n : Nat) {pq : List PqEntry} (nextSeq : Nat) (hn : pq.length = n + 1)
    (hadd : ∀ e ∈ pq, e.tree.weightsAdd = true) :
    ∃ t, (∀ s, Steps (n + 1) (.more (.build pq nextSeq) s) (.done (s.holdTree t))) ∧
      t.weightedLeaves.Perm (pqLeaves pq) ∧ t.weightsAdd = true := by
  induction n generalizing pq nextSeq with
  | zero =>
    have hne : pq ≠ [] := by rintro rfl; simp at hn
    rcases buildStep_cases nextSeq hne hadd with ⟨t, h, -, h3, h4⟩ | ⟨pq', h, h2, h3, -⟩
    · exact ⟨t, fun s => .one (h s), h3, h4⟩
    · have := List.length_pos_iff.mpr h3; omega
  | succ n ih =>
    have hne : pq ≠ [] := by rintro rfl; simp at hn
    rcases buildStep_cases nextSeq hne hadd with ⟨t, h, h2, -⟩ | ⟨pq', h, h2, h3, h4, h5⟩
    · omega
    · obtain ⟨t, hs, ht, hw⟩ := ih (nextSeq + 1) (by omega) h5
      refine ⟨t, fun s => .step ?_, ht.trans h4, hw⟩
      rw [engineStep, h s]
      exact hs s

/-! ### The initial entries -/

/-- The leaves of the bytes from value `b` on. -/
theorem byteEntries_leaves (counts : List Nat) (b : Nat) (x : Sym × Nat) (hb : b + counts.length ≤ 257) :
    x ∈ pqLeaves (byteEntries counts b) ↔
      ∃ i, ∃ h : i < counts.length, x.1.val = b + i ∧ x.2 = counts[i] ∧ 0 < counts[i] := by
  induction counts generalizing b with
  | nil => simp [pqLeaves, byteEntries]
  | cons c counts ih =>
    simp only [List.length_cons] at hb
    have ih := ih (b + 1) (by omega)
    have hv : (Fin.ofNat 257 b).val = b := by simp [Fin.ofNat]; omega
    have step : ∀ P : Prop, (P ↔ x.1.val = b ∧ x.2 = c ∧ 0 < c) →
        (P ∨ x ∈ pqLeaves (byteEntries counts (b + 1)) ↔
          ∃ i, ∃ h : i < (c :: counts).length, x.1.val = b + i ∧ x.2 = (c :: counts)[i] ∧ 0 < (c :: counts)[i]) := by
      intro P hP
      rw [hP, ih]
      constructor
      · rintro (h | ⟨i, hi, h1, h2, h3⟩)
        · exact ⟨0, by simp, by simpa using h⟩
        · exact ⟨i + 1, by simpa using hi, by omega, by simpa using h2, by simpa using h3⟩
      · rintro ⟨i, hi, h1, h2, h3⟩
        cases i with
        | zero => exact .inl ⟨by simpa using h1, by simpa using h2, by simpa using h3⟩
        | succ i => exact .inr ⟨i, by simpa using hi, by omega, by simpa using h2, by simpa using h3⟩
    simp only [byteEntries]
    split
    · rename_i hc
      rw [← step (x = (Fin.ofNat 257 b, c))]
      · simp [pqLeaves, leafEntry, HuffTree.weightedLeaves]
      · constructor
        · rintro rfl; exact ⟨hv, rfl, hc⟩
        · rintro ⟨h1, h2, -⟩
          exact Prod.ext (Fin.ext (h1.trans hv.symm)) h2
    · rename_i hc
      rw [← step False (by simp; omega)]
      simp

/-- Each byte has one leaf. -/
theorem byteEntries_nodup (counts : List Nat) (b : Nat) (hb : b + counts.length ≤ 257) :
    ((pqLeaves (byteEntries counts b)).map Prod.fst).Nodup := by
  induction counts generalizing b with
  | nil => simp [pqLeaves, byteEntries]
  | cons c counts ih =>
    simp only [List.length_cons] at hb
    have ih := ih (b + 1) (by omega)
    simp only [byteEntries]
    split
    · have hv : (Fin.ofNat 257 b).val = b := by simp [Fin.ofNat]; omega
      have : pqLeaves (leafEntry (Fin.ofNat 257 b) c :: byteEntries counts (b + 1)) =
          (Fin.ofNat 257 b, c) :: pqLeaves (byteEntries counts (b + 1)) := by
        simp [pqLeaves, leafEntry, HuffTree.weightedLeaves]
      rw [this, List.map_cons, List.nodup_cons]
      refine ⟨?_, ih⟩
      rintro h
      obtain ⟨x, hx, h1⟩ := List.mem_map.mp h
      obtain ⟨i, _, h2, -⟩ := (byteEntries_leaves counts (b + 1) x (by omega)).mp hx
      have h3 : x.1.val = (Fin.ofNat 257 b).val := congrArg Fin.val h1
      omega
    · exact ih

theorem byteEntries_sum (counts : List Nat) (b : Nat) :
    ((pqLeaves (byteEntries counts b)).map Prod.snd).sum = counts.sum := by
  induction counts generalizing b with
  | nil => simp [pqLeaves, byteEntries]
  | cons c counts ih =>
    simp only [byteEntries]
    split
    · have := ih (b + 1)
      simp [pqLeaves, leafEntry, HuffTree.weightedLeaves] at this ⊢
      exact this
    · have : c = 0 := by omega
      simp [ih, this]

theorem byteEntries_adds (counts : List Nat) (b : Nat) :
    ∀ e ∈ byteEntries counts b, e.tree.weightsAdd = true := by
  induction counts generalizing b with
  | nil => simp [byteEntries]
  | cons c counts ih =>
    simp only [byteEntries]
    split
    · intro e he
      rcases List.mem_cons.mp he with rfl | he
      · rfl
      · exact ih _ e he
    · exact ih _

theorem initialPq_leaves (freq : Table Nat 256) :
    pqLeaves (initialPq freq) = pqLeaves (byteEntries freq.entries 0) ++ [(eofSym, 1)] := by
  simp [pqLeaves, initialPq, leafEntry, HuffTree.weightedLeaves]

theorem initialPq_adds (freq : Table Nat 256) : ∀ e ∈ initialPq freq, e.tree.weightsAdd = true := by
  intro e he
  rcases List.mem_append.mp he with he | he
  · exact byteEntries_adds _ _ e he
  · rcases List.mem_singleton.mp he with rfl; rfl

/-- The leaves of PQ as BUILD fills it (R79): the bytes with a count, and EOF with 1. -/
theorem mem_initialPq (freq : Table Nat 256) (x : Sym × Nat) :
    x ∈ pqLeaves (initialPq freq) ↔
      x = (eofSym, 1) ∨ ∃ b, x = (byteSym b, freq.get b) ∧ 0 < freq.get b := by
  rw [initialPq_leaves, List.mem_append, List.mem_singleton, or_comm,
    byteEntries_leaves _ _ _ (by rw [freq.size_eq]; omega)]
  refine or_congr Iff.rfl ⟨?_, ?_⟩
  · rintro ⟨i, h, h1, h2, h3⟩
    refine ⟨⟨i, freq.size_eq ▸ h⟩, Prod.ext (Fin.ext ?_) h2, h3⟩
    simp [byteSym, h1]
  · rintro ⟨b, rfl, h⟩
    exact ⟨b.val, by rw [freq.size_eq]; exact b.isLt, by simp [byteSym], rfl, h⟩

theorem initialPq_nodup (freq : Table Nat 256) : ((pqLeaves (initialPq freq)).map Prod.fst).Nodup := by
  rw [initialPq_leaves, List.map_append, List.nodup_append]
  refine ⟨byteEntries_nodup _ _ (by rw [freq.size_eq]; omega), by simp, ?_⟩
  intro a ha b hb hab
  obtain ⟨x, hx, rfl⟩ := List.mem_map.mp ha
  obtain ⟨i, hi, h1, -⟩ := (byteEntries_leaves _ _ x (by rw [freq.size_eq]; omega)).mp hx
  simp at hb
  rw [freq.size_eq] at hi
  have := congrArg Fin.val (hab.trans hb)
  simp [eofSym] at this
  omega

theorem initialPq_ne_nil (freq : Table Nat 256) : initialPq freq ≠ [] := by simp [initialPq]

/-! ### The order of the merges -/

/-- The removed entry stands before all others, where no two entries have one seq (R81). -/
theorem removeMin_before {pq : List PqEntry} {e : PqEntry} {others : List PqEntry}
    (hn : (pq.map PqEntry.seq).Nodup) (h : removeMin pq = some (e, others)) : ∀ x ∈ others, e.Before x := by
  induction pq generalizing e others with
  | nil => cases h
  | cons a pq ih =>
    simp only [List.map_cons, List.nodup_cons] at hn
    simp only [removeMin] at h
    split at h
    · cases h; simp
    · rename_i m rest hm
      have hp := removeMin_perm hm
      have hle := ih hn.2 hm
      have hma : m.seq ≠ a.seq := fun e =>
        hn.1 (List.mem_map.mpr ⟨m, hp.mem_iff.mpr (by simp), e⟩)
      split at h <;> rename_i hk <;> cases h <;> simp [keyLt] at hk <;> intro x hx
      · rcases List.mem_cons.mp hx with rfl | hx
        · exact hk
        · exact hle x hx
      · rcases List.mem_cons.mp (hp.mem_iff.mp hx) with rfl | hx
        · simp only [PqEntry.Before]; omega
        · have := hle x hx
          simp only [PqEntry.Before] at this ⊢; omega

/-- BUILD's loop makes the merges of R82, if no two entries have one seq and all are below NEXTSEQ. -/
theorem build_merges (n : Nat) {pq : List PqEntry} {nextSeq : Nat} {t : HuffTree} {s : State}
    (hn : (pq.map PqEntry.seq).Nodup) (hlt : ∀ e ∈ pq, e.seq < nextSeq)
    (h : Steps n (.more (.build pq nextSeq) s) (.done (s.holdTree t))) :
    Merges pq nextSeq t := by
  induction n generalizing pq nextSeq with
  | zero => cases h
  | succ n ih =>
    obtain _ | ⟨h⟩ := h
    simp only [engineStep, buildStep] at h
    split at h
    · cases h
    · rename_i a others h1
      have hp := removeMin_perm h1
      split at h
      · rename_i h2
        rw [removeMin_eq_none] at h2
        subst h2
        have e : a.tree = t := by
          generalize hq : Progress.done (s.holdTree t) = q at h
          cases h
          have := congrArg State.tree (Progress.done.inj hq)
          simpa [State.holdTree] using this.symm
        rw [← e, List.perm_singleton.mp hp]
        exact .last a nextSeq
      · rename_i b rest h2
        have hp2 := removeMin_perm h2
        have hall : pq.Perm (a :: b :: rest) := hp.trans (hp2.cons a)
        have hn' := (hall.map PqEntry.seq).nodup_iff.mp hn
        simp only [List.map_cons, List.nodup_cons] at hn'
        have hn2 : (others.map PqEntry.seq).Nodup := by
          have := (hp.map PqEntry.seq).nodup_iff.mp hn
          exact (List.nodup_cons.mp this).2
        have hbelow : ∀ x ∈ rest, x.seq < nextSeq := fun x hx => hlt x (hall.mem_iff.mpr (by simp [hx]))
        refine .merge hall (fun x hx => removeMin_before hn h1 x (hp2.mem_iff.mpr hx))
          (removeMin_before hn2 h2) (ih ?_ ?_ h)
        · simp only [List.map_cons, List.nodup_cons]
          refine ⟨fun hm => ?_, hn'.2.2⟩
          obtain ⟨x, hx, e⟩ := List.mem_map.mp hm
          have := hbelow x hx
          exact absurd e (by show x.seq ≠ nextSeq; omega)
        · intro e he
          rcases List.mem_cons.mp he with rfl | he
          · exact Nat.lt_succ_self _
          · have := hbelow e he; omega

/-- The entries PQ starts with, by their Symbols (R79). -/
theorem mem_byteEntries (counts : List Nat) (b : Nat) (e : PqEntry) :
    e ∈ byteEntries counts b ↔
      ∃ i, ∃ h : i < counts.length, 0 < counts[i] ∧ e = leafEntry (Fin.ofNat 257 (b + i)) counts[i] := by
  induction counts generalizing b with
  | nil => simp [byteEntries]
  | cons c counts ih =>
    have key : (∃ i, ∃ h : i < (c :: counts).length, 0 < (c :: counts)[i] ∧
          e = leafEntry (Fin.ofNat 257 (b + i)) (c :: counts)[i]) ↔
        (0 < c ∧ e = leafEntry (Fin.ofNat 257 b) c) ∨ e ∈ byteEntries counts (b + 1) := by
      rw [ih]
      constructor
      · rintro ⟨i, hi, h1, h2⟩
        cases i with
        | zero => exact .inl ⟨h1, h2⟩
        | succ i => exact .inr ⟨i, by simpa using hi, h1, by rw [Nat.add_assoc, Nat.add_comm 1]; exact h2⟩
      · rintro (⟨h1, h2⟩ | ⟨i, hi, h1, h2⟩)
        · exact ⟨0, by simp, h1, h2⟩
        · exact ⟨i + 1, by simpa using hi, h1, by rw [Nat.add_assoc, Nat.add_comm 1] at h2; exact h2⟩
    rw [key]
    simp only [byteEntries]
    split <;> simp [*]

theorem byteEntries_seq (counts : List Nat) (b : Nat) (hb : b + counts.length ≤ 257) :
    ((byteEntries counts b).map PqEntry.seq).Nodup ∧
      ∀ e ∈ byteEntries counts b, b ≤ e.seq ∧ e.seq < b + counts.length := by
  induction counts generalizing b with
  | nil => simp [byteEntries]
  | cons c counts ih =>
    simp only [List.length_cons] at hb ⊢
    obtain ⟨h1, h2⟩ := ih (b + 1) (by omega)
    have hv : (Fin.ofNat 257 b).val = b := by simp [Fin.ofNat]; omega
    simp only [byteEntries]
    split
    · refine ⟨List.nodup_cons.mpr ⟨fun hm => ?_, h1⟩, ?_⟩
      · obtain ⟨e, he, h3⟩ := List.mem_map.mp hm
        have := h2 e he
        simp only [leafEntry, hv] at h3
        omega
      · intro e he
        rcases List.mem_cons.mp he with rfl | he
        · simp only [leafEntry, hv]; omega
        · have := h2 e he; omega
    · exact ⟨h1, fun e he => by have := h2 e he; omega⟩

/-- No two of the entries PQ starts with have one seq, and all are below 257 (R79, R81). -/
theorem initialPq_seq (freq : Table Nat 256) :
    ((initialPq freq).map PqEntry.seq).Nodup ∧ ∀ e ∈ initialPq freq, e.seq < 257 := by
  obtain ⟨h1, h2⟩ := byteEntries_seq freq.entries 0 (by rw [freq.size_eq]; omega)
  rw [freq.size_eq] at h2
  constructor
  · rw [initialPq, List.map_append, List.nodup_append]
    refine ⟨h1, by simp, ?_⟩
    intro x hx y hy hxy
    obtain ⟨e, he, rfl⟩ := List.mem_map.mp hx
    have := h2 e he
    simp [leafEntry, eofSym] at hy
    omega
  · intro e he
    rcases List.mem_append.mp he with he | he
    · have := h2 e he; omega
    · rcases List.mem_singleton.mp he with rfl; decide

/-- The entries PQ starts with (R79). -/
theorem mem_initialPq_entry (freq : Table Nat 256) (e : PqEntry) :
    e ∈ initialPq freq ↔ e = { weight := 1, seq := 256, tree := .leaf eofSym 1 } ∨
      ∃ b, 0 < freq.get b ∧
          e = { weight := freq.get b, seq := b.val, tree := .leaf (byteSym b) (freq.get b) } := by
  rw [initialPq, List.mem_append, List.mem_singleton, or_comm, mem_byteEntries]
  refine or_congr Iff.rfl ⟨?_, ?_⟩
  · rintro ⟨i, h, h1, rfl⟩
    refine ⟨⟨i, freq.size_eq ▸ h⟩, h1, ?_⟩
    have : Fin.ofNat 257 (0 + i) = byteSym ⟨i, freq.size_eq ▸ h⟩ := by
      apply Fin.ext; have := freq.size_eq ▸ h; simp [Fin.ofNat, byteSym]; omega
    rw [this]; rfl
  · rintro ⟨b, hb, rfl⟩
    refine ⟨b.val, by rw [freq.size_eq]; exact b.isLt, hb, ?_⟩
    have : Fin.ofNat 257 (0 + b.val) = byteSym b := by
      apply Fin.ext; simp [Fin.ofNat, byteSym]; omega
    rw [this]; rfl

end Sys2Proof.Machine
end

