-- ==== Sys2Proof/Laws/Invariant.lean ====
section
/-! SUPPORT. A command under the invariant: from a place that fits the block's state, a piece of work leads
to such a place, to the command's end or to a wait, with less left to do
(spec/10_state.md rules R19 to R33, spec/40_control.md rule R75). -/

namespace Sys2Proof.Machine

/-- The part of the invariant that no stream command touches. -/
structure State.Base (s : State) : Prop where
  width : Config.minWCount ≤ s.wCount
  freqFits : ∀ c ∈ s.freq.entries, c < 2 ^ s.wCount
  countFits : s.result.count < 2 ^ s.wCount
  lenFits : s.result.len.toNat ≤ Config.maxCodeLen
  bitsFit : s.result.bits.toNat < 2 ^ s.result.len.toNat
  absentReads : s.result.present = false → s.result.len = 0
  errKnown : s.status.err.toNat ≤ 7
  errClear : s.status.err = 0 → s.status.errOp = 0 ∧ s.status.errSub = 0 ∧ s.status.errSym = 0
  rejAfterError : s.status.rej = true → s.status.err ≠ 0

/-- The part about TREE and CODE. -/
structure State.Held (s : State) : Prop where
  treeHeld : s.status.treeValid = s.tree.isSome
  codesHeld : s.status.codesValid = s.code.isSome
  treeProper : ∀ t, s.tree = some t → t.Proper
  treeWeights : ∀ t, s.tree = some t → t.BuiltWeights ∨ t = t.strip
  codesOfTree : ∀ table, s.code = some table → ∃ t, s.tree = some t ∧ ∀ x, table.get x = t.codeOf x

theorem State.Base.congr {s t : State} (h : s.Base) (h1 : t.wCount = s.wCount) (h2 : t.freq = s.freq)
    (h3 : t.result = s.result) (h4 : t.status.err = s.status.err ∧ t.status.errOp = s.status.errOp ∧
      t.status.errSub = s.status.errSub ∧ t.status.errSym = s.status.errSym ∧ t.status.rej = s.status.rej) : t.Base := by
  obtain ⟨a, b, c, d, e⟩ := h4
  obtain ⟨i1, i2, i3, i4, i5, i6, i7, i8, i9⟩ := h
  constructor <;> simp only [h1, h2, h3, a, b, c, d, e] <;> assumption

theorem State.Held.congr {s t : State} (h : s.Held) (h1 : t.tree = s.tree) (h2 : t.code = s.code)
    (h3 : t.status.treeValid = s.status.treeValid) (h4 : t.status.codesValid = s.status.codesValid) : t.Held := by
  obtain ⟨i1, i2, i3, i4, i5⟩ := h
  constructor <;> simp only [h1, h2, h3, h4] <;> assumption

theorem State.Base.frame {op} {s t : State} (h : s.Base) (hf : WorkFrame op s t) : t.Base := by
  have := hf.others
  exact h.congr (by rw [this]) (by rw [this]) (by rw [this]) (by rw [this]; exact ⟨rfl, rfl, rfl, rfl, rfl⟩)

/-- A stream command at a piece of its work. -/
structure Work.Runs (w : Work) (s : State) : Prop where
  held : s.Held
  fits : w.Fits s
  waits : s.outstanding = none ∨ s.outstanding = w.pendingCall

/-- The pieces of work a stream command still has are fewer than this. -/
def Work.measure (w : Work) (s : State) : Nat :=
  match w with
  | .build _ _ => 0
  | .gencodes _ => 0
  | .wrhdr stack => writeCost stack
  | .encode .fetch => 2 * s.remaining + 2
  | .encode (.emit _) => 2 * s.remaining + 3
  | .encode (.last _) => 0
  | .flush => 0
  | .rdhdr _ _ _ _ => s.remaining
  | .decode (.leaf _ _) => 2 * s.remaining + 2
  | .decode (.node _ _ _) => 2 * s.remaining + 1

theorem Work.measure_lt {w : Work} {s : State} (h : ∀ stack, w ≠ .gencodes stack) : w.measure s < workBound w s := by
  cases w with
  | encode p => cases p <;> simp [measure, workBound]
  | decode c => cases c <;> simp [measure, workBound]
  | gencodes st => exact absurd rfl (h st)
  | _ => simp [measure, workBound]

/-- Where a stream command stands after a piece of its work. -/
def Progress.Good (w : Work) (s : State) : Progress → Prop
  | .more w' t => w'.Runs t ∧ w'.measure t < w.measure s
  | .wait w' t => w' = w ∧ t.Held ∧ w.Fits t ∧ ∃ c, t.outstanding = some c ∧ w.pendingCall = some c
  | .done t => t.Held ∧ t.outstanding = none
  | .raised _ _ _ t => t.Held ∧ t.outstanding = none
  | .stuck _ => False

theorem CallFrame.held {c : Call} {s t : State} (h : CallFrame c s t) (hs : s.Held) : t.Held := by
  obtain ⟨h1, h2, h3⟩ := h.streams.kept
  exact hs.congr h2 h3 (by rw [h1]) (by rw [h1])

theorem Work.Fits.congr {w : Work} {s t : State} (h : w.Fits s) (h1 : t.status = s.status) (h2 : t.tree = s.tree) : w.Fits t := by
  cases w <;> simp only [Work.Fits, h1, h2] at h ⊢ <;> exact h

theorem CallFrame.fits {c : Call} {s t : State} (h : CallFrame c s t) {w : Work} (hs : w.Fits s) : w.Fits t := by
  obtain ⟨h1, h2, -⟩ := h.streams.kept
  exact hs.congr h1 h2

theorem CallFrame.remaining {c : Call} {s t : State} (h : CallFrame c s t) : t.remaining = s.inp.length - t.inPos := by
  rw [State.remaining]; rw [h.streams]

theorem CallFrame.remaining_write {c : Call} {s t : State} (h : CallFrame c s t) (hc : ∀ n, c ≠ .inRead n) : t.remaining = s.remaining := by
  rw [h.remaining, h.writeKeepsIn hc]; rfl

theorem wrhdr_good {n v : Nat} {here after : List HdrItem} {s : State} (h : (Work.wrhdr here).Runs s) (hn : n ≠ 0)
    (hp : (Work.wrhdr here).pendingCall = some (.outWrite n v)) (hm : writeCost after < writeCost here) :
    (wrhdrWrite n v here after s).Good (.wrhdr here) s := by
  unfold wrhdrWrite
  rcases outWrite_cases n v s with ⟨h0, -⟩ | ⟨-, ⟨t, e, hf, ho, -⟩ | ⟨t, k, e, hf, ho, -⟩ | ⟨t, e, hf, ho, -⟩⟩ 
  · exact absurd h0 hn
  all_goals rw [e]
  · exact ⟨⟨hf.held h.held, hf.fits (w := .wrhdr after) h.fits, .inl ho⟩, hm⟩
  · exact ⟨hf.held h.held, ho⟩
  · exact ⟨rfl, hf.held h.held, hf.fits h.fits, _, ho, hp⟩

theorem emit_good {c : Bits} {s : State} {p : EncodePhase} (h : (Work.encode p).Runs s)
    (hp : (Work.encode p).pendingCall = if c = [] then none else some (.outWrite c.length (val c))) 
    (P : State → Progress) (hP : ∀ t, t.Held → t.status.codesValid = true → t.outstanding = none → t.remaining = s.remaining → (P t).Good (.encode p) s) :
    (match outWrite c.length (val c) s with
    | .ok s' => P s'
    | .fail s' => .raised .ioFailure 2 0 s'
    | .wait s' => .wait (.encode p) s' : Progress).Good (.encode p) s := by
  rcases outWrite_cases c.length (val c) s with ⟨h0, e⟩ | ⟨h0, ⟨t, e, hf, ho, -⟩ | ⟨t, k, e, hf, ho, -⟩ | ⟨t, e, hf, ho, -⟩⟩ 
  all_goals rw [e]
  · refine hP s h.held h.fits ?_ rfl
    have : c = [] := List.length_eq_zero_iff.mp h0
    rw [if_pos this] at hp
    rcases h.waits with h | h
    · exact h
    · rw [h, hp]
  · exact hP t (hf.held h.held) (hf.fits (w := .encode p) h.fits) ho (hf.remaining_write (by simp))
  · exact ⟨hf.held h.held, ho⟩
  · have : c ≠ [] := by rintro rfl; exact h0 rfl
    rw [if_neg this] at hp
    exact ⟨rfl, hf.held h.held, hf.fits h.fits, _, ho, hp⟩

theorem encode_good {p : EncodePhase} {s : State} (h : (Work.encode p).Runs s) :
    (engineStep (.encode p) s).Good (.encode p) s := by
  cases p with
  | emit c =>
    refine emit_good h rfl (fun s' => .more (.encode .fetch) s') ?_
    intro t h1 h2 h3 h4
    exact ⟨⟨h1, h2, .inl h3⟩, by simp [Work.measure, h4]⟩
  | last c =>
    refine emit_good h rfl (fun s' => .done s') ?_
    intro t h1 h2 h3 h4
    exact ⟨h1, h3⟩
  | fetch =>
    have hcv : s.status.codesValid = true := h.fits
    have hc := h.held.codesHeld
    rw [hcv] at hc
    obtain ⟨code, hc⟩ := Option.isSome_iff_exists.mp hc.symm
    obtain ⟨t0, ht0, hcode⟩ := h.held.codesOfTree code hc
    have heof : codeAt code 256 = t0.codeOf eofSym := by
      simp only [codeAt]; exact hcode _
    simp only [engineStep, encodeStep, encodeFetch, hc]
    rcases inRead_cases 8 s with ⟨t, e, hle, hf, ho, hpos⟩ | ⟨t, e, hlt, hf, ho, hpos⟩ | ⟨t, e, hf, ho⟩ | ⟨t, e, hf, ho, -⟩ <;> rw [e] <;> dsimp only
    · simp only [encodeByte]
      split
      · exact ⟨hf.held h.held, ho⟩
      · refine ⟨⟨hf.held h.held, hf.fits (w := .encode .fetch) h.fits, .inl ho⟩, ?_⟩
        have : t.remaining = s.remaining - 8 := by rw [hf.remaining, hpos]; simp [State.remaining]; omega
        simp only [Work.measure]; omega
    · simp only [encodeEnd, heof]
      obtain ⟨e, he⟩ := HuffTree.codeOf_some (h.held.treeProper t0 ht0).2
      rw [he]
      exact ⟨⟨hf.held h.held, hf.fits (w := .encode .fetch) h.fits, .inl ho⟩, by simp [Work.measure]⟩
    · exact ⟨hf.held h.held, ho⟩
    · exact ⟨rfl, hf.held h.held, hf.fits h.fits, _, ho, rfl⟩

theorem read_remaining {n : Nat} {s t : State} (hf : CallFrame (.inRead n) s t) (hpos : t.inPos = s.inPos + n) :
    t.remaining = s.remaining - n := by rw [hf.remaining, hpos]; simp [State.remaining]; omega

theorem root_at {t : HuffTree} {p q : Bits} {c d : HuffTree} (h : t.at? p = some c) (h' : c.at? q = some d) : t.at? (p ++ q) = some d := by
  rw [HuffTree.at?_append, h]; exact h'

theorem decode_good {cur : HuffTree} {s : State} (h : (Work.decode cur).Runs s) :
    (engineStep (.decode cur) s).Good (.decode cur) s := by
  obtain ⟨root, p, hroot, hat⟩ := h.fits
  simp only [engineStep, decodeStep, hroot]
  cases cur with
  | leaf x w =>
    simp only [decodeLeaf]
    split
    · rename_i hx
      refine ⟨h.held, ?_⟩
      rcases h.waits with h | h
      · exact h
      · rw [h]; simp [Work.pendingCall, hx]
    · rename_i hx
      rcases outWrite_cases 8 x.val s with ⟨h0, -⟩ | ⟨-, ⟨t, e, hf, ho, -⟩ | ⟨t, k, e, hf, ho, -⟩ | ⟨t, e, hf, ho, -⟩⟩ 
      · cases h0
      all_goals rw [e]
      · refine ⟨⟨hf.held h.held, hf.fits (w := .decode root) ⟨root, [], hroot, by simp⟩, .inl ho⟩, ?_⟩
        cases root with
        | leaf y v =>
          exfalso
          have hy := (h.held.treeProper _ hroot).2
          cases p with
          | nil => simp at hat; simp [HuffTree.leaves] at hy; exact hx (hat.1.symm.trans hy.symm)
          | cons b p => cases hat
        | node l r v =>
          simp only [Work.measure]
          have := hf.remaining_write (by simp)
          omega
      · exact ⟨hf.held h.held, ho⟩
      · exact ⟨rfl, hf.held h.held, hf.fits h.fits, _, ho, by simp [Work.pendingCall, hx]⟩
  | node l r w =>
    simp only [decodeNode]
    rcases inRead_cases 1 s with ⟨t, e, hle, hf, ho, hpos⟩ | ⟨t, e, hlt, hf, ho, hpos⟩ | ⟨t, e, hf, ho⟩ | ⟨t, e, hf, ho, -⟩ <;> rw [e] <;> dsimp only
    · have hfit : (Work.decode (if val (s.rest.take 1) = 0 then l else r)).Fits s := by
        split
        · exact ⟨root, p ++ [false], hroot, root_at hat (by simp [HuffTree.at?])⟩
        · exact ⟨root, p ++ [true], hroot, root_at hat (by simp [HuffTree.at?])⟩
      refine ⟨⟨hf.held h.held, hf.fits hfit, .inl ho⟩, ?_⟩
      have := read_remaining hf hpos
      generalize (if val (s.rest.take 1) = 0 then l else r) = c
      cases c <;> simp only [Work.measure] <;> omega
    · exact ⟨hf.held h.held, ho⟩
    · exact ⟨hf.held h.held, ho⟩
    · exact ⟨rfl, hf.held h.held, hf.fits h.fits, _, ho, rfl⟩

theorem flush_good {s : State} (h : Work.flush.Runs s) : (engineStep .flush s).Good .flush s := by
  simp only [engineStep, flushStep]
  rcases outFlush_cases s with ⟨t, e, hf, ho⟩ | ⟨t, e, hf, ho⟩ | ⟨t, e, hf, ho⟩ <;> rw [e]
  · exact ⟨hf.held h.held, ho⟩
  · exact ⟨hf.held h.held, ho⟩
  · exact ⟨rfl, hf.held h.held, hf.fits h.fits, _, ho, rfl⟩

theorem wrhdrStep_good {stack : List HdrItem} {s : State} (h : (Work.wrhdr stack).Runs s) :
    (engineStep (.wrhdr stack) s).Good (.wrhdr stack) s := by
  simp only [engineStep]
  unfold wrhdrStep
  split
  · refine ⟨h.held, ?_⟩
    rcases h.waits with h | h
    · exact h
    · rw [h]; rfl
  · exact wrhdr_good h (by simp) rfl (by simp [writeCost, HuffTree.nodeCount]; omega)
  · exact wrhdr_good h (by simp) rfl (by simp [writeCost, HuffTree.nodeCount])
  · exact wrhdr_good h (by simp) rfl (by simp [writeCost])

/-- A subtree returned to the parse: leaves, counts. -/
theorem returnTree_cases (t : HuffTree) (stack : List (Option HuffTree)) :
    (∃ u, returnTree t stack = .inl u ∧ u.leaves.Perm (t.leaves ++ (stackTrees stack).flatMap HuffTree.leaves) ∧
      ((t = t.strip ∧ ∀ x ∈ stackTrees stack, x = x.strip) → u = u.strip)) ∨
    (∃ stack', returnTree t stack = .inr stack' ∧
      ((stackTrees stack').flatMap HuffTree.leaves).Perm (t.leaves ++ (stackTrees stack).flatMap HuffTree.leaves) ∧
      ((t = t.strip ∧ ∀ x ∈ stackTrees stack, x = x.strip) → ∀ x ∈ stackTrees stack', x = x.strip) ∧
      stack'.length + ((stackTrees stack').map HuffTree.internalCount).sum =
        stack.length + ((stackTrees stack).map HuffTree.internalCount).sum + t.internalCount) := by
  induction stack generalizing t with
  | nil => exact .inl ⟨t, rfl, by simp [stackTrees], fun h => h.1⟩
  | cons e stack ih =>
    cases e with
    | none => 
      refine .inr ⟨some t :: stack, rfl, by simp [stackTrees], ?_, ?_⟩
      · rintro ⟨h1, h2⟩ x hx
        simp only [stackTrees, List.mem_cons] at hx
        rcases hx with rfl | hx
        · exact h1
        · exact h2 x hx
      · simp [stackTrees]; omega
    | some l =>
      have hl : (HuffTree.node l t 0).leaves = l.leaves ++ t.leaves := rfl
      rcases ih (.node l t 0) with ⟨u, h, hp, hs⟩ | ⟨st, h, hp, hs, hc⟩
      · refine .inl ⟨u, h, ?_, ?_⟩
        · refine hp.trans ?_
          rw [hl]
          simp only [stackTrees, List.flatMap_cons]
          rw [← List.append_assoc]
          exact List.Perm.append_right _ List.perm_append_comm
        · rintro ⟨h1, h2⟩
          simp only [stackTrees, List.mem_cons] at h2
          refine hs ⟨?_, fun x hx => h2 x (.inr hx)⟩
          have := h2 l (.inl rfl)
          rw [HuffTree.strip, ← this, ← h1]
      · refine .inr ⟨st, h, ?_, ?_, ?_⟩
        · refine hp.trans ?_
          rw [hl]
          simp only [stackTrees, List.flatMap_cons]
          rw [← List.append_assoc]
          exact List.Perm.append_right _ List.perm_append_comm
        · rintro ⟨h1, h2⟩
          simp only [stackTrees, List.mem_cons] at h2
          refine hs ⟨?_, fun x hx => h2 x (.inr hx)⟩
          have := h2 l (.inl rfl)
          rw [HuffTree.strip, ← this, ← h1]
        · rw [hc]; simp [stackTrees, HuffTree.internalCount]; omega

theorem rdhdr_good {phase : ParsePhase} {seen : List Sym} {nint : Nat} {stack : List (Option HuffTree)} {s : State}
    (h : (Work.rdhdr phase seen nint stack).Runs s) :
    (engineStep (.rdhdr phase seen nint stack) s).Good (.rdhdr phase seen nint stack) s := by
  obtain ⟨htv, hcv, hnd, hperm, hstrip, hnint, hle⟩ := h.fits
  simp only [engineStep]
  unfold rdhdrStep
  cases phase with
  | marker =>
    dsimp only
    rcases inRead_cases 1 s with ⟨t, e, hle', hf, ho, hpos⟩ | ⟨t, e, hlt, hf, ho, hpos⟩ | ⟨t, e, hf, ho⟩ | ⟨t, e, hf, ho, -⟩ <;> rw [e] <;> dsimp only
    · have hr := read_remaining hf hpos
      split
      · unfold rdhdrInternal
        split
        · exact ⟨hf.held h.held, ho⟩
        · refine ⟨⟨hf.held h.held, hf.fits (w := .rdhdr .marker seen (nint+1) (none :: stack)) ?_, .inl ho⟩, ?_⟩
          · exact ⟨htv, hcv, hnd, by simpa [stackTrees] using hperm, by simpa [stackTrees] using hstrip, by simp [stackTrees]; omega, by omega⟩
          · simp only [Work.measure]; omega
      · exact ⟨⟨hf.held h.held, hf.fits (w := .rdhdr .field seen nint stack) h.fits, .inl ho⟩, by simp only [Work.measure]; omega⟩
    · exact ⟨hf.held h.held, ho⟩
    · exact ⟨hf.held h.held, ho⟩
    · exact ⟨rfl, hf.held h.held, hf.fits h.fits, _, ho, rfl⟩
  | field =>
    dsimp only
    rcases inRead_cases 9 s with ⟨t, e, hle', hf, ho, hpos⟩ | ⟨t, e, hlt, hf, ho, hpos⟩ | ⟨t, e, hf, ho⟩ | ⟨t, e, hf, ho, -⟩ <;> rw [e] <;> dsimp only
    · have hr := read_remaining hf hpos
      unfold rdhdrLeaf
      split
      · rename_i hv
        split
        · exact ⟨hf.held h.held, ho⟩
        · rename_i hns
          have hsing : (HuffTree.leaf ⟨_, hv⟩ 0).leaves = [⟨_, hv⟩] := rfl
          rcases returnTree_cases (.leaf ⟨_, hv⟩ 0) stack with ⟨u, hu, hp, hs⟩ | ⟨st, hu, hp, hs, hc⟩ <;> rw [hu] <;> dsimp only
          · unfold rdhdrEnd
            split
            · rename_i heof
              refine ⟨?_, ho⟩
              have hT := hf.held h.held
              have hp' : u.leaves.Perm (⟨_, hv⟩ :: seen) := by
                refine hp.trans ?_
                rw [hsing]
                exact hperm.symm.cons _
              obtain ⟨k1, k2, k3⟩ := hf.streams.kept
              refine ⟨rfl, hT.codesHeld, ?_, ?_, ?_⟩
              · rintro _ ⟨⟩
                exact ⟨hp'.nodup_iff.mpr (List.nodup_cons.mpr ⟨hns, hnd⟩), hp'.mem_iff.mpr heof⟩
              · rintro _ ⟨⟩
                exact .inr (hs ⟨rfl, hstrip⟩)
              · intro table hc
                have := hT.codesHeld
                rw [k1, hcv] at this
                have hc' : t.code = some table := hc
                rw [hc'] at this; cases this
            · exact ⟨hf.held h.held, ho⟩
          · refine ⟨⟨hf.held h.held, hf.fits (w := .rdhdr .marker _ nint st) ?_, .inl ho⟩, ?_⟩
            · refine ⟨htv, hcv, List.nodup_cons.mpr ⟨hns, hnd⟩, ?_, hs ⟨rfl, hstrip⟩, ?_, hle⟩
              · refine List.Perm.trans ?_ hp.symm
                rw [hsing]
                exact hperm.cons _
              · rw [hnint, hc]; simp [HuffTree.internalCount]
            · simp only [Work.measure]; omega
      · exact ⟨hf.held h.held, ho⟩
    · exact ⟨hf.held h.held, ho⟩
    · exact ⟨hf.held h.held, ho⟩
    · exact ⟨rfl, hf.held h.held, hf.fits h.fits, _, ho, rfl⟩

/-- A piece of work of a stream command leads to a good place. -/
theorem engineStep_good {w : Work} {s : State} (h : w.Runs s) : (engineStep w s).Good w s := by
  cases w with
  | build => exact h.fits.elim
  | gencodes => exact h.fits.elim
  | wrhdr => exact wrhdrStep_good h
  | encode => exact encode_good h
  | flush => exact flush_good h
  | rdhdr => exact rdhdr_good h
  | decode => exact decode_good h

/-- How a stream command that began at `s` ends its step. -/
inductive GoodEnd (op : BitVec 4) (s : State) : State → Prop where
  | done (t : State) (hf : WorkFrame op s t) (h : t.Held) (ho : t.outstanding = none) :
      GoodEnd op s (endCommand t)
  | raised (e : ErrKind) (sub : BitVec 3) (sym : BitVec 9) (t : State) (hf : WorkFrame op s t) (h : t.Held)
      (ho : t.outstanding = none) : GoodEnd op s (raiseError op e sub sym t)
  | wait (w : Work) (c : Call) (t : State) (hf : WorkFrame op s t) (h : t.Held) (hw : w.opcode = op)
      (hfit : w.Fits t) (ho : t.outstanding = some c) (hp : w.pendingCall = some c) :
      GoodEnd op s (suspend w t)

theorem runEngine_good {op : BitVec 4} {n : Nat} {w : Work} {s₀ s : State} (h : w.Runs s) (hn : w.measure s < n)
    (hw : (Progress.more w s).Within op s₀) :
    ∃ u, runEngine op n (.more w s) = .next u ∧ GoodEnd op s₀ u := by
  induction n generalizing w s with
  | zero => omega
  | succ n ih =>
    have hg := engineStep_good h
    have hwi := (Steps.one (w := w) (s := s) rfl).within hw
    rw [runEngine]
    cases hp : engineStep w s with
    | more w' t => rw [hp] at hg hwi; exact ih hg.1 (by have := hg.2; omega) hwi
    | wait w' t =>
      rw [hp] at hg hwi; obtain ⟨rfl, h1, h2, c, h3, h4⟩ := hg
      exact ⟨_, runEngine_wait .., .wait _ c t hwi.1 h1 (hwi.2.2 _ _ rfl) h2 h3 h4⟩
    | done t => rw [hp] at hg hwi; exact ⟨_, runEngine_done .., .done t hwi.1 hg.1 hg.2⟩
    | raised e sub sym t => rw [hp] at hg hwi; exact ⟨_, runEngine_raised .., .raised e sub sym t hwi.1 hg.1 hg.2⟩
    | stuck f => rw [hp] at hg; exact hg.elim

/-- A stream command, begun or resumed at a fitting place, ends its step with a next state. -/
theorem finish_good {op : BitVec 4} {w : Work} {s : State} (h : w.Runs s) (hop : w.opcode = op) :
    ∃ u, finish op (.more w s) = .next u ∧ GoodEnd op s u := by
  refine runEngine_good h (Work.measure_lt ?_) ⟨.refl _ _, by rintro _ _ ⟨⟩; exact hop, by simp⟩
  rintro st rfl
  exact h.fits

theorem inv_of_idle {t : State} (h1 : t.Base) (h2 : t.Held) (hb : t.status.busy = false) (hl : t.latch = none) (hw : t.work = none)
    (ho : t.outstanding = none) : t.Inv where
  width := h1.width
  freqFits := h1.freqFits
  countFits := h1.countFits
  lenFits := h1.lenFits
  bitsFit := h1.bitsFit
  absentReads := h1.absentReads
  errKnown := h1.errKnown
  errClear := h1.errClear
  rejAfterError := h1.rejAfterError
  treeHeld := h2.treeHeld
  codesHeld := h2.codesHeld
  treeProper := h2.treeProper
  treeWeights := h2.treeWeights
  codesOfTree := h2.codesOfTree
  idle _ := ⟨hl, hw, ho⟩
  running h := by rw [hb] at h; cases h

theorem State.Inv.base {s : State} (h : s.Inv) : s.Base := ⟨h.1, h.2, h.3, h.4, h.5, h.6, h.7, h.8, h.9⟩
theorem State.Inv.held {s : State} (h : s.Inv) : s.Held := ⟨h.10, h.11, h.12, h.13, h.14⟩

theorem inv_end {t : State} (h1 : t.Base) (h2 : t.Held) (hw : t.work = none) (ho : t.outstanding = none) : (endCommand t).Inv :=
  inv_of_idle (h1.congr rfl rfl rfl ⟨rfl, rfl, rfl, rfl, rfl⟩) (h2.congr rfl rfl rfl rfl) rfl rfl hw ho

theorem inv_raise {t : State} {op e sub sym} (h1 : t.Base) (h2 : t.Held) (hw : t.work = none) (ho : t.outstanding = none) :
    (raiseError op e sub sym t).Inv := by
  refine inv_of_idle ?_ (h2.congr rfl rfl rfl rfl) rfl rfl hw ho
  obtain ⟨i1, i2, i3, i4, i5, i6, i7, i8, i9⟩ := h1
  have he : e.code.toNat ≤ 7 ∧ e.code ≠ 0 := by cases e <;> decide
  exact ⟨i1, i2, i3, i4, i5, i6, he.1, fun h => absurd h he.2, fun _ => he.2⟩

theorem inv_suspend {t : State} {w : Work} {c : Call} {l : Latch} (h1 : t.Base) (h2 : t.Held) (hb : t.status.busy = true) (herr : t.status.err = 0)
    (hl : t.latch = some l) (hop : cmdOpc l.cmd = w.opcode) (hf : w.Fits t) (ho : t.outstanding = some c) (hp : w.pendingCall = some c) :
    (suspend w t).Inv where
  width := h1.width
  freqFits := h1.freqFits
  countFits := h1.countFits
  lenFits := h1.lenFits
  bitsFit := h1.bitsFit
  absentReads := h1.absentReads
  errKnown := h1.errKnown
  errClear := h1.errClear
  rejAfterError := h1.rejAfterError
  treeHeld := h2.treeHeld
  codesHeld := h2.codesHeld
  treeProper := h2.treeProper
  treeWeights := h2.treeWeights
  codesOfTree := h2.codesOfTree
  idle h := by have : t.status.busy = false := h; rw [hb] at this; cases this
  running _ := ⟨herr, w, l, c, rfl, hl, ho, hp, hop, hf.congr (t := suspend w t) rfl rfl⟩

/-- A stream command run on from a fitting place gives a state that meets the invariant. -/
theorem finish_inv {op : BitVec 4} {w : Work} {s : State} {l : Latch} (hr : w.Runs s) (hop : w.opcode = op) (hB : s.Base)
    (hb : s.status.busy = true) (herr : s.status.err = 0) (hw : s.work = none) (hl : s.latch = some l) (hlc : cmdOpc l.cmd = op) :
    ∃ u, finish op (.more w s) = .next u ∧ u.Inv := by
  obtain ⟨u, hu, hg⟩ := finish_good hr hop
  refine ⟨u, hu, ?_⟩
  have key : ∀ t, WorkFrame op s t → t.Base ∧ t.work = none ∧ t.latch = some l ∧ t.status.busy = true ∧ t.status.err = 0 := by
    intro t ht
    refine ⟨hB.frame ht, ?_, ?_, ?_, ?_⟩ <;> rw [ht.others]
    · exact hw
    · exact hl
    · exact hb
    · exact herr
  cases hg with
  | done t hf h ho => exact inv_end (key t hf).1 h (key t hf).2.1 ho
  | raised e sub sym t hf h ho => exact inv_raise (key t hf).1 h (key t hf).2.1 ho
  | wait w c t hf h hw hfit ho hp =>
    obtain ⟨a, b, c, d, e⟩ := key t hf
    exact inv_suspend a h d e c (hlc.trans hw.symm) hfit ho hp

theorem resume_inv {s : State} (h : s.Inv) (hb : s.status.busy = true) : ∃ u, resume s = .next u ∧ u.Inv := by
  obtain ⟨herr, w, l, c, h1, h2, h3, h4, h5, h6⟩ := h.running hb
  simp only [resume, h1, h2]
  refine finish_inv (s := s.setWork none) (l := l) ⟨h.held.congr rfl rfl rfl rfl, h6.congr rfl rfl, .inr (h3.trans h4.symm)⟩ h5.symm
    (h.base.congr rfl rfl rfl ⟨rfl, rfl, rfl, rfl, rfl⟩) hb herr rfl h2 rfl

theorem decode_opcode (cmd : CmdWord) (data : Nat) : (decode cmd data).opcode = cmdOpc cmd := by
  have ho : ∀ k : Nat, (cmdOpc cmd).toNat = k → cmdOpc cmd = BitVec.ofNat 4 k := by
    intro k hk; rw [← hk]; simp
  have hlt := (cmdOpc cmd).isLt
  unfold decode
  split <;> rename_i h
  case h_16 h1 h2 h3 h4 h5 h6 h7 h8 h9 h10 h11 h12 h13 h14 h15 =>
    have : (cmdOpc cmd).toNat = 15 := by
      generalize (cmdOpc cmd).toNat = k at *
      interval_cases k <;> simp_all
    rw [ho _ this]; rfl
  all_goals rw [ho _ h]; rfl

theorem wcount_pos {s : State} (h : s.Base) : 1 < 2 ^ s.wCount := by
  have := h.width
  simp [Config.minWCount] at this
  exact Nat.one_lt_two_pow (by omega)

/-- A command given to a block that holds what it should. -/
theorem exec_inv {i : Instr} {s : State} {l : Latch} (hB : s.Base) (hH : s.Held) (hw : s.work = none)
    (ho : s.outstanding = none) (hl : s.latch = some l) (hlc : cmdOpc l.cmd = i.opcode) :
    ∃ u, exec i s = .next u ∧ u.Inv := by
  rw [exec_eq_command]
  by_cases hr : s.status.err ≠ 0 ∧ neverRejected i = false
  · refine ⟨_, command_rejected hr.1 hr.2, ?_⟩
    refine inv_of_idle ?_ (hH.congr rfl rfl rfl rfl) rfl rfl hw ho
    obtain ⟨i1, i2, i3, i4, i5, i6, i7, i8, i9⟩ := hB
    exact ⟨i1, i2, i3, i4, i5, i6, i7, i8, fun _ => hr.1⟩
  have ha : s.status.err = 0 ∨ neverRejected i = true := by
    by_cases h0 : s.status.err = 0
    · exact .inl h0
    · right; cases hn : neverRejected i
      · exact absurd ⟨h0, hn⟩ hr
      · rfl
  have hBa : (accept i s).Base := hB.congr rfl rfl rfl ⟨rfl, rfl, rfl, rfl, rfl⟩
  have hHa : (accept i s).Held := hH.congr rfl rfl rfl rfl
  have hla : (accept i s).latch = some l := by simp [accept, State.setLatch, hl]
  cases hc : illegalCause i with
  | some c => exact ⟨_, command_illegal ha hc, inv_raise hBa hHa hw ho⟩
  | none =>
    rw [command_runs ha hc]
    have fin : ∀ {t : State}, t.Base → t.Held → t.work = none → t.outstanding = none → ∃ u, finish i.opcode (.done t) = .next u ∧ u.Inv :=
      fun h1 h2 h3 h4 => ⟨_, runEngine_done .., inv_end h1 h2 h3 h4⟩
    have rse : ∀ {t : State} {e sub sym}, t.Base → t.Held → t.work = none → t.outstanding = none → ∃ u, finish i.opcode (.raised e sub sym t) = .next u ∧ u.Inv :=
      fun h1 h2 h3 h4 => ⟨_, runEngine_raised .., inv_raise h1 h2 h3 h4⟩
    have hdB : (accept i s).dropTree.Base := hBa.congr rfl rfl rfl ⟨rfl, rfl, rfl, rfl, rfl⟩
    have hdH : (accept i s).dropTree.Held := ⟨rfl, rfl, fun _ h => (by cases h), fun _ h => (by cases h), fun _ h => (by cases h)⟩
    have err0 : neverRejected i = false → s.status.err = 0 := fun h => by
      rcases ha with h' | h'
      · exact h'
      · rw [h] at h'; cases h'
    have str : ∀ {w : Work} {t : State}, w.Runs t → w.opcode = i.opcode → t.Base → t.status.busy = true → t.status.err = 0 → t.work = none → t.latch = some l → 
        ∃ u, finish i.opcode (.more w t) = .next u ∧ u.Inv := fun h1 h2 h3 h4 h5 h6 h7 => finish_inv h1 h2 h3 h4 h5 h6 h7 hlc
    have tv : (accept i s).status.treeValid = true → ∃ t, (accept i s).tree = some t := by
      intro h; rw [hHa.treeHeld] at h; exact Option.isSome_iff_exists.mp h
    cases i with
    | nop low => exact fin hBa hHa hw ho
    | clrfreq low =>
      refine fin ?_ (hHa.congr rfl rfl rfl rfl) hw ho
      obtain ⟨i1, i2, i3, i4, i5, i6, i7, i8, i9⟩ := hBa
      refine ⟨i1, ?_, i3, i4, i5, i6, i7, i8, i9⟩
      intro c hc
      have : c = 0 := List.eq_of_mem_replicate hc
      subst this; exact Nat.two_pow_pos _
    | ldfreq rsv sym count =>
      refine fin ?_ (hHa.congr rfl rfl rfl rfl) hw ho
      obtain ⟨i1, i2, i3, i4, i5, i6, i7, i8, i9⟩ := hBa
      refine ⟨i1, ?_, i3, i4, i5, i6, i7, i8, i9⟩
      intro c hc
      simp only [setFreqAt, setFreq_freq] at hc
      split at hc
      · rcases List.mem_or_eq_of_mem_set hc with h | h
        · exact i2 c h
        · rw [h]; exact Nat.mod_lt _ (Nat.two_pow_pos _)
      · exact i2 c hc
    | rdfreq rsv sym =>
      refine fin ?_ (hHa.congr rfl rfl rfl rfl) hw ho
      have h1 := wcount_pos hBa
      obtain ⟨i1, i2, i3, i4, i5, i6, i7, i8, i9⟩ := hBa
      refine ⟨i1, i2, ?_, i4, i5, i6, i7, i8, i9⟩
      simp only [freqOf, setResult_result]
      split
      · exact i2 _ (List.getElem_mem _)
      · exact h1
    | build low =>
      simp only [bodyOf, buildStart]
      split
      · exact rse hdB hdH hw ho
      · have hlen : (initialPq s.freq).length = ((initialPq s.freq).length - 1) + 1 := by
          have := List.length_pos_iff.mpr (initialPq_ne_nil s.freq); omega
        obtain ⟨t, hs, ht, hwt⟩ := build_steps _ 257 hlen (initialPq_adds s.freq)
        refine ⟨_, finish_done (hs _) (by simp only [Progress.bound, workBound]; exact Nat.le_succ_of_le (by rw [← hlen]; exact Nat.le_refl _)), ?_⟩
        refine inv_end (hdB.congr rfl rfl rfl ⟨rfl, rfl, rfl, rfl, rfl⟩) ?_ hw ho
        have hm : ∀ x, x ∈ t.weightedLeaves ↔ _ := fun x => ht.mem_iff.trans (mem_initialPq s.freq x)
        refine ⟨rfl, rfl, ?_, ?_, fun _ h => (by cases h)⟩
        · rintro _ ⟨⟩
          refine ⟨?_, ?_⟩
          · rw [t.leaves_eq]; exact (ht.map Prod.fst).nodup_iff.mpr (initialPq_nodup s.freq)
          · rw [t.leaves_eq]; exact List.mem_map.mpr ⟨_, (hm (eofSym, 1)).mpr (.inl rfl), rfl⟩
        · rintro _ ⟨⟩
          refine .inl ⟨hwt, t.weightsPositive_iff.mpr ?_⟩
          intro x hx
          rcases (hm x).mp hx with rfl | ⟨b, rfl, hb⟩
          · exact Nat.one_pos
          · exact hb
    | gencodes low =>
      simp only [bodyOf, gencodesStart]
      split
      · rename_i hv
        obtain ⟨t, ht⟩ := tv hv
        rw [ht]
        dsimp only
        obtain ⟨table, hs, hcode⟩ := gencodes_walk (hHa.treeProper t ht).1 (s := ((accept (.gencodes low) s).setStatus { (accept (.gencodes low) s).status with codesValid := false }).setCode (some (Table.fill 257 none))) rfl
        refine ⟨_, finish_done hs (by simp [Progress.bound, workBound, walkCost]), ?_⟩
        refine inv_end (hBa.congr rfl rfl rfl ⟨rfl, rfl, rfl, rfl, rfl⟩) ⟨hHa.treeHeld, rfl, hHa.treeProper, hHa.treeWeights, ?_⟩ hw ho
        rintro _ ⟨⟩
        exact ⟨t, ht, hcode⟩
      · exact rse hBa hHa hw ho
    | wrhdr low =>
      simp only [bodyOf, wrhdrStart]
      split
      · rename_i hv
        obtain ⟨t, ht⟩ := tv hv
        rw [ht]
        exact str ⟨hHa, hv, .inl ho⟩ rfl hBa rfl (err0 rfl) hw hla
      · exact rse hBa hHa hw ho
    | encode low =>
      simp only [bodyOf, encodeStart]
      split
      · rename_i hv
        exact str ⟨hHa, hv, .inl ho⟩ rfl hBa rfl (err0 rfl) hw hla
      · exact rse hBa hHa hw ho
    | flush low => exact str ⟨hHa, trivial, .inl ho⟩ rfl hBa rfl (err0 rfl) hw hla
    | rdhdr low =>
      refine str ⟨hdH, ?_, .inl ho⟩ rfl hdB rfl (err0 rfl) hw hla
      exact ⟨rfl, rfl, List.nodup_nil, List.Perm.refl _, by simp [stackTrees], by simp [stackTrees], by omega⟩
    | decode low =>
      simp only [bodyOf, decodeStart]
      split
      · rename_i hv
        obtain ⟨t, ht⟩ := tv hv
        rw [ht]
        exact str ⟨hHa, ⟨t, [], ht, by simp⟩, .inl ho⟩ rfl hBa rfl (err0 rfl) hw hla
      · exact rse hBa hHa hw ho
    | rdcode rsv sym =>
      simp only [bodyOf, rdcodeStart]
      split
      · rename_i hv
        have hcv := hHa.codesHeld
        rw [hv] at hcv
        obtain ⟨code, hcode⟩ := Option.isSome_iff_exists.mp hcv.symm
        rw [hcode]
        refine fin ?_ (hHa.congr rfl rfl rfl rfl) hw ho
        obtain ⟨t, ht, hct⟩ := hHa.codesOfTree code hcode
        obtain ⟨i1, i2, i3, i4, i5, i6, i7, i8, i9⟩ := hBa
        have hlen : ∀ c, codeAt code sym.toNat = some c → c.length ≤ 256 := by
          intro c hc
          unfold codeAt at hc
          split at hc
          · rw [hct] at hc
            have h1 := HuffTree.codeOf_length_le hc
            have h2 := HuffTree.Proper.leafCount_le (hHa.treeProper t ht).1
            have h3 := t.internalCount_succ
            have h4 := t.depth_le
            simp only [Config.maxLeaves] at h2
            omega
          · cases hc
        cases he : codeAt code sym.toNat with
        | none => exact ⟨i1, i2, i3, by simp [codeLen, Config.maxCodeLen], by simp [codeLen, codeBits], fun _ => rfl, i7, i8, i9⟩
        | some c =>
          have hl := hlen c he
          have hn : (BitVec.ofNat 9 c.length).toNat = c.length := by simp; omega
          refine ⟨i1, i2, i3, ?_, ?_, fun h => (by cases h), i7, i8, i9⟩
          · simp only [codeLen, setResult_result, hn, Config.maxCodeLen]; exact hl
          · simp only [codeLen, codeBits, setResult_result, hn, BitVec.toNat_ofNat]
            exact Nat.lt_of_le_of_lt (Nat.mod_le _ _) (val_lt c)
      · exact rse hBa hHa hw ho
    | reservedC low => exact fin hBa hHa hw ho
    | reservedD low => exact fin hBa hHa hw ho
    | clrerr low =>
      refine fin ?_ (hHa.congr rfl rfl rfl rfl) hw ho
      obtain ⟨i1, i2, i3, i4, i5, i6, i7, i8, i9⟩ := hBa
      exact ⟨i1, i2, i3, i4, i5, i6, Nat.zero_le _, fun _ => ⟨rfl, rfl, rfl⟩, fun h => (by cases h)⟩
    | srst low =>
      refine fin ?_ ⟨rfl, rfl, fun _ h => (by cases h), fun _ h => (by cases h), fun _ h => (by cases h)⟩ rfl rfl
      refine ⟨hB.width, ?_, ?_, Nat.zero_le _, Nat.two_pow_pos _, fun _ => rfl, Nat.zero_le _, fun _ => ⟨rfl, rfl, rfl⟩, fun h => (by cases h)⟩
      · intro c hc
        have : c = 0 := List.eq_of_mem_replicate hc
        subst this; exact Nat.two_pow_pos _
      · exact Nat.two_pow_pos _

/-- The hardware reset leaves the parameter alone. -/
theorem abandon_wCount (s : State) : (abandonCall s).wCount = s.wCount := by
  unfold abandonCall
  split
  · rfl
  · rename_i c _
    have hok : ∀ a (t : State), (okEffect c a t).wCount = t.wCount := by
      intro a t; obtain ⟨n, b, h, -⟩ := okEffect_eq c a t; rw [h]
    have hfl : ∀ k l (t : State), (failEffect c k l t).wCount = t.wCount := by
      intro a l t; obtain ⟨n, b, h, -⟩ := failEffect_eq c a l t; rw [h]
    split
    · exact hok _ _
    · exact hok _ _
    · exact hfl _ _ _
    · rfl
    · rfl

end Sys2Proof.Machine
end

