-- ==== Sys2Proof/Laws/Late.lean ====
section
/-! SUPPORT. What a command does not depend on: the words in its latch, the levels of the reset input, the
model's counter, and whether a call of it is answered at once or later (spec/10_state.md rule R31,
spec/40_control.md rule R75, log 9). -/

namespace Sys2Proof.Machine

/-- The state a command stands in, changed. -/
def Progress.map (f : State → State) : Progress → Progress
  | .more w s => .more w (f s)
  | .wait w s => .wait w (f s)
  | .done s => .done (f s)
  | .raised e sub sym s => .raised e sub sym (f s)
  | .stuck e => .stuck e

/-- The state a call leaves, changed. -/
def Answered.map (f : State → State) : Answered → Answered
  | .ok s => .ok (f s)
  | .fail s => .fail (f s)
  | .wait s => .wait (f s)

/-- `f` changes nothing that a piece of work or the beginning of a command looks at or writes between its
calls. -/
structure Unread (f : State → State) : Prop where
  wCount : ∀ s, (f s).wCount = s.wCount
  status : ∀ s, (f s).status = s.status
  freq : ∀ s, (f s).freq = s.freq
  tree : ∀ s, (f s).tree = s.tree
  code : ∀ s, (f s).code = s.code
  result : ∀ s, (f s).result = s.result
  setStatus : ∀ s x, f (s.setStatus x) = (f s).setStatus x
  setFreq : ∀ s x, f (s.setFreq x) = (f s).setFreq x
  setTree : ∀ s x, f (s.setTree x) = (f s).setTree x
  setCode : ∀ s x, f (s.setCode x) = (f s).setCode x
  setResult : ∀ s x, f (s.setResult x) = (f s).setResult x

/-- A change of fields that `Unread` does not name meets it by computation. -/
theorem Unread.id : Unread fun s => s := by constructor <;> intros <;> rfl

theorem Unread.setAnswers (as : List Answer) : Unread fun s => s.setAnswers as := by
  constructor <;> intros <;> rfl

theorem Unread.setLatch (l : Option Latch) : Unread fun s => s.setLatch l := by
  constructor <;> intros <;> rfl

theorem Unread.holdTree {f : State → State} (hf : Unread f) (s : State) (t : HuffTree) :
    f (s.holdTree t) = (f s).holdTree t := by
  simp only [State.holdTree, hf.setStatus, hf.setTree, hf.status]

theorem Unread.dropTree {f : State → State} (hf : Unread f) (s : State) : f s.dropTree = (f s).dropTree := by
  simp only [State.dropTree, State.setValid, hf.setStatus, hf.setTree, hf.setCode, hf.status]

theorem Unread.setCodeAt {f : State → State} (hf : Unread f) (s : State) (x : Sym) (p : Bits) :
    f (s.setCodeAt x p) = (f s).setCodeAt x p := by
  simp only [State.setCodeAt, hf.setCode, hf.code]

/-! ### What becomes of a call's result -/

theorem rdhdrLeaf_map {f : State → State} (hf : Unread f) (v : Nat) (seen : List Sym) (nint : Nat)
    (stack : List (Option HuffTree)) (s : State) :
    rdhdrLeaf v seen nint stack (f s) = (rdhdrLeaf v seen nint stack s).map f := by
  by_cases hv : v < 257
  · simp only [rdhdrLeaf, dif_pos hv]
    by_cases hm : (⟨v, hv⟩ : Sym) ∈ seen
    · simp only [if_pos hm]; rfl
    · simp only [if_neg hm]
      cases returnTree (.leaf ⟨v, hv⟩ 0) stack with
      | inl t =>
        by_cases he : eofSym ∈ (⟨v, hv⟩ : Sym) :: seen
        · simp only [rdhdrEnd, if_pos he, Progress.map, hf.holdTree]
        · simp only [rdhdrEnd, if_neg he]; rfl
      | inr st => rfl
  · simp only [rdhdrLeaf, dif_neg hv]; rfl

theorem rdhdrInternal_map (f : State → State) (seen : List Sym) (nint : Nat) (stack : List (Option HuffTree))
    (s : State) : rdhdrInternal seen nint stack (f s) = (rdhdrInternal seen nint stack s).map f := by
  simp only [rdhdrInternal]; split <;> rfl

theorem encodeByte_map (f : State → State) (code : Table (Option Bits) 257) (b : Nat) (s : State) :
    encodeByte code b (f s) = (encodeByte code b s).map f := by
  simp only [encodeByte]; cases codeAt code b <;> rfl

theorem encodeEnd_map (f : State → State) (code : Table (Option Bits) 257) (s : State) :
    encodeEnd code (f s) = (encodeEnd code s).map f := by
  simp only [encodeEnd]; cases codeAt code 256 <;> rfl

/-! ### A piece of work, by the call it makes -/

/-- A piece of work that makes no call. -/
theorem engineStep_quiet {w : Work} {f : State → State} (hf : Unread f) (h : w.pendingCall = none) (s : State) :
    engineStep w (f s) = (engineStep w s).map f := by
  cases w with
  | build pq n =>
    simp only [engineStep, buildStep, ← hf.holdTree]
    cases removeMin pq with
    | none => rfl
    | some x =>
      dsimp only
      cases removeMin x.2 <;> rfl
  | gencodes stack =>
    cases stack with
    | nil => simp only [engineStep, gencodesStep, Progress.map, hf.setStatus, hf.status]
    | cons e stack =>
      obtain ⟨t, p⟩ := e
      cases t with
      | leaf x v => simp only [engineStep, gencodesStep, Progress.map, hf.setCodeAt]
      | node => rfl
  | wrhdr stack =>
    match stack, h with
    | [], _ => rfl
    | .subtree (.node _ _ _) :: _, h => cases h
    | .subtree (.leaf _ _) :: _, h => cases h
    | .field _ :: _, h => cases h
  | encode p =>
    cases p with
    | fetch => cases h
    | emit c =>
      simp only [Work.pendingCall] at h
      split at h
      · rename_i hc; subst hc; rfl
      · cases h
    | last c =>
      simp only [Work.pendingCall] at h
      split at h
      · rename_i hc; subst hc; rfl
      · cases h
  | flush => cases h
  | rdhdr p seen nint stack => cases p <;> cases h
  | decode cur =>
    cases cur with
    | node => cases h
    | leaf x v =>
      simp only [Work.pendingCall] at h
      split at h
      · rename_i hx
        simp only [engineStep, decodeStep, hf.tree]
        cases s.tree with
        | none => rfl
        | some root => simp only [decodeLeaf, if_pos hx]; rfl
      · cases h

/-- A piece of work that makes a call sees of the state the call's result, TREE, CODE and the bits of IN
alone. -/
theorem engineStep_call {w : Work} {c : Call} {f : State → State} {s t : State} (hf : Unread f)
    (h : w.pendingCall = some c) (hc : callCollab c t = (callCollab c s).map f) (htree : t.tree = s.tree)
    (hcode : t.code = s.code) (hinp : t.inp = s.inp) (hpos : t.inPos = s.inPos) :
    engineStep w t = (engineStep w s).map f := by
  have hrem : t.remaining = s.remaining := by simp [State.remaining, hinp, hpos]
  have hrest : t.rest = s.rest := by simp [State.rest, hinp, hpos]
  cases w with
  | build => cases h
  | gencodes => cases h
  | wrhdr stack =>
    have key : ∀ n v here after, n ≠ 0 → c = .outWrite n v →
        wrhdrWrite n v here after t = (wrhdrWrite n v here after s).map f := by
      rintro n v here after hn rfl
      simp only [wrhdrWrite, outWrite, if_neg hn, hc]
      cases callCollab (.outWrite n v) s <;> rfl
    match stack, h with
    | [], h => cases h
    | .subtree (.node _ _ _) :: _, h => cases h; exact key _ _ _ _ (by decide) rfl
    | .subtree (.leaf _ _) :: _, h => cases h; exact key _ _ _ _ (by decide) rfl
    | .field _ :: _, h => cases h; exact key _ _ _ _ (by decide) rfl
  | encode p =>
    cases p with
    | fetch =>
      cases h
      simp only [engineStep, encodeStep, encodeFetch, hcode]
      cases s.code with
      | none => rfl
      | some code =>
        simp only [inRead, hc, hrem, hrest]
        cases callCollab (.inRead 8) s with
        | ok u =>
          by_cases hl : s.remaining < 8
          · simp only [Answered.map, if_pos hl, encodeEnd_map]
          · simp only [Answered.map, if_neg hl, encodeByte_map]
        | fail u => rfl
        | wait u => rfl
    | emit b =>
      simp only [Work.pendingCall] at h
      split at h
      · cases h
      · rename_i hb
        cases h
        have hn : b.length ≠ 0 := fun e => hb (List.length_eq_zero_iff.mp e)
        simp only [engineStep, encodeStep, outWrite, if_neg hn, hc]
        cases callCollab (.outWrite b.length (val b)) s <;> rfl
    | last b =>
      simp only [Work.pendingCall] at h
      split at h
      · cases h
      · rename_i hb
        cases h
        have hn : b.length ≠ 0 := fun e => hb (List.length_eq_zero_iff.mp e)
        simp only [engineStep, encodeStep, outWrite, if_neg hn, hc]
        cases callCollab (.outWrite b.length (val b)) s <;> rfl
  | flush =>
    cases h
    simp only [engineStep, flushStep, outFlush, hc]
    cases callCollab .outFlush s <;> rfl
  | rdhdr p seen nint stack =>
    cases p with
    | marker =>
      cases h
      simp only [engineStep, rdhdrStep, inRead, hc, hrem, hrest]
      cases callCollab (.inRead 1) s with
      | ok u =>
        by_cases hl : s.remaining < 1
        · simp only [Answered.map, if_pos hl]; rfl
        · by_cases hv : val (s.rest.take 1) = 0
          · simp only [Answered.map, if_neg hl, if_pos hv, rdhdrInternal_map]
          · simp only [Answered.map, if_neg hl, if_neg hv]; rfl
      | fail u => rfl
      | wait u => rfl
    | field =>
      cases h
      simp only [engineStep, rdhdrStep, inRead, hc, hrem, hrest]
      cases callCollab (.inRead 9) s with
      | ok u =>
        by_cases hl : s.remaining < 9
        · simp only [Answered.map, if_pos hl]; rfl
        · simp only [Answered.map, if_neg hl, rdhdrLeaf_map hf]
      | fail u => rfl
      | wait u => rfl
  | decode cur =>
    cases cur with
    | node l r v =>
      cases h
      simp only [engineStep, decodeStep, htree]
      cases s.tree with
      | none => rfl
      | some root =>
        simp only [decodeNode, inRead, hc, hrem, hrest]
        cases callCollab (.inRead 1) s with
        | ok u =>
          by_cases hl : s.remaining < 1
          · simp only [Answered.map, if_pos hl]; rfl
          · simp only [Answered.map, if_neg hl]; rfl
        | fail u => rfl
        | wait u => rfl
    | leaf x v =>
      simp only [Work.pendingCall] at h
      split at h
      · cases h
      · rename_i hx
        cases h
        simp only [engineStep, decodeStep, htree]
        cases s.tree with
        | none => rfl
        | some root =>
          simp only [decodeLeaf, if_neg hx, outWrite, if_neg (by decide : (8 : Nat) ≠ 0), hc]
          cases callCollab (.outWrite 8 x.val) s <;> rfl

/-! ### Fields no command looks at -/

/-- The latch, the reset input's levels and the model's counter changed. -/
def State.aside (l : Option Latch → Option Latch) (pin : List ResetLevel → List ResetLevel) (n : Nat → Nat) (s : State) :
    State :=
  { s with latch := l s.latch, resetPin := pin s.resetPin, waits := n s.waits }

theorem Unread.aside (l : Option Latch → Option Latch) (pin : List ResetLevel → List ResetLevel) (n : Nat → Nat) :
    Unread (State.aside l pin n) := by constructor <;> intros <;> rfl

theorem callCollab_aside (c : Call) (s : State) (l : Option Latch → Option Latch) (pin : List ResetLevel → List ResetLevel)
    (n : Nat → Nat) :
    callCollab c (s.aside l pin n) = (callCollab c s).map (State.aside l pin n) := by
  have hi : (s.aside l pin n).issue c = (s.issue c).aside l pin n := by
    simp only [State.issue]
    have : (s.aside l pin n).outstanding = s.outstanding := rfl
    rw [this]
    split <;> rfl
  have hok : ∀ a (t : State), okEffect c a (t.aside l pin n) = (okEffect c a t).aside l pin n := by
    intro a t
    cases c with
    | inRead k =>
      have : (t.aside l pin n).remaining = t.remaining := rfl
      simp only [okEffect, this]
      split <;> rfl
    | outWrite => rfl
    | outFlush => rfl
  have hfail : ∀ k left (t : State),
      failEffect c k left (t.aside l pin n) = (failEffect c k left t).aside l pin n := by
    intro k left t; cases c <;> rfl
  have hc : ((s.aside l pin n).issue c).closeCall = (s.issue c).closeCall.aside l pin n := by rw [hi]; rfl
  have ha : (s.aside l pin n).nextAnswer = s.nextAnswer := rfl
  simp only [callCollab, ha, hc, hok, hfail]
  cases s.nextAnswer with
  | ok => rfl
  | pad => rfl
  | fail => rfl
  | later => simp only [hi]; rfl
  | never => simp only [hi]; rfl

/-- A piece of work does the same whatever stands in those fields. -/
theorem engineStep_aside (w : Work) (s : State) (l : Option Latch → Option Latch)
    (pin : List ResetLevel → List ResetLevel) (n : Nat → Nat) :
    engineStep w (s.aside l pin n) = (engineStep w s).map (State.aside l pin n) := by
  cases hp : w.pendingCall with
  | none => exact engineStep_quiet (.aside l pin n) hp s
  | some c => exact engineStep_call (.aside l pin n) hp (callCollab_aside c s l pin n) rfl rfl rfl rfl

/-- And so does a run. -/
theorem Steps.aside {k : Nat} {p q : Progress} (h : Steps k p q) (l : Option Latch → Option Latch)
    (pin : List ResetLevel → List ResetLevel) (n : Nat → Nat) :
    Steps k (p.map (State.aside l pin n)) (q.map (State.aside l pin n)) := by
  induction h with
  | refl => exact .refl _
  | step h ih => exact .step (by rw [engineStep_aside]; exact ih)

/-- BUSY is 1 where a command goes on or waits. -/
def Progress.Busy (p : Progress) : Prop :=
  (∀ w s, p = .more w s → s.status.busy = true) ∧ ∀ w s, p = .wait w s → s.status.busy = true

theorem Progress.Busy.step {w : Work} {s : State} (h : (Progress.more w s).Busy) : (engineStep w s).Busy := by
  have hf := (engineStep_frame w s).1
  have hb := h.1 w s rfl
  constructor <;> intro w' t e <;> rw [e] at hf <;>
    · have : WorkFrame w.opcode s t := hf
      rw [this.others]; exact hb

/-- The words in the latch stay with a command that waits, and matter to nothing else. -/
theorem runEngine_latch {op : BitVec 4} {n : Nat} {p : Progress} {u : State} (l : Option Latch)
    (hb : p.Busy) (h : runEngine op n p = .next u) :
    (u.status.busy = false ∧ runEngine op n (p.map (·.setLatch l)) = .next u) ∨
    (u.status.busy = true ∧ runEngine op n (p.map (·.setLatch l)) = .next (u.setLatch l)) := by
  induction n generalizing p with
  | zero =>
    cases p with
    | more w s => cases h
    | wait w s => cases h; exact .inr ⟨hb.2 w s rfl, rfl⟩
    | done s => cases h; exact .inl ⟨rfl, rfl⟩
    | raised => cases h; exact .inl ⟨rfl, rfl⟩
    | stuck => cases h
  | succ n ih =>
    cases p with
    | more w s =>
      have : engineStep w (s.setLatch l) = (engineStep w s).map (·.setLatch l) :=
        engineStep_aside w s (fun _ => l) id id
      simp only [Progress.map, runEngine, this] at h ⊢
      exact ih hb.step h
    | wait w s => cases h; exact .inr ⟨hb.2 w s rfl, rfl⟩
    | done s => cases h; exact .inl ⟨rfl, rfl⟩
    | raised => cases h; exact .inl ⟨rfl, rfl⟩
    | stuck => cases h

/-- A command's beginning does not depend on what it does not look at; SRST also writes the latch. -/
theorem bodyOf_map {i : Instr} {f : State → State} (hf : Unread f)
    (hr : (∀ s, f (resetBlock s) = resetBlock (f s)) ∨ ∀ low, i ≠ .srst low) (s : State) :
    bodyOf i (f s) = (bodyOf i s).map f := by
  cases i with
  | nop => rfl
  | clrfreq => simp only [bodyOf, clrfreqStart, Progress.map, hf.setFreq]
  | ldfreq => simp only [bodyOf, ldfreqStart, Progress.map, hf.setFreq, hf.freq, hf.wCount]
  | rdfreq => simp only [bodyOf, rdfreqStart, Progress.map, hf.setResult, hf.result, hf.freq]
  | build =>
    simp only [bodyOf, buildStart, hf.freq, hf.wCount, ← hf.dropTree]
    by_cases h : totalWeight s.freq > 2 ^ s.wCount - 1
    · rw [if_pos h, if_pos h]; rfl
    · rw [if_neg h, if_neg h]; rfl
  | gencodes =>
    simp only [bodyOf, gencodesStart, hf.status, hf.tree, ← hf.setStatus, ← hf.setCode]
    by_cases h : s.status.treeValid = true
    · rw [if_pos h, if_pos h]; cases s.tree <;> rfl
    · rw [if_neg h, if_neg h]; rfl
  | wrhdr =>
    simp only [bodyOf, wrhdrStart, hf.status, hf.tree]
    by_cases h : s.status.treeValid = true
    · rw [if_pos h, if_pos h]; cases s.tree <;> rfl
    · rw [if_neg h, if_neg h]; rfl
  | encode =>
    simp only [bodyOf, encodeStart, hf.status]
    by_cases h : s.status.codesValid = true
    · rw [if_pos h, if_pos h]; rfl
    · rw [if_neg h, if_neg h]; rfl
  | flush => rfl
  | rdhdr => simp only [bodyOf, rdhdrStart, Progress.map, hf.dropTree]
  | decode =>
    simp only [bodyOf, decodeStart, hf.status, hf.tree]
    by_cases h : s.status.treeValid = true
    · rw [if_pos h, if_pos h]; cases s.tree <;> rfl
    · rw [if_neg h, if_neg h]; rfl
  | rdcode =>
    simp only [bodyOf, rdcodeStart, hf.status, hf.code, hf.result, ← hf.setResult]
    by_cases h : s.status.codesValid = true
    · rw [if_pos h, if_pos h]; cases s.code <;> rfl
    · rw [if_neg h, if_neg h]; rfl
  | reservedC => rfl
  | reservedD => rfl
  | clrerr => simp only [bodyOf, clrerrStart, clearError, Progress.map, hf.setStatus, hf.status]
  | srst low =>
    rcases hr with hr | hr
    · simp only [bodyOf, srstStart, Progress.map, hr]
    · exact absurd rfl (hr low)

theorem bodyOf_busy (i : Instr) (s : State) (hs : s.status.busy = true) : (bodyOf i s).Busy := by
  by_cases hi : i.opcode ∈ [0x4, 0x5, 0x6, 0x7, 0x8, 0x9, 0xA]
  · have hf := (bodyOf_within s hi).1
    constructor <;> intro w t e <;> rw [e] at hf <;>
      · have : WorkFrame i.opcode s t := hf
        rw [this.others]; exact hs
  · have key : ∀ p : Progress, (∀ w t, p ≠ .more w t) → (∀ w t, p ≠ .wait w t) → p.Busy :=
      fun p h1 h2 => ⟨fun w t e => absurd e (h1 w t), fun w t e => absurd e (h2 w t)⟩
    cases i <;> simp [Instr.opcode] at hi <;>
      first
        | exact key _ (fun _ _ h => by cases h) (fun _ _ h => by cases h)
        | (simp only [bodyOf, rdcodeStart]
           split
           · cases s.code <;> exact key _ (fun _ _ h => by cases h) (fun _ _ h => by cases h)
           · exact key _ (fun _ _ h => by cases h) (fun _ _ h => by cases h))

/-- A command that finds BUSY and the latch written, as a step writes them, does what it does without; the
words stay in the latch while it waits. -/
theorem exec_latched {i : Instr} {s u : State} (l : Latch) (hl : s.latch = none) (h : exec i s = .next u) :
    exec i ((s.setStatus { s.status with busy := true }).setLatch (some l)) =
      .next (if u.status.busy then u.setLatch (some l) else u) := by
  have hacc : accept i ((s.setStatus { s.status with busy := true }).setLatch (some l)) =
      (accept i s).setLatch (some l) := by
    simp [accept, State.setLatch, State.setStatus, hl]
  rw [exec_eq_command] at h ⊢
  have hn : ∀ t, (.next t : Host.Outcome State Fault Refusal) = .next u → t.status.busy = false →
      .next t = (.next (if u.status.busy then u.setLatch (some l) else u) :
        Host.Outcome State Fault Refusal) := by
    intro t e hb; cases e; rw [if_neg (by rw [hb]; decide)]
  by_cases hr : s.status.err ≠ 0 ∧ neverRejected i = false
  · rw [command_rejected hr.1 hr.2] at h
    rw [command_rejected (by exact hr.1) hr.2]
    exact hn _ h rfl
  have ha : s.status.err = 0 ∨ neverRejected i = true := by
    by_cases h0 : s.status.err = 0
    · exact .inl h0
    · right; cases hni : neverRejected i
      · exact absurd ⟨h0, hni⟩ hr
      · rfl
  cases hc : illegalCause i with
  | some c =>
    rw [command_illegal ha hc] at h
    rw [command_illegal (by exact ha) hc, hacc]
    exact hn _ h rfl
  | none =>
    rw [command_runs ha hc] at h
    rw [command_runs (by exact ha) hc, hacc]
    by_cases hi : ∃ low, i = .srst low
    · obtain ⟨low, rfl⟩ := hi
      rw [bodyOf, srstStart, finish, runEngine_done] at h
      rw [bodyOf, srstStart, finish, runEngine_done]
      exact hn _ h rfl
    · have e := bodyOf_map (Unread.setLatch (some l)) (.inr fun low h => hi ⟨low, h⟩) (accept i s)
      have hbound : ((bodyOf i (accept i s)).map (·.setLatch (some l))).bound =
          (bodyOf i (accept i s)).bound := by
        cases bodyOf i (accept i s) with
        | more w t => cases w <;> rfl
        | _ => rfl
      rw [e, finish, hbound]
      rcases runEngine_latch (some l) (bodyOf_busy i (accept i s) rfl) h with ⟨hb, h1⟩ | ⟨hb, h1⟩
      · rw [h1, hb]; rfl
      · rw [h1, hb]; rfl

/-! ### Late answers -/

/-- Answers that let no call wait. -/
abbrev AtOnce (answers : List Answer) : Prop := ∀ a ∈ answers, a ≠ .later ∧ a ≠ .never

/-- A call answered at once looks at no later answer. -/
theorem callCollab_atOnce (c : Call) (s : State) {a : Answer} (ha : a ≠ .later ∧ a ≠ .never)
    (as : List Answer) :
    callCollab c (s.setAnswers (a :: as)) = (callCollab c (s.setAnswers [a])).map fun t => t.setAnswers as := by
  have key : ∀ as, ((s.setAnswers (a :: as)).issue c).closeCall =
      ((s.setAnswers []).issue c).closeCall.setAnswers as := by
    intro as
    simp only [State.issue]
    have h1 : (s.setAnswers (a :: as)).outstanding = s.outstanding := rfl
    have h2 : (s.setAnswers []).outstanding = s.outstanding := rfl
    rw [h1, h2]
    cases s.outstanding <;> rfl
  have hok : ∀ b (t : State) as, okEffect c b (t.setAnswers as) = (okEffect c b t).setAnswers as := by
    intro b t as
    cases c with
    | inRead k =>
      have : (t.setAnswers as).remaining = t.remaining := rfl
      simp only [okEffect, this]
      split <;> rfl
    | outWrite => rfl
    | outFlush => rfl
  have hfail : ∀ k left (t : State) as,
      failEffect c k left (t.setAnswers as) = (failEffect c k left t).setAnswers as := by
    intro k left t as; cases c <;> rfl
  cases a with
  | later => exact absurd rfl ha.1
  | never => exact absurd rfl ha.2
  | ok => simp only [callCollab, key, hok]; rfl
  | pad bits => simp only [callCollab, key, hok]; rfl
  | fail k left => simp only [callCollab, key, hfail]; rfl

/-- A call that is answered later waits, and asked again does what it would have done without waiting. -/
theorem callCollab_later (c : Call) (s : State) (as : List Answer) :
    ∃ calls,
      callCollab c (s.setAnswers (.later :: as)) =
        .wait { s with answers := as, calls := calls, outstanding := some c } ∧
      callCollab c { s with answers := as, calls := calls, outstanding := some c } =
        callCollab c (s.setAnswers as) := by
  cases ho : s.outstanding with
  | none =>
    refine ⟨s.calls ++ [c], ?_, ?_⟩ <;>
      simp [callCollab, State.nextAnswer, State.setAnswers, State.issue, ho, State.popAnswer,
        State.setCalls, State.setOutstanding, State.closeCall]
  | some d =>
    refine ⟨s.calls, ?_, ?_⟩ <;>
      simp [callCollab, State.nextAnswer, State.setAnswers, State.issue, ho, State.popAnswer,
        State.setOutstanding, State.closeCall]

/-- A piece of work whose call is not answered waits where it is; only where TREE or CODE has no content
does it stop before its call. -/
theorem engineStep_wait {w : Work} {c : Call} {t u : State} (hp : w.pendingCall = some c)
    (hc : callCollab c t = .wait u) :
    engineStep w t = .wait w u ∨
      ∃ e, (t.tree = none ∨ t.code = none) ∧
        ∀ v : State, v.tree = t.tree → v.code = t.code → engineStep w v = .stuck e := by
  have keyr : ∀ n : Nat, c = .inRead n → inRead n t = .wait u := by
    intro n h; subst h; rw [inRead, hc]
  have keyw : ∀ n v : Nat, n ≠ 0 → c = .outWrite n v → outWrite n v t = .wait u := by
    intro n v hn h; subst h; rw [outWrite, if_neg hn, hc]
  cases w with
  | build => cases hp
  | gencodes => cases hp
  | wrhdr stack =>
    left
    simp only [engineStep]
    unfold wrhdrStep
    split
    · cases hp
    all_goals
      simp only [Work.pendingCall, Option.some.injEq] at hp
      unfold wrhdrWrite
      rw [keyw _ _ (by decide) hp.symm]
  | encode p =>
    cases p with
    | fetch =>
      simp only [Work.pendingCall, Option.some.injEq] at hp
      cases hcode : t.code with
      | some code => left; simp only [engineStep, encodeStep, encodeFetch, hcode, keyr 8 hp.symm]
      | none =>
        exact .inr ⟨.unspecifiedRead, .inr rfl, fun v _ h => by
          simp only [engineStep, encodeStep, encodeFetch, h]⟩
    | emit b =>
      simp only [Work.pendingCall] at hp
      split at hp
      · cases hp
      · rename_i hb
        simp only [Option.some.injEq] at hp
        left
        simp only [engineStep, encodeStep, keyw _ _ (fun h => hb (List.length_eq_zero_iff.mp h)) hp.symm]
    | last b =>
      simp only [Work.pendingCall] at hp
      split at hp
      · cases hp
      · rename_i hb
        simp only [Option.some.injEq] at hp
        left
        simp only [engineStep, encodeStep, keyw _ _ (fun h => hb (List.length_eq_zero_iff.mp h)) hp.symm]
  | flush =>
    simp only [Work.pendingCall, Option.some.injEq] at hp
    subst hp
    left
    simp only [engineStep, flushStep, outFlush, hc]
  | rdhdr ph seen nint st =>
    left
    cases ph <;> simp only [Work.pendingCall, Option.some.injEq] at hp <;>
      simp only [engineStep, rdhdrStep, keyr _ hp.symm]
  | decode cur =>
    cases htree : t.tree with
    | none =>
      exact .inr ⟨.unspecifiedRead, .inl rfl, fun v h _ => by simp only [engineStep, decodeStep, h]⟩
    | some root =>
      left
      cases cur with
      | leaf x v =>
        simp only [Work.pendingCall] at hp
        split at hp
        · cases hp
        · rename_i hx
          simp only [Option.some.injEq] at hp
          simp only [engineStep, decodeStep, htree, decodeLeaf, if_neg hx,
            keyw _ _ (by decide : (8 : Nat) ≠ 0) hp.symm]
      | node l r v =>
        simp only [Work.pendingCall, Option.some.injEq] at hp
        simp only [engineStep, decodeStep, htree, decodeNode, keyr _ hp.symm]

/-- One more `later` among the answers: a piece of work that does not come to it does the same, and it is
still to come; one that comes to it waits, and taken up again does what it would have done without it. -/
theorem engineStep_late (w : Work) (s : State) (before after : List Answer) (hb : AtOnce before) :
    (∃ rest r, AtOnce rest ∧
      engineStep w (s.setAnswers (before ++ after)) = Progress.map (·.setAnswers (rest ++ after)) r ∧
      engineStep w (s.setAnswers (before ++ .later :: after)) =
        Progress.map (·.setAnswers (rest ++ .later :: after)) r) ∨
    ∃ calls c,
      engineStep w (s.setAnswers (before ++ .later :: after)) =
        .wait w { s with answers := after, calls := calls, outstanding := some c } ∧
      engineStep w { s with answers := after, calls := calls, outstanding := some c } =
        engineStep w (s.setAnswers (before ++ after)) := by
  cases hp : w.pendingCall with
  | none =>
    exact .inl ⟨before, engineStep w s, hb, engineStep_quiet (.setAnswers _) hp s,
      engineStep_quiet (.setAnswers _) hp s⟩
  | some c =>
    cases before with
    | cons a rest =>
      have ha := hb a (by simp)
      exact .inl ⟨rest, engineStep w (s.setAnswers [a]), fun b h => hb b (by simp [h]),
        engineStep_call (.setAnswers _) hp (callCollab_atOnce c s ha _) rfl rfl rfl rfl,
        engineStep_call (.setAnswers _) hp (callCollab_atOnce c s ha _) rfl rfl rfl rfl⟩
    | nil =>
      obtain ⟨calls, h1, h2⟩ := callCollab_later c s after
      rcases engineStep_wait hp h1 with h | ⟨e, -, h⟩
      · refine .inr ⟨calls, c, h, ?_⟩
        have h3 := engineStep_call (w := w) .id hp
          (t := { s with answers := after, calls := calls, outstanding := some c }) (s := s.setAnswers after)
          (by rw [h2]; cases callCollab c (s.setAnswers after) <;> rfl) rfl rfl rfl rfl
        rw [h3, List.nil_append]
        cases engineStep w (s.setAnswers after) <;> rfl
      · exact .inl ⟨[], .stuck e, fun _ h => (nomatch h), h _ rfl rfl, h _ rfl rfl⟩

/-- One more `later` among the answers: a run that does not come to it does the same; one that comes to it
waits, and taken up again goes where it would have gone without it. -/
theorem Steps.late {k : Nat} {op : BitVec 4} {p q : Progress} {p₀ : Progress} {before after : List Answer}
    {t : State} (h : Steps k p q) (hq : Ended op q t)
    (hp : p = p₀.map fun s => s.setAnswers (before ++ after)) (hb : AtOnce before) :
    (∃ rest r, q = Progress.map (·.setAnswers (rest ++ after)) r ∧
      Steps k (p₀.map fun s => s.setAnswers (before ++ .later :: after))
        (r.map fun s => s.setAnswers (rest ++ .later :: after))) ∨
    ∃ j i w y c, Steps j (p₀.map fun s => s.setAnswers (before ++ .later :: after)) (.wait w y) ∧
      Steps i (.more w y) q ∧ y.answers = after ∧ y.outstanding = some c := by
  induction h generalizing p₀ before with
  | refl p => exact .inl ⟨before, p₀, hp, .refl _⟩
  | @step k w s q h ih =>
    cases p₀ with
    | more w₀ s₀ =>
      cases hp
      rcases engineStep_late w s₀ before after hb with ⟨rest, r, hr, h1, h2⟩ | ⟨calls, c, h1, h2⟩
      · rcases ih hq (by rw [h1]) hr with ⟨rest', r', h3, h4⟩ | ⟨j, i, w', y, c, h3, h4⟩
        · exact .inl ⟨rest', r', h3, .step (by rw [h2]; exact h4)⟩
        · exact .inr ⟨j + 1, i, w', y, c, .step (by rw [h2]; exact h3), h4⟩
      · exact .inr ⟨1, k + 1, w, _, c, .one h1, .step (by rw [h2]; exact h), rfl, rfl⟩
    | wait => cases hp
    | done => cases hp
    | raised => cases hp
    | stuck => cases hp

end Sys2Proof.Machine
end

