-- ==== Sys2Proof/Laws/PerInstr.lean ====
section
/-! SUPPORT. Statements made for each command: the CMD word of a command has the command's OPC in
CMD[31:28] (spec/30_encoding.md rules R54, R55). -/

namespace Sys2Proof

theorem cmdOpc_packLow (opc : BitVec 4) (low : BitVec 28) : cmdOpc (packLow opc low) = opc := by
  apply BitVec.eq_of_getLsbD_eq
  intro i hi
  interval_cases i <;> simp [cmdOpc, packLow]

theorem cmdOpc_packSym (opc : BitVec 4) (rsv : BitVec 19) (sym : BitVec 9) :
    cmdOpc (packSym opc rsv sym) = opc := by
  apply BitVec.eq_of_getLsbD_eq
  intro i hi
  interval_cases i <;> simp [cmdOpc, packSym]

/-- OPC of the encoded command is the command's (R55). -/
def Laws.OpcodeField.Statement (i : Instr) : Prop := cmdOpc (encodeCmd i) = i.opcode

theorem Laws.OpcodeField.nop (low : BitVec 28) : Laws.OpcodeField.Statement (.nop low) :=
  cmdOpc_packLow _ _

theorem Laws.OpcodeField.clrfreq (low : BitVec 28) : Laws.OpcodeField.Statement (.clrfreq low) :=
  cmdOpc_packLow _ _

theorem Laws.OpcodeField.ldfreq (rsv : BitVec 19) (sym : BitVec 9) (count : Nat) :
    Laws.OpcodeField.Statement (.ldfreq rsv sym count) :=
  cmdOpc_packSym _ _ _

theorem Laws.OpcodeField.rdfreq (rsv : BitVec 19) (sym : BitVec 9) :
    Laws.OpcodeField.Statement (.rdfreq rsv sym) :=
  cmdOpc_packSym _ _ _

theorem Laws.OpcodeField.build (low : BitVec 28) : Laws.OpcodeField.Statement (.build low) :=
  cmdOpc_packLow _ _

theorem Laws.OpcodeField.gencodes (low : BitVec 28) : Laws.OpcodeField.Statement (.gencodes low) :=
  cmdOpc_packLow _ _

theorem Laws.OpcodeField.wrhdr (low : BitVec 28) : Laws.OpcodeField.Statement (.wrhdr low) :=
  cmdOpc_packLow _ _

theorem Laws.OpcodeField.encode (low : BitVec 28) : Laws.OpcodeField.Statement (.encode low) :=
  cmdOpc_packLow _ _

theorem Laws.OpcodeField.flush (low : BitVec 28) : Laws.OpcodeField.Statement (.flush low) :=
  cmdOpc_packLow _ _

theorem Laws.OpcodeField.rdhdr (low : BitVec 28) : Laws.OpcodeField.Statement (.rdhdr low) :=
  cmdOpc_packLow _ _

theorem Laws.OpcodeField.decode (low : BitVec 28) : Laws.OpcodeField.Statement (.decode low) :=
  cmdOpc_packLow _ _

theorem Laws.OpcodeField.rdcode (rsv : BitVec 19) (sym : BitVec 9) :
    Laws.OpcodeField.Statement (.rdcode rsv sym) :=
  cmdOpc_packSym _ _ _

theorem Laws.OpcodeField.reservedC (low : BitVec 28) : Laws.OpcodeField.Statement (.reservedC low) :=
  cmdOpc_packLow _ _

theorem Laws.OpcodeField.reservedD (low : BitVec 28) : Laws.OpcodeField.Statement (.reservedD low) :=
  cmdOpc_packLow _ _

theorem Laws.OpcodeField.clrerr (low : BitVec 28) : Laws.OpcodeField.Statement (.clrerr low) :=
  cmdOpc_packLow _ _

theorem Laws.OpcodeField.srst (low : BitVec 28) : Laws.OpcodeField.Statement (.srst low) :=
  cmdOpc_packLow _ _

end Sys2Proof
end

