-- ==== Sys2Proof/Laws/Reset.lean ====
section
/-! SUPPORT. What the hardware reset can do, before a step and while one runs (spec/70_reset_and_hazards.md
rules R132, R134): the outstanding call, and a command cut short at a moment of its course. -/

namespace Sys2Proof.Machine

/-! ### The hardware reset -/

theorem hardReset_atReset (s : State) : (hardReset s).AtReset := by
  constructor <;> first | rfl | (intro b; exact Table.get_fill 0 b)

/-- With no call outstanding the hardware reset is the reset of block state. -/
theorem hardReset_quiet {s : State} (h : s.outstanding = none) : hardReset s = resetBlock s := by
  rw [hardReset, abandonCall, h]

/-- What the reset of block state keeps decides what it answers. -/
theorem resetBlock_congr {s t : State} (h1 : s.wCount = t.wCount) (h2 : s.inp = t.inp) (h3 : s.inPos = t.inPos)
    (h4 : s.out = t.out) (h5 : s.calls = t.calls) (h6 : s.answers = t.answers) (h7 : s.port = t.port)
    (h8 : s.resetPin = t.resetPin) (h9 : s.waits = t.waits) : resetBlock s = resetBlock t := by
  simp only [resetBlock, h1, h2, h3, h4, h5, h6, h7, h8, h9]

/-- Everything an abandoned call can do (R134): it acts on its own stream, and no call is made. -/
theorem abandonCall_eq (s : State) :
    ∃ pos out as, abandonCall s = { s with
        inPos := pos, out := out, answers := as, outstanding := none } ∧
      (s.outstanding ≠ some .outFlush → s.out <+: out) ∧
      ((∀ n, s.outstanding ≠ some (.inRead n)) → pos = s.inPos) ∧
      (s.outstanding = none → out = s.out ∧ as = s.answers) := by
  unfold abandonCall
  cases ho : s.outstanding with
  | none =>
    refine ⟨s.inPos, s.out, s.answers, by cases s; cases ho; rfl,
      fun _ => List.prefix_rfl, fun _ => rfl, fun _ => ⟨rfl, rfl⟩⟩
  | some c =>
    have hclose : s.closeCall = { s with answers := s.answers.tail, outstanding := none } := rfl
    have key : ∀ t : State, (∃ pos out, t = { s.closeCall with inPos := pos, out := out } ∧
        (c ≠ .outFlush → s.out <+: out) ∧ ((∀ n, c ≠ .inRead n) → pos = s.inPos)) →
        ∃ pos out as, t = { s with inPos := pos, out := out, answers := as, outstanding := none } ∧
          (some c ≠ some .outFlush → s.out <+: out) ∧
          ((∀ n, some c ≠ some (.inRead n)) → pos = s.inPos) ∧
          (some c = none → out = s.out ∧ as = s.answers) := by
      rintro t ⟨pos, out, rfl, h1, h2⟩
      exact ⟨pos, out, _, by rw [hclose], fun h => h1 fun h' => h (h' ▸ rfl),
        fun h => h2 fun n h' => h n (h' ▸ rfl), nofun⟩
    have hok : ∀ a, ∃ pos out, okEffect c a s.closeCall = { s.closeCall with inPos := pos, out := out } ∧
        (c ≠ .outFlush → s.out <+: out) ∧ ((∀ n, c ≠ .inRead n) → pos = s.inPos) := by
      intro a
      obtain ⟨n, b, h, -, hn⟩ := okEffect_eq c a s.closeCall
      exact ⟨_, _, h, fun _ => by simp [hclose], fun hc => by rw [hn hc]; rfl⟩
    have hid : ∃ pos out, s.closeCall = { s.closeCall with inPos := pos, out := out } ∧
        (c ≠ .outFlush → s.out <+: out) ∧ ((∀ n, c ≠ .inRead n) → pos = s.inPos) :=
      ⟨s.inPos, s.out, rfl, fun _ => List.prefix_rfl, fun _ => rfl⟩
    cases s.nextAnswer with
    | ok => exact key _ (hok _)
    | pad bits => exact key _ (hok _)
    | fail k left =>
      obtain ⟨pos, out, h, h1, -, h3⟩ := failEffect_eq c k left s.closeCall
      exact key _ ⟨pos, out, h, h1, h3⟩
    | later => exact key _ hid
    | never => exact key _ hid

/-- Everything the hardware reset can do. -/
theorem hardReset_eq (s : State) :
    ∃ pos out as, hardReset s = resetBlock { s with
        inPos := pos, out := out, answers := as } ∧
      (s.outstanding ≠ some .outFlush → s.out <+: out) ∧
      ((∀ n, s.outstanding ≠ some (.inRead n)) → pos = s.inPos) ∧
      (s.outstanding = none → out = s.out ∧ as = s.answers) := by
  obtain ⟨pos, out, as, h, h'⟩ := abandonCall_eq s
  exact ⟨pos, out, as, by rw [hardReset, h]; rfl, h'⟩

theorem okEffect_setWork (c : Call) (a : Answer) (s : State) (w : Option Work) :
    okEffect c a (s.setWork w) = (okEffect c a s).setWork w := by
  cases c with
  | inRead n =>
    by_cases h : s.remaining < n
    · rw [okEffect, okEffect, if_pos h, if_pos (show (s.setWork w).remaining < n from h)]
    · rw [okEffect, okEffect, if_neg h, if_neg (show ¬(s.setWork w).remaining < n from h)]; rfl
  | outWrite n v => rfl
  | outFlush => rfl

/-- The piece of work a command stands at is nothing to the hardware reset. -/
theorem hardReset_setWork (s : State) (w : Option Work) : hardReset (s.setWork w) = hardReset s := by
  have h : abandonCall (s.setWork w) = (abandonCall s).setWork w := by
    have hn : (s.setWork w).nextAnswer = s.nextAnswer := rfl
    simp only [abandonCall, setWork_outstanding, hn]
    cases s.outstanding with
    | none => rfl
    | some c =>
      dsimp only
      cases s.nextAnswer with
      | ok => exact okEffect_setWork c _ s.closeCall w
      | pad bits => exact okEffect_setWork c _ s.closeCall w
      | fail k left => cases c <;> rfl
      | later => rfl
      | never => rfl
  rw [hardReset, h]; rfl

/-- The state a hardware reset leaves meets the invariant. -/
theorem hardReset_inv {s : State} (h : Config.minWCount ≤ s.wCount) : (hardReset s).Inv := by
  refine inv_of_idle ?_ ⟨rfl, rfl, nofun, nofun, nofun⟩ rfl rfl rfl rfl
  refine ⟨?_, ?_, Nat.two_pow_pos _, Nat.zero_le _, Nat.two_pow_pos _, fun _ => rfl, Nat.zero_le _,
    fun _ => ⟨rfl, rfl, rfl⟩, nofun⟩
  · show _ ≤ (abandonCall s).wCount
    rw [abandon_wCount]; exact h
  · intro c hc
    have : c = 0 := List.eq_of_mem_replicate hc
    subst this; exact Nat.two_pow_pos _

/-! ### A command at a moment of its course -/

/-- The state a command stands in. -/
def Progress.state? : Progress → Option State
  | .more _ s => some s
  | .wait _ s => some s
  | .done s => some s
  | .raised _ _ _ s => some s
  | .stuck _ => none

theorem cutShort_state {p : Progress} {t : State} (h : p.state? = some t) :
    cutShort p = .next (hardReset t) := by
  cases p <;> cases h <;> rfl

theorem Progress.Holds.state {P : State → Prop} {p : Progress} {t : State} (hp : p.Holds P)
    (h : p.state? = some t) : P t := by
  cases p <;> cases h <;> exact hp

theorem Ended.state {op : BitVec 4} {q : Progress} {u : State} (h : Ended op q u) :
    ∃ t, q.state? = some t ∧ u.calls = t.calls ∧
      t.out = u.out ∧ t.inPos = u.inPos ∧ t.answers = u.answers ∧ t.outstanding = u.outstanding := by
  cases h <;> exact ⟨_, rfl, rfl, rfl, rfl, rfl, rfl⟩

/-- A run begun at a state does not begin stuck. -/
theorem Steps.state {k : Nat} {p q : Progress} {t : State} (h : Steps k p q) (hq : q.state? = some t) :
    ∃ s, p.state? = some s := by
  cases h with
  | refl => exact ⟨t, hq⟩
  | step => exact ⟨_, rfl⟩

/-- A command cut short stands somewhere between its beginning and its end. -/
theorem Steps.between {k : Nat} {op : BitVec 4} {p q : Progress} {u : State} (h : Steps k p q)
    (he : Ended op q u) (n : Nat) :
    Steps (min n k) p (runPieces n p) ∧ Steps (k - n) (runPieces n p) q := by
  induction n generalizing k p with
  | zero => simpa [runPieces] using ⟨.refl _, h⟩
  | succ n ih =>
    cases h with
    | refl => cases he <;> simpa [runPieces] using Steps.refl _
    | step h =>
      obtain ⟨h1, h2⟩ := ih h
      simp only [runPieces, Nat.add_min_add_right, Nat.add_sub_add_right]
      exact ⟨.step h1, h2⟩

@[simp] theorem runPieces_zero (p : Progress) : runPieces 0 p = p := rfl

/-- As many pieces of work as lead to `q`. -/
theorem Steps.runPieces {k : Nat} {p q : Progress} (h : Steps k p q) : runPieces k p = q := by
  induction h with
  | refl => rfl
  | step _ ih => exact ih

theorem Steps.atEnd {k : Nat} {op : BitVec 4} {p q : Progress} {u : State} (h : Steps k p q)
    (he : Ended op q u) {n : Nat} (hn : k ≤ n) : Machine.runPieces n p = q := by
  have := (h.between he n).2
  rw [Nat.sub_eq_zero_of_le hn] at this
  generalize Machine.runPieces n p = r at this
  cases this; rfl

/-- What a piece of work leaves at the collaborator (R37): at most one call is made, and a flush is
outstanding only if it was or if the work is FLUSH's. -/
structure OneCall (w : Work) (s t : State) : Prop where
  calls : t.calls = s.calls ∨ ∃ c, t.calls = s.calls ++ [c]
  flush : t.outstanding = some .outFlush → s.outstanding = some .outFlush ∨ w = .flush

theorem OneCall.quiet {w : Work} {s t : State} (h : t.calls = s.calls) (h' : t.outstanding = s.outstanding) :
    OneCall w s t := ⟨.inl h, fun hf => .inl (h' ▸ hf)⟩

theorem OneCall.holdTree {w : Work} {s t : State} (h : OneCall w s t) (x : HuffTree) :
    OneCall w s (t.holdTree x) := ⟨h.calls, h.flush⟩

theorem engineStep_oneCall (w : Work) (s : State) : (engineStep w s).Holds (OneCall w s) := by
  have ha : ∀ {c : Call} {t : State}, CallFrame c s t → t.outstanding = none → OneCall w s t :=
    fun h ho => ⟨h.callsGrow.imp_right fun h => ⟨_, h⟩, fun hf => by rw [ho] at hf; cases hf⟩
  have hb : ∀ {c : Call} {t : State}, CallFrame c s t → t.outstanding = some c → c ≠ .outFlush → OneCall w s t :=
    fun h ho hc => ⟨h.callsGrow.imp_right fun h => ⟨_, h⟩, fun hf => by rw [ho] at hf; cases hf; exact absurd rfl hc⟩
  cases w with
  | build pq nextSeq =>
    simp only [engineStep, buildStep]
    repeat' split
    all_goals first | trivial | exact .quiet rfl rfl
  | gencodes stack =>
    simp only [engineStep]
    unfold gencodesStep
    repeat' split
    all_goals first | trivial | exact .quiet rfl rfl
  | wrhdr stack =>
    have hw : ∀ n v here after, (wrhdrWrite n v here after s).Holds (OneCall (.wrhdr stack) s) := by
      intro n v here after
      unfold wrhdrWrite
      rcases outWrite_cases n v s with ⟨-, e⟩ | ⟨-, ⟨t, e, hf, ho, -⟩ | ⟨t, k, e, hf, ho, -⟩ | ⟨t, e, hf, ho, -⟩⟩ <;> rw [e]
      · exact .quiet rfl rfl
      all_goals first | exact ha hf ho | exact hb hf ho nofun
    simp only [engineStep]
    unfold wrhdrStep
    split <;> first | exact .quiet rfl rfl | exact hw _ _ _ _
  | encode phase =>
    cases phase with
    | fetch =>
      simp only [engineStep, encodeStep, encodeFetch]
      split
      · trivial
      rcases inRead_cases 8 s with ⟨t, e, -, hf, ho, -⟩ | ⟨t, e, -, hf, ho, -⟩ | ⟨t, e, hf, ho⟩ | ⟨t, e, hf, ho, -⟩ <;> rw [e] <;>
        simp only [encodeByte, encodeEnd] <;> repeat' split
      all_goals first | trivial | first | exact ha hf ho | exact hb hf ho nofun
    | emit c =>
      simp only [engineStep, encodeStep]
      rcases outWrite_cases c.length (val c) s with ⟨-, e⟩ | ⟨-, ⟨t, e, hf, ho, -⟩ | ⟨t, k, e, hf, ho, -⟩ | ⟨t, e, hf, ho, -⟩⟩ <;> rw [e]
      · exact .quiet rfl rfl
      all_goals first | exact ha hf ho | exact hb hf ho nofun
    | last c =>
      simp only [engineStep, encodeStep]
      rcases outWrite_cases c.length (val c) s with ⟨-, e⟩ | ⟨-, ⟨t, e, hf, ho, -⟩ | ⟨t, k, e, hf, ho, -⟩ | ⟨t, e, hf, ho, -⟩⟩ <;> rw [e]
      · exact .quiet rfl rfl
      all_goals first | exact ha hf ho | exact hb hf ho nofun
  | flush =>
    simp only [engineStep, flushStep]
    rcases outFlush_cases s with ⟨t, e, hf, ho⟩ | ⟨t, e, hf, ho⟩ | ⟨t, e, hf, ho⟩ <;> rw [e]
    · exact ha hf ho
    · exact ha hf ho
    · exact ⟨hf.callsGrow.imp_right fun h => ⟨_, h⟩, fun _ => .inr rfl⟩
  | rdhdr phase seen nint stack =>
    simp only [engineStep]
    unfold rdhdrStep
    cases phase with
    | marker =>
      dsimp only
      rcases inRead_cases 1 s with ⟨t, e, -, hf, ho, -⟩ | ⟨t, e, -, hf, ho, -⟩ | ⟨t, e, hf, ho⟩ | ⟨t, e, hf, ho, -⟩ <;> rw [e] <;>
        simp only [rdhdrInternal] <;> repeat' split
      all_goals first | exact ha hf ho | exact hb hf ho nofun
    | field =>
      dsimp only
      rcases inRead_cases 9 s with ⟨t, e, -, hf, ho, -⟩ | ⟨t, e, -, hf, ho, -⟩ | ⟨t, e, hf, ho⟩ | ⟨t, e, hf, ho, -⟩ <;> rw [e] <;>
        simp only [rdhdrLeaf, rdhdrEnd] <;> repeat' split
      all_goals first | exact ha hf ho | exact hb hf ho nofun | exact (ha hf ho).holdTree _
  | decode cur =>
    simp only [engineStep, decodeStep]
    split
    · trivial
    cases cur with
    | leaf x w =>
      simp only [decodeLeaf]
      split
      · exact .quiet rfl rfl
      rcases outWrite_cases 8 x.val s with ⟨-, e⟩ | ⟨-, ⟨t, e, hf, ho, -⟩ | ⟨t, k, e, hf, ho, -⟩ | ⟨t, e, hf, ho, -⟩⟩ <;> rw [e]
      · exact .quiet rfl rfl
      all_goals first | exact ha hf ho | exact hb hf ho nofun
    | node l r w =>
      simp only [decodeNode]
      rcases inRead_cases 1 s with ⟨t, e, -, hf, ho, -⟩ | ⟨t, e, -, hf, ho, -⟩ | ⟨t, e, hf, ho⟩ | ⟨t, e, hf, ho, -⟩ <;> rw [e] <;>
        first | exact ha hf ho | exact hb hf ho nofun

/-- What every piece of work keeps, a run of them keeps. -/
theorem Steps.keeps {P : State → Prop} (hP : ∀ w s, P s → (engineStep w s).Holds P) {k : Nat} {p q : Progress}
    {s t : State} (h : Steps k p q) (hs : p.state? = some s) (ht : q.state? = some t) (h0 : P s) : P t := by
  induction h generalizing s with
  | refl => rw [hs] at ht; cases ht; exact h0
  | step h ih =>
    obtain ⟨s', hs'⟩ := h.state ht
    cases hs
    exact ih hs' ht ((hP _ _ h0).state hs')

/-- The calls of a command only grow (R37). -/
theorem Steps.callsGrow {k : Nat} {p q : Progress} {s t : State} (h : Steps k p q)
    (hs : p.state? = some s) (ht : q.state? = some t) : s.calls <+: t.calls :=
  h.keeps (P := fun t => s.calls <+: t.calls)
    (fun w _ h0 => (engineStep_frame w _).1.mono fun _ hf => h0.trans hf.callsPrefix) hs ht List.prefix_rfl

/-- What no piece of work touches. -/
theorem Steps.untouched {k : Nat} {p q : Progress} {s t : State} (h : Steps k p q)
    (hs : p.state? = some s) (ht : q.state? = some t) :
    t.wCount = s.wCount ∧ t.inp = s.inp ∧ t.port = s.port ∧ t.resetPin = s.resetPin :=
  h.keeps (P := fun t => t.wCount = s.wCount ∧ t.inp = s.inp ∧ t.port = s.port ∧ t.resetPin = s.resetPin)
    (fun w _ h0 => (engineStep_frame w _).1.mono fun _ hf => by rw [hf.others]; exact h0) hs ht ⟨rfl, rfl, rfl, rfl⟩

/-- Between the calls of a command there is a moment for each number of them: none, and then one more at a
time (R134). -/
theorem Steps.moment {k : Nat} {p q : Progress} {s t : State} {cs : List Call} (h : Steps k p q)
    (hs : p.state? = some s) (ht : q.state? = some t) (hc : t.calls = s.calls ++ cs) (m : Nat)
    (hm : m ≤ cs.length) :
    ∃ n ≤ k, ∃ v, (Machine.runPieces n p).state? = some v ∧ v.calls = s.calls ++ cs.take m := by
  induction h generalizing s cs m with
  | refl p =>
    have hst : s = t := by rw [hs] at ht; injection ht
    have : cs = [] := by rw [hst] at hc; simpa using hc
    subst this
    exact ⟨0, Nat.le_refl _, s, hs, by simp⟩
  | @step k w s₀ q h ih =>
    have hst : s₀ = s := by injection hs
    subst hst
    cases m with
    | zero => exact ⟨0, Nat.zero_le _, s₀, rfl, by simp⟩
    | succ m =>
      obtain ⟨s', hs'⟩ := h.state ht
      rcases ((engineStep_oneCall w s₀).state hs').calls with hcall | ⟨c, hcall⟩
      · obtain ⟨n, hn, v, hv, hvc⟩ := ih hs' ht (by rw [hc, hcall]) (m + 1) hm
        exact ⟨n + 1, by omega, v, hv, by rw [hvc, hcall]⟩
      · obtain ⟨ds, hds⟩ := h.callsGrow hs' ht
        have hcs : cs = c :: ds := by
          rw [hcall, hc] at hds
          simpa using hds.symm
        subst hcs
        obtain ⟨n, hn, v, hv, hvc⟩ := ih hs' ht hds.symm m (by simpa using hm)
        exact ⟨n + 1, by omega, v, hv, by rw [hvc, hcall]; simp⟩

/-- `t` has the streams, the outside parties and the parameter of `s`. -/
structure Untouched (s t : State) : Prop where
  wCount : t.wCount = s.wCount
  inp : t.inp = s.inp
  inPos : t.inPos = s.inPos
  out : t.out = s.out
  calls : t.calls = s.calls
  answers : t.answers = s.answers
  port : t.port = s.port
  resetPin : t.resetPin = s.resetPin
  waits : t.waits = s.waits
  outstanding : s.outstanding = none → t.outstanding = none

/-- A command's acceptance, its prologue and what its rule does before its first piece of work touch neither
the streams nor the outside parties. -/
theorem prologue_starts (i : Instr) (s : State) : (prologue i (bodyOf i) s).Holds (Untouched s) := by
  unfold prologue
  split
  · exact ⟨rfl, rfl, rfl, rfl, rfl, rfl, rfl, rfl, rfl, id⟩
  split
  · exact ⟨rfl, rfl, rfl, rfl, rfl, rfl, rfl, rfl, rfl, id⟩
  cases i <;> simp only [bodyOf, clrfreqStart, ldfreqStart, rdfreqStart, buildStart, gencodesStart, wrhdrStart,
    encodeStart, flushStart, rdhdrStart, decodeStart, rdcodeStart, clrerrStart, srstStart] <;> repeat' split
  all_goals first
    | trivial
    | exact ⟨rfl, rfl, rfl, rfl, rfl, rfl, rfl, rfl, rfl, id⟩
    | exact ⟨rfl, rfl, rfl, rfl, rfl, rfl, rfl, rfl, rfl, fun _ => rfl⟩

/-- A command's work is its own when it begins, and no call of it is made yet. -/
def Progress.Begins (op : BitVec 4) : Progress → Prop
  | .more w _ => w.opcode = op
  | .wait _ _ => False
  | .done _ => True
  | .raised _ _ _ _ => True
  | .stuck _ => True

theorem prologue_begins (i : Instr) (s : State) : (prologue i (bodyOf i) s).Begins i.opcode := by
  unfold prologue
  split
  · trivial
  split
  · trivial
  cases i <;> simp only [bodyOf, clrfreqStart, ldfreqStart, rdfreqStart, buildStart, gencodesStart, wrhdrStart,
    encodeStart, flushStart, rdhdrStart, decodeStart, rdcodeStart, clrerrStart, srstStart] <;> repeat' split
  all_goals trivial

/-- A command that answers a next state went from its prologue to its end. -/
theorem exec_course {i : Instr} {s u : State} (h : exec i s = .next u) :
    ∃ k q, Steps k (prologue i (bodyOf i) s) q ∧ Ended i.opcode q u := by
  rw [exec_eq_command, command] at h
  exact finish_next h

/-- What is on OUT stays on it while a command other than FLUSH runs (R41). -/
theorem Steps.outGrows {k : Nat} {op : BitVec 4} {p q : Progress} {s t : State} (h : Steps k p q)
    (hb : p.Begins op) (hs : p.state? = some s) (ht : q.state? = some t) (ho : op ≠ 0x8) :
    s.out <+: t.out := by
  have hp : p.Within op s := by
    cases p with
    | more w s₀ => cases hs; exact ⟨.refl _ _, fun w' t h => by injection h with h1; exact h1 ▸ hb, by simp⟩
    | wait w s₀ => exact hb.elim
    | done s₀ => cases hs; exact ⟨.refl _ _, by simp, by simp⟩
    | raised e sub sym s₀ => cases hs; exact ⟨.refl _ _, by simp, by simp⟩
    | stuck f => exact ⟨trivial, by simp, by simp⟩
  exact ((h.within hp).1.state ht).grows ho

/-- Only FLUSH leaves a flush outstanding. -/
theorem Steps.noFlush {k : Nat} {op : BitVec 4} {p q : Progress} {s t : State} (h : Steps k p q)
    (hb : ∀ w t, p = .more w t → w.opcode = op) (hs : p.state? = some s) (ht : q.state? = some t)
    (ho : op ≠ 0x8) (h0 : s.outstanding ≠ some .outFlush) : t.outstanding ≠ some .outFlush := by
  induction h generalizing s with
  | refl => rw [hs] at ht; cases ht; exact h0
  | @step k w s₀ q h ih =>
    obtain ⟨s', hs'⟩ := h.state ht
    have hst : s₀ = s := by injection hs
    subst hst
    have hw := hb w s₀ rfl
    refine ih (fun w' t' e => ((engineStep_frame w s₀).2.1 w' t' e).trans hw) hs' ht fun hf => ?_
    rcases ((engineStep_oneCall w s₀).state hs').flush hf with h1 | h1
    · exact h0 h1
    · subst h1; exact ho hw.symm

/-- A step in which a command runs, and the same step cut short after each number of pieces of its work. -/
structure Course (s : State) (pin : List ResetLevel) (op : BitVec 4) (p : Progress) (s₀ t : State) : Prop where
  cut : ∀ n, step { s with resetPin := .during n :: pin } = cutShort (runPieces n p)
  whole : step { s with resetPin := .released :: pin } = .next t
  ends : ∃ k q, Steps k p q ∧ Ended op q t
  starts : p.state? = some s₀
  kept : s₀.waits = s.waits ∧ s₀.wCount = s.wCount ∧ s₀.inp = s.inp ∧ s₀.inPos = s.inPos ∧ s₀.out = s.out ∧ s₀.calls = s.calls ∧
    s₀.answers = s.answers ∧ s₀.resetPin = pin ∧ s₀.outstanding = s.outstanding
  begins : p.Begins op

/-- Everything a step cut short can do. -/
theorem Course.all {s : State} {pin : List ResetLevel} {op : BitVec 4} {p : Progress} {s₀ t : State}
    (h : Course s pin op p s₀ t) :
    ∃ cs, t.calls = s.calls ++ cs ∧
      (∀ n, ∃ v k, step { s with resetPin := .during n :: pin } = .next (hardReset v) ∧
        v.wCount = s.wCount ∧ v.inp = s.inp ∧ v.port = s₀.port ∧ v.resetPin = pin ∧ v.calls = s.calls ++ cs.take k ∧
        (op ≠ 0x8 → s.outstanding ≠ some .outFlush → s.out <+: v.out ∧ v.outstanding ≠ some .outFlush)) ∧
      (∀ k ≤ cs.length, ∃ n v, step { s with resetPin := .during n :: pin } = .next (hardReset v) ∧
        v.calls = s.calls ++ cs.take k) ∧
      ∃ N, ∀ n ≥ N, ∃ v, step { s with resetPin := .during n :: pin } = .next (hardReset v) ∧
        v.calls = t.calls ∧ v.out = t.out ∧ v.inPos = t.inPos ∧ v.answers = t.answers ∧ v.outstanding = t.outstanding := by
  obtain ⟨k, q, hk, he⟩ := h.ends
  obtain ⟨v, hv, hvc, hvs⟩ := he.state
  obtain ⟨-, k1, k2, k3, k4, k5, k6, k7, k8⟩ := h.kept
  obtain ⟨cs, hcs⟩ := hk.callsGrow h.starts hv
  have hcs : v.calls = s₀.calls ++ cs := hcs.symm
  refine ⟨cs, by rw [hvc, hcs, k5], fun n => ?_, fun m hm => ?_, k, fun n hn => ⟨v, ?_, hvc.symm, ?_⟩⟩
  · obtain ⟨h1, h2⟩ := hk.between he n
    obtain ⟨r, hr⟩ := h2.state hv
    obtain ⟨u1, u2, u3, u4⟩ := h1.untouched h.starts hr
    refine ⟨r, r.calls.length - s.calls.length, by rw [h.cut, cutShort_state hr], u1.trans k1, u2.trans k2, u3, u4.trans k7, ?_, ?_⟩
    · obtain ⟨ds, hds⟩ := h1.callsGrow h.starts hr
      obtain ⟨es, hes⟩ := h2.callsGrow hr hv
      rw [← hds, hcs, List.append_assoc, List.append_cancel_left_eq] at hes
      rw [← hes, ← hds, k5]
      simp
    · intro ho hf
      refine ⟨?_, h1.noFlush ?_ h.starts hr ho (k8 ▸ hf)⟩
      · rw [← k4]; exact h1.outGrows h.begins h.starts hr ho
      · intro w t e; have := h.begins; rw [e] at this; exact this
  · obtain ⟨n, -, r, hr, hrc⟩ := hk.moment h.starts hv hcs m hm
    exact ⟨n, r, by rw [h.cut, cutShort_state hr], by rw [hrc, k5]⟩
  · rw [h.cut, hk.atEnd he hn, cutShort_state hv]
  · exact hvs

/-- The reset input's levels are no part of the invariant. -/
theorem State.Inv.withPin {s : State} (h : s.Inv) (pin : List ResetLevel) : ({ s with resetPin := pin } : State).Inv := by
  obtain ⟨a1, a2, a3, a4, a5, a6, a7, a8, a9, a10, a11, a12, a13, a14, a15, a16⟩ := h
  refine ⟨a1, a2, a3, a4, a5, a6, a7, a8, a9, a10, a11, a12, a13, a14, a15, fun hb => ?_⟩
  obtain ⟨x, w, l, c, b1, b2, b3, b4, b5, b6⟩ := a16 hb
  exact ⟨x, w, l, c, b1, b2, b3, b4, b5, b6.congr rfl rfl⟩

theorem resume_runs {s : State} {w : Work} {l : Latch} (hw : s.work = some w) (hl : s.latch = some l) :
    resume s = finish (cmdOpc l.cmd) (.more w (s.setWork none)) := by
  unfold resume; rw [hw, hl]

/-- A BUSY block goes on with its command. -/
theorem Course.busy {s : State} (pin : List ResetLevel) (h : s.Inv) (hb : s.status.busy = true) :
    ∃ w p s₀ t, s.work = some w ∧ s₀.port = s.port ∧ Course s pin w.opcode p s₀ t ∧ t.Inv := by
  obtain ⟨-, w, l, c, h1, h2, h3, h4, h5, -⟩ := h.running hb
  obtain ⟨t, ht, hi⟩ := resume_inv (h.withPin pin) hb
  refine ⟨w, .more w (({ s with resetPin := pin } : State).setWork none),
    ({ s with resetPin := pin } : State).setWork none, t, h1, rfl, ?_, hi⟩
  · refine ⟨fun n => ?_, ?_, ?_, rfl, ⟨rfl, rfl, rfl, rfl, rfl, rfl, rfl, rfl, rfl⟩, rfl⟩
    · simp [step, State.resetAsserted, State.resetLevel, resetStep, cutStep, State.nextPin, State.setResetPin, hb, h1]
    · simpa [step, State.resetAsserted, State.resetLevel, State.nextPin, State.setResetPin, hb] using ht
    · rw [resume_runs (s := { s with resetPin := pin }) h1 h2, h5] at ht
      exact finish_next ht

/-- An idle block runs the command that is offered. -/
theorem Course.offered {s : State} (pin : List ResetLevel) {cmd : CmdWord} {data : Nat} {moves : List PortEvent}
    (h : s.Inv) (hb : s.status.busy = false) (hp : s.port = .offer cmd data :: moves) :
    ∃ p s₀ t, s₀.port = moves ∧ Course s pin (cmdOpc cmd) p s₀ t ∧ t.Inv := by
  obtain ⟨hl, hw, ho⟩ := h.idle hb
  have hB := h.base
  have hH := h.held
  obtain ⟨t, ht, hi⟩ := exec_inv (i := decode cmd data)
    (s := (({ s with resetPin := pin } : State).setPort moves).latchCommand cmd data)
    (l := { cmd := cmd, data := countOf s.wCount data })
    (hB.congr rfl rfl rfl ⟨rfl, rfl, rfl, rfl, rfl⟩) (hH.congr rfl rfl rfl rfl) hw ho rfl
    (decode_opcode cmd data).symm
  obtain ⟨k, q, hk, he⟩ := exec_course ht
  obtain ⟨v, hv, -⟩ := he.state
  obtain ⟨s₀, hs₀⟩ := hk.state hv
  obtain ⟨a1, a2, a3, a4, a5, a6, a7, a8, a10, a9⟩ := (prologue_starts _ _).state hs₀
  refine ⟨_, s₀, t, a7, ⟨fun n => ?_, ?_, ?_, hs₀, ⟨a10, a1, a2, a3, a4, a5, a6, a8, (a9 ho).trans ho.symm⟩, ?_⟩, hi⟩
  · simp [step, State.resetAsserted, State.resetLevel, resetStep, cutStep, State.nextPin, State.setResetPin, hb, hp]
  · simpa [step, State.resetAsserted, State.resetLevel, State.nextPin, State.setResetPin, hb, hostMove, hp] using ht
  · exact ⟨k, q, hk, by rw [← decode_opcode cmd data]; exact he⟩
  · rw [← decode_opcode cmd data]; exact prologue_begins _ _

end Sys2Proof.Machine
end

