-- ==== Sys2Proof/Tests/Slice0.lean ====
section
/-! SUPPORT. Tests: the well-formedness checks, words written out from spec/30_encoding.md rules R54 and
R55, single steps whose results are those of spec/95_test_vectors.md (each test names its vector), and for
each statement with hypotheses a state and operands that meet them (`witness_…`). -/

set_option Elab.async false

namespace Sys2Proof.Machine

/-! ### Well-formedness: one ill-formed term for each check -/

theorem test_wf_clrfreq : (Instr.clrfreq 1).WellFormed 32 = false := by decide
theorem test_wf_ldfreq_rsv : (Instr.ldfreq 1 65 3).WellFormed 32 = false := by decide
theorem test_wf_ldfreq_sym : (Instr.ldfreq 0 256 3).WellFormed 32 = false := by decide
theorem test_wf_ldfreq_count : (Instr.ldfreq 0 65 16).WellFormed 4 = false := by decide
theorem test_wf_ldfreq_good : (Instr.ldfreq 0 255 15).WellFormed 4 = true := by decide
theorem test_wf_rdfreq_rsv : (Instr.rdfreq 1 65).WellFormed 32 = false := by decide
theorem test_wf_rdfreq_sym : (Instr.rdfreq 0 257).WellFormed 32 = false := by decide
theorem test_wf_build : (Instr.build 1).WellFormed 32 = false := by decide
theorem test_wf_gencodes : (Instr.gencodes 1).WellFormed 32 = false := by decide
theorem test_wf_wrhdr : (Instr.wrhdr 1).WellFormed 32 = false := by decide
theorem test_wf_encode : (Instr.encode 1).WellFormed 32 = false := by decide
theorem test_wf_flush : (Instr.flush 1).WellFormed 32 = false := by decide
theorem test_wf_rdhdr : (Instr.rdhdr 1).WellFormed 32 = false := by decide
theorem test_wf_decode : (Instr.decode 1).WellFormed 32 = false := by decide
theorem test_wf_rdcode_rsv : (Instr.rdcode 1 65).WellFormed 32 = false := by decide
theorem test_wf_rdcode_sym : (Instr.rdcode 0 257).WellFormed 32 = false := by decide
theorem test_wf_reservedC : (Instr.reservedC 0).WellFormed 32 = false := by decide
theorem test_wf_reservedD : (Instr.reservedD 0).WellFormed 32 = false := by decide

/-! ### Decoding: OPC 31:28, RSV 27:9, SYM 8:0, bit by bit -/

theorem test_dec_nop : decode 0b0000_1111_0000_0000_0000_0000_0000_0001 9 = .nop 0xF000001 := by decide
theorem test_dec_clrfreq : decode 0b0001_0000_0000_0000_0000_0000_0000_0000 0 = .clrfreq 0 := by decide
theorem test_dec_ldfreq :
    decode 0b0010_0000_0000_0000_0000_0000_0100_0001 3 = .ldfreq 0 65 3 := by decide
theorem test_dec_ldfreq_rsv :
    decode 0b0010_1000_0000_0000_0000_0010_1111_1111 7 = .ldfreq 0x40001 255 7 := by decide
theorem test_dec_rdfreq : decode 0b0011_0000_0000_0000_0000_0001_0000_0000 9 = .rdfreq 0 256 := by decide
theorem test_dec_build : decode 0b0100_0000_0000_0000_0000_0000_0000_0001 0 = .build 1 := by decide
theorem test_dec_gencodes : decode 0b0101_0000_0000_0000_0000_0000_0000_0000 0 = .gencodes 0 := by decide
theorem test_dec_wrhdr : decode 0b0110_0000_0000_0000_0000_0000_0000_0000 0 = .wrhdr 0 := by decide
theorem test_dec_encode : decode 0b0111_0000_0000_0000_0000_0000_0000_0000 0 = .encode 0 := by decide
theorem test_dec_flush : decode 0b1000_0000_0000_0000_0000_0000_0000_0000 0 = .flush 0 := by decide
theorem test_dec_rdhdr : decode 0b1001_0000_0000_0000_0000_0000_0000_0000 0 = .rdhdr 0 := by decide
theorem test_dec_decode : decode 0b1010_0000_0000_0000_0000_0000_0000_0000 0 = .decode 0 := by decide
theorem test_dec_rdcode :
    decode 0b1011_0000_0000_0000_0000_0000_0110_0011 0 = .rdcode 0 99 := by decide
theorem test_dec_reservedC : decode 0b1100_0000_0000_0000_0000_0000_0000_0000 0 = .reservedC 0 := by decide
theorem test_dec_reservedD : decode 0b1101_0000_0000_0000_0000_0000_0000_0001 0 = .reservedD 1 := by decide
theorem test_dec_clrerr : decode 0b1110_0000_0000_0000_0000_0000_0000_0000 0 = .clrerr 0 := by decide
theorem test_dec_srst : decode 0b1111_0000_0000_0000_0000_0000_0000_0000 0 = .srst 0 := by decide
theorem test_table_word : decodeTableWord 64 0x0000000320000041 = some (.ldfreq 0 65 3) := by decide
theorem test_table_word_short : decodeTableWord 32 0x0000000320000041 = some (.ldfreq 0 65 0) := by decide

/-! ### Small states and one step -/

/-- FREQ with these counts and 0 elsewhere. -/
def freqWith (pairs : List (Nat × Nat)) : Table Nat 256 :=
  pairs.foldl (fun f p => setFreqAt f p.1 p.2) (Table.fill 256 0)

/-- CODE as generated from a tree. -/
def codeFor (t : HuffTree) : Table (Option Bits) 257 :=
  ⟨(List.finRange 257).map t.codeOf, by simp⟩

/-- The state after reset with these counts. -/
def counted (pairs : List (Nat × Nat)) : State := { State.reset with freq := freqWith pairs }

/-- The state after reset with a tree, and codes if `codes`. -/
def holding (t : HuffTree) (codes : Bool) : State :=
  { State.reset with
    tree := some t
    code := if codes then some (codeFor t) else none
    status := { Status.reset with treeValid := true, codesValid := codes } }

/-- The state with these bits on IN, at its start. -/
def State.fed (s : State) (bits : Bits) : State := { s with inp := bits, inPos := 0 }

/-- The state with these coming answers of the collaborator. -/
def State.answered (s : State) (answers : List Answer) : State := { s with answers := answers }

/-- The state after one step that runs the command (CMD, DATA). -/
def State.after (s : State) (cmd : CmdWord) (data : Nat) : State :=
  (nextState? (step (s.offerFirst cmd data))).getD { s with waits := 1000 }

/-- STATUS as the host reads it after that step. -/
def State.statusAfter (s : State) (cmd : CmdWord) (data : Nat) : BitVec 32 := (s.after cmd data).status.word

/-- The tree of V-BLD-2b: the AAA tree. -/
def treeAAA : HuffTree := .node (.leaf 256 1) (.leaf 65 3) 4

/-- The tree of V-BLD-3: the AAB tree. -/
def treeAAB : HuffTree := .node (.leaf 65 2) (.node (.leaf 66 1) (.leaf 256 1) 2) 4

/-- The tree of V-BLD-5: abracadabra. -/
def treeAbra : HuffTree :=
  .node (.leaf 97 5)
    (.node (.node (.leaf 256 1) (.leaf 98 2) 3)
      (.node (.leaf 114 2) (.node (.leaf 99 1) (.leaf 100 1) 2) 4) 7) 12

/-- The header of V-HDR-2, 21 bits. -/
def headerAAA : Bits := bin 21 0b011000000001001000001

/-- STATUS 00000920, after a truncated header (L1-3). -/
def truncated : State :=
  { State.reset with status := { Status.reset with err := 2, errOp := 9 } }

/-! ### Steps: spec/95_test_vectors.md -/

/-- V-CTL-16. -/
theorem test_nop : truncated.statusAfter 0x0FFFFFFF 0 = 0x00000920 := by decide +kernel

/-- V-CTL-5. -/
theorem test_clrfreq :
    let u := { holding treeAAA true with freq := freqWith [(65, 3)] }.after 0x10000000 0
    u.freq = Table.fill 256 0 ∧ u.status.word = 0x00000006 := by decide +kernel

/-- V-CTL-3. -/
theorem test_ldfreq : (State.reset.after 0x20000041 3).freq = freqWith [(65, 3)] := by decide +kernel

/-- V-CTL-6. -/
theorem test_ldfreq_eof : State.reset.statusAfter 0x20000100 1 = 0x00802240 := by decide +kernel

/-- V-CTL-1. -/
theorem test_rdfreq_eof : (State.reset.after 0x30000100 0).result.count = 1 := by decide +kernel

/-- V-CTL-9. -/
theorem test_rdfreq_range : State.reset.statusAfter 0x30000101 0 = 0x0080A340 := by decide +kernel

/-- V-BLD-5. -/
theorem test_build :
    ((counted [(97, 5), (98, 2), (114, 2), (99, 1), (100, 1)]).after 0x40000000 0).tree =
      some treeAbra := by decide +kernel

/-- V-BLD-8. -/
theorem test_build_overflow :
    { counted [(0, 8), (1, 7)] with wCount := 4 }.statusAfter 0x40000000 0 = 0x00000460 := by
  decide +kernel

/-- V-GEN-5. -/
theorem test_gencodes :
    let code := ((holding treeAbra false).after 0x50000000 0).code
    [97, 256, 98, 114, 99, 100, 122].map (fun v => code.bind (codeAt · v)) =
      [some (bin 1 0), some (bin 3 0b100), some (bin 3 0b101), some (bin 3 0b110), some (bin 4 0b1110),
        some (bin 4 0b1111), none] := by decide +kernel

/-- V-GEN-7. -/
theorem test_gencodes_no_tree : State.reset.statusAfter 0x50000000 0 = 0x00001550 := by decide +kernel

/-- V-HDR-2: the calls, in order, and the bits. -/
theorem test_wrhdr :
    let u := (holding treeAAA false).after 0x60000000 0
    u.out = headerAAA ∧
      u.calls = [.outWrite 1 0, .outWrite 1 1, .outWrite 9 256, .outWrite 1 1, .outWrite 9 65] := by
  decide +kernel

/-- V-ERR-2. -/
theorem test_wrhdr_fails :
    ((holding treeAAA false).answered [.ok, .fail 0 []]).statusAfter 0x60000000 0 = 0x00002612 := by
  decide +kernel

/-- V-ENC-4. -/
theorem test_encode :
    (((holding treeAAB true).fed (bin 24 0x414142)).after 0x70000000 0).out = bin 6 0b001011 := by
  decide +kernel

/-- V-ENC-8. -/
theorem test_encode_missing :
    let u := ((holding treeAAA true).fed (bin 16 0x4142)).after 0x70000000 0
    u.out = bin 1 1 ∧ u.status.word = 0x00210776 := by decide +kernel

/-- V-ENC-12. -/
theorem test_flush :
    ({ State.reset with out := bin 25 0x0C0241E }.after 0x80000000 0).out =
      bin 25 0x0C0241E ++ bin 7 0 := by decide +kernel

/-- V-ERR-4. -/
theorem test_flush_fails : (State.reset.answered [.fail 0 []]).statusAfter 0x80000000 0 = 0x00003810 := by
  decide +kernel

/-- V-HDR-8. -/
theorem test_rdhdr :
    let u := (State.reset.fed (headerAAA ++ bin 4 0b1110)).after 0x90000000 0
    u.tree = some (.node (.leaf 256 0) (.leaf 65 0) 0) ∧ u.inPos = 21 := by decide +kernel

/-- V-HDR-13. -/
theorem test_rdhdr_bad_field :
    let u := (State.reset.fed (bin 21 0b011001011001100000000)).after 0x90000000 0
    u.status.word = 0x00961920 ∧ u.inPos = 11 := by decide +kernel

/-- V-DEC-1. -/
theorem test_decode :
    let u := ((holding treeAAA.strip false).fed (bin 11 0b11100000000)).after 0xA0000000 0
    u.out = bin 24 0x414141 ∧ u.inPos = 4 := by decide +kernel

/-- V-DEC-8. -/
theorem test_decode_mid_code :
    ((holding treeAAB false).fed (bin 1 1)).statusAfter 0xA0000000 0 = 0x00000A32 := by decide +kernel

/-- RDCODE 99 of V-GEN-5. -/
theorem test_rdcode :
    ((holding treeAbra true).after 0xB0000063 0).result =
      { count := 0, present := true, len := 4, bits := 0xE } := by decide +kernel

/-- V-CTL-20. -/
theorem test_rdcode_no_codes : (holding treeAAA false).statusAfter 0xB0000041 0 = 0x00002B52 := by
  decide +kernel

/-- V-CTL-12. -/
theorem test_reservedC : State.reset.statusAfter 0xC0000000 0 = 0x00000C40 := by decide +kernel

/-- V-CTL-15. -/
theorem test_reservedD : State.reset.statusAfter 0xD0000001 0 = 0x00000D40 := by decide +kernel

/-- V-CTL-17. -/
theorem test_clrerr :
    { truncated with status := { truncated.status with rej := true } }.statusAfter 0xEFFFFFFF 0 =
      0x00000000 := by decide +kernel

/-- V-CTL-18. -/
theorem test_srst :
    { holding treeAAA true with
        freq := freqWith [(65, 3)]
        result := { Result.reset with count := 3 } }.after 0xF0000000 0 = State.reset := by
  decide +kernel

/-- PRG-5 line 2: a rejected command. -/
theorem test_rejected : truncated.statusAfter 0xA0000000 0 = 0x00000928 := by decide +kernel

/-- R134: the reset input asserted in WRHDR before its first write, and after its second (V-HDR-2: the header
of the AAA tree begins 0, 1). -/
theorem test_reset_during :
    let moment := fun n =>
      (nextState? (step { holding treeAAA true with
        port := [.offer 0x60000000 0], resetPin := [.during n] })).map fun u => (u.tree, u.out, u.calls)
    moment 0 = some (none, [], []) ∧
      moment 2 = some (none, [false, true], [.outWrite 1 0, .outWrite 1 1]) := by decide +kernel

/-- The host's question: a table word is the first instruction after reset (V-CTL-3). -/
theorem test_fetch :
    nextState? (step (State.reset.withFetchWord 64 0x0000000320000041)) =
      some { State.reset with freq := freqWith [(65, 3)] } := by decide +kernel

/-- R61: `LOADFREQS {65: 3, 10: 2, 66: 0}` is CLRFREQ, LDFREQ 10, LDFREQ 65. -/
theorem test_loadfreqs :
    loadFreqs [(65, 3), (10, 2), (66, 0)] = [.clrfreq 0, .ldfreq 0 10 2, .ldfreq 0 65 3] := by decide

/-- R60: `LDFREQ 'A', 3` and `RDFREQ EOF`. -/
theorem test_assembler :
    assembleLine 32 ['L', 'D', 'F', 'R', 'E', 'Q', ' ', '\'', 'A', '\'', ',', ' ', '3'] =
        some [(0x20000041, 3)] ∧
      assembleLine 32 ['R', 'D', 'F', 'R', 'E', 'Q', ' ', 'E', 'O', 'F'] = some [(0x30000100, 0)] := by
  decide +kernel

/-- R145: the run of RDHDR (V-HDR-8) ends when it has been accepted and BUSY = 0, with a rewind and a new
sink still to come; a move between two commands counts for nothing. -/
theorem test_run :
    let s := { State.reset.fed (headerAAA ++ bin 4 0b1110) with
      port := [.offer 0x90000000 0, .rewindIn, .attachOut [true], .offer 0x30000100 0, .rewindIn] }
    (runOutcome 5 s).map (fun o => (o.result.count, o.appended, o.consumed, o.calls.length)) =
        some (1, [], headerAAA, 5) ∧
      runOutcome 3 s = none ∧ (runOutcome 5 s).map (fun o => (o.status.err, o.status.rej)) = some (0, false) ∧
      { s with port := [.rewindIn] }.Successful := by decide +kernel

/-! ### Witnesses: a state and operands that meet the hypotheses of each statement -/

/-- An outcome that is a next state with a property. -/
theorem exists_next {o : Host.Outcome State Fault Refusal} {p : State → Bool}
    (h : (nextState? o).any p = true) : ∃ u, o = .next u ∧ p u = true := by
  cases o with
  | next u => exact ⟨u, rfl, h⟩
  | fault f => simp [nextState?] at h
  | refused r => simp [nextState?] at h

theorem codeFor_get (t : HuffTree) (x : Sym) : (codeFor t).get x = t.codeOf x := by
  simp [Table.get, codeFor]

/-- FREQ with one count. -/
theorem counted_get (k : Fin 256) (c : Nat) (b : Fin 256) :
    (counted [(k.val, c)]).freq.get b = if k = b then c else 0 := by
  have h : (counted [(k.val, c)]).freq = (Table.fill 256 0).set k c := dif_pos k.isLt
  rw [h, Table.get_set, Table.get_fill]

/-- An idle block meets the invariant where its fields do. -/
theorem inv_of_holding {t : HuffTree} (hp : t.Proper) (hw : t.BuiltWeights) : (holding t true).Inv := by
  refine
    { width := (by decide : 2 ≤ 32), freqFits := ?_, countFits := Nat.two_pow_pos _, lenFits := Nat.zero_le _
      bitsFit := Nat.two_pow_pos _, absentReads := fun _ => rfl, errKnown := Nat.zero_le _
      errClear := fun _ => ⟨rfl, rfl, rfl⟩, rejAfterError := fun h => (nomatch h), treeHeld := rfl
      codesHeld := rfl, treeProper := ?_, treeWeights := ?_, codesOfTree := ?_
      idle := fun _ => ⟨rfl, rfl, rfl⟩, running := fun h => (nomatch h) }
  · intro c hc
    rw [List.eq_of_mem_replicate hc]
    exact Nat.two_pow_pos _
  · intro u hu; cases hu; exact hp
  · intro u hu; cases hu; exact .inl hw
  · intro table hc
    cases hc
    exact ⟨t, rfl, codeFor_get t⟩

/-- A block that waits in DECODE for its first bit. -/
def waiting (a : Answer) : State :=
  { holding treeAAA true with
    status := { (holding treeAAA true).status with busy := true }
    latch := some { cmd := 0xA0000000, data := 0 }
    work := some (.decode treeAAA)
    outstanding := some (.inRead 1)
    answers := [a] }

theorem waiting_inv (a : Answer) : (waiting a).Inv := by
  have h := inv_of_holding (t := treeAAA) (by decide) (by decide)
  exact
    { width := h.width, freqFits := h.freqFits, countFits := h.countFits, lenFits := h.lenFits
      bitsFit := h.bitsFit, absentReads := h.absentReads, errKnown := h.errKnown
      errClear := h.errClear, rejAfterError := h.rejAfterError, treeHeld := rfl
      codesHeld := rfl, treeProper := h.treeProper, treeWeights := h.treeWeights
      codesOfTree := h.codesOfTree, idle := fun h => (nomatch h)
      running := fun _ => ⟨rfl, _, _, _, rfl, rfl, rfl, rfl, by decide, treeAAA, [], rfl, rfl⟩ }

theorem witness_NopChangesNothing : truncated.Idle ∧ State.reset.Idle := by decide +kernel

theorem witness_ClrfreqZeroesEveryCount : (counted [(65, 3)]).Ready := by decide +kernel

theorem witness_LdfreqWritesOneCount :
    (0 : BitVec 9).toNat < 256 ∧ (255 : BitVec 9).toNat < 256 ∧ State.reset.Ready := by decide +kernel

theorem witness_RdfreqReadsOneCount : (255 : BitVec 9).toNat < 256 ∧ State.reset.Ready := by
  decide +kernel

/-- EOF is PRESENT, byte 0 is ABSENT; then a block without codes. -/
theorem witness_RdcodeReadsOneEntry :
    let s := holding treeAAA true
    (s.Ready ∧ s.status.codesValid = true ∧ s.code = some (codeFor treeAAA) ∧
      (codeFor treeAAA).get ⟨256, by decide⟩ = some [false] ∧
      (codeFor treeAAA).get ⟨0, by decide⟩ = none) ∧
    State.reset.Ready ∧ State.reset.status.codesValid = false ∧ (256 : BitVec 9).toNat < 257 := by
  decide +kernel

theorem witness_ClrerrClearsTheRecord : truncated.Idle ∧ truncated.status.err = 2 := by decide +kernel

theorem witness_ReservedOpcodesAreIllegal : State.reset.Ready := by decide +kernel

theorem witness_ReservedBitsAreIllegal :
    State.reset.Ready ∧ (1 : BitVec 28) ≠ 0 ∧ (0x8000000 : BitVec 28) ≠ 0 ∧ (1 : BitVec 19) ≠ 0 := by
  decide +kernel

theorem witness_SymOutOfRangeIsIllegal :
    State.reset.Ready ∧ 255 < (256 : BitVec 9).toNat ∧ 256 < (257 : BitVec 9).toNat := by decide +kernel

theorem witness_StickyErrorRejectsCommands :
    truncated.Idle ∧ truncated.status.err ≠ 0 ∧
      ∀ i ∈ [Instr.clrfreq 0, .ldfreq 0 65 3, .rdfreq 0 65, .build 0, .gencodes 0, .wrhdr 0, .encode 0,
        .flush 0, .rdhdr 0, .decode 0, .rdcode 0 65, .reservedC 0, .reservedD 0],
        i.opcode ∉ ([0x0, 0xE, 0xF] : List (BitVec 4)) := by decide +kernel

theorem witness_ErrorStateCanBeLeft :
    ∀ i ∈ [Instr.nop 1, .clrerr 1, .srst 1], i.opcode ∈ ([0x0, 0xE, 0xF] : List (BitVec 4)) := by decide

theorem witness_SequenceErrorsChangeNothingElse :
    (State.reset.Ready ∧ State.reset.status.treeValid = false) ∧
    (holding treeAAA false).Ready ∧ (holding treeAAA false).status.codesValid = false := by decide +kernel

/-- A tie on the weight: the lower seq is taken. -/
theorem witness_RemoveMinTakesTheLeastKey :
    removeMin [⟨1, 256, .leaf 256 1⟩, ⟨1, 66, .leaf 66 1⟩, ⟨2, 65, .leaf 65 2⟩] =
      some (⟨1, 66, .leaf 66 1⟩, [⟨1, 256, .leaf 256 1⟩, ⟨2, 65, .leaf 65 2⟩]) := by decide +kernel

/-- V-BLD-7: a total at the limit. -/
theorem witness_BuildMakesTheTreeOfFreq :
    let s := { counted [(0, 7), (1, 7)] with wCount := 4 }
    s.Ready ∧ s.freq = freqWith [(0, 7), (1, 7)] ∧
      1 + (freqWith [(0, 7), (1, 7)]).entries.sum ≤ 2 ^ s.wCount - 1 := by decide +kernel

/-- V-BLD-8: a total one above the limit. -/
theorem witness_BuildOverflowLeavesNoTree :
    let s := { counted [(0, 8), (1, 7)] with wCount := 4 }
    s.Ready ∧ 2 ^ s.wCount - 1 < 1 + s.freq.entries.sum := by decide +kernel

/-- FREQ all zero; one byte with count 1; one byte with count 2, at W_COUNT 2. -/
theorem witness_BuildEdgeCases :
    ∀ c ∈ [0, 1, 2],
      let s := { counted [(255, c)] with wCount := 2 }
      s.Ready ∧ 1 + s.freq.entries.sum ≤ 2 ^ s.wCount - 1 ∧ s.freq.get 255 = c ∧
        ∀ b, b ≠ 255 → s.freq.get b = 0 := by
  intro c hc
  have h : let s := { counted [(255, c)] with wCount := 2 }
      s.Ready ∧ 1 + s.freq.entries.sum ≤ 2 ^ s.wCount - 1 := by
    simp only [List.mem_cons, List.not_mem_nil, or_false] at hc
    rcases hc with rfl | rfl | rfl <;> decide +kernel
  exact ⟨h.1, h.2, (counted_get 255 c 255).trans (if_pos rfl),
    fun b hb => (counted_get 255 c b).trans (if_neg hb.symm)⟩

theorem witness_GencodesRecordsThePaths :
    let s := holding treeAbra false
    s.Ready ∧ s.status.treeValid = true ∧ s.tree = some treeAbra ∧ treeAbra.Proper := by decide +kernel

theorem witness_CodesArePrefixFree :
    (holding treeAAB true).Inv ∧ (holding treeAAB true).code = some (codeFor treeAAB) ∧
      (codeFor treeAAB).get 65 = some [false] ∧ (codeFor treeAAB).get 256 = some [true, true] :=
  ⟨inv_of_holding (by decide) (by decide), by decide +kernel⟩

theorem witness_CodesAreComplete : treeAbra.leaves.Nodup ∧ 2 ≤ treeAbra.leafCount := by decide +kernel

theorem witness_OneLeafTreeNeedsNoBits :
    let s := holding (.leaf eofSym 1) true
    s.Ready ∧ s.status.treeValid = true ∧ s.tree = some (.leaf eofSym 1) ∧ s.status.codesValid = true ∧
      s.code = some (codeFor (.leaf eofSym 1)) ∧ (codeFor (.leaf eofSym 1)).get eofSym = some [] ∧
      s.Prompt ∧ s.rest = [] := by decide +kernel

theorem witness_HeaderLength :
    (HuffTree.leaf 256 1).leafCount = 1 ∧ (HuffTree.leaf 256 1).Proper ∧ treeAbra.Proper := by decide

theorem witness_HeldTreesFitTheStores :
    (holding treeAbra true).Inv ∧ (holding treeAbra true).tree = some treeAbra ∧
      treeAbra.codeOf 99 = some (bin 4 0b1110) :=
  ⟨inv_of_holding (by decide) (by decide), by decide +kernel⟩

theorem witness_WrhdrAppendsTheHeader :
    let s := holding treeAAA false
    s.Ready ∧ s.Prompt ∧ s.status.treeValid = true ∧ s.tree = some treeAAA := by decide +kernel

/-- A WRHDR that ends well, and one whose third call fails after 4 bits. -/
theorem witness_WrhdrWritesAPrefixOnFailure :
    (holding treeAAA false).Ready ∧ (holding treeAAA false).status.treeValid = true ∧
    (holding treeAAA false).tree = some treeAAA ∧
    ∃ u, exec (.wrhdr 0) (holding treeAAA false) = .next u ∧
    ∃ v, exec (.wrhdr 0) ((holding treeAAA false).answered [.ok, .ok, .fail 4 []]) = .next v ∧
      v.out = bin 6 0b011000 := by
  refine ⟨by decide +kernel, rfl, rfl, ?_⟩
  obtain ⟨u, hu, -⟩ := exists_next (o := exec (.wrhdr 0) (holding treeAAA false)) (p := fun _ => true)
    (by decide +kernel)
  obtain ⟨v, hv, hp⟩ := exists_next
    (o := exec (.wrhdr 0) ((holding treeAAA false).answered [.ok, .ok, .fail 4 []]))
    (p := fun v => decide (v.out = bin 6 0b011000)) (by decide +kernel)
  exact ⟨u, hu, v, hv, by simpa using hp⟩

/-- A block that reads the AAA header and one bit more; the reads of that header (R96). -/
theorem witness_RdhdrReadsBackAHeader :
    (let s := State.reset.fed (headerAAA ++ [true])
     s.Ready ∧ s.Prompt ∧ treeAAA.Proper ∧ s.rest = treeAAA.hdr ++ [true]) ∧
    tokenReads treeAAA.tokens = [.inRead 1, .inRead 1, .inRead 9, .inRead 1, .inRead 9] := by decide +kernel

theorem witness_RdhdrSuccessMeansAHeader :
    (State.reset.fed headerAAA).Ready ∧
    ∃ u, exec (.rdhdr 0) (State.reset.fed headerAAA) = .next u ∧
      (u.status.busy = false ∧ u.status.err = 0) := by
  obtain ⟨u, hu, hp⟩ := exists_next (o := exec (.rdhdr 0) (State.reset.fed headerAAA))
    (p := fun u => decide (u.status.busy = false ∧ u.status.err = 0)) (by decide +kernel)
  exact ⟨by decide +kernel, u, hu, of_decide_eq_true hp⟩

/-- A failing read, over a tree and codes held before. -/
theorem witness_RdhdrErrorKeepsNoTree :
    let s := ((holding treeAAA true).fed headerAAA).answered [.ok, .fail 0 []]
    s.Ready ∧ ∃ u, exec (.rdhdr 0) s = .next u ∧ u.status.err ≠ 0 := by
  refine ⟨by decide +kernel, ?_⟩
  obtain ⟨u, hu, hp⟩ := exists_next
    (o := exec (.rdhdr 0) (((holding treeAAA true).fed headerAAA).answered [.ok, .fail 0 []]))
    (p := fun u => decide (u.status.err ≠ 0)) (by decide +kernel)
  exact ⟨u, hu, of_decide_eq_true hp⟩

/-- IN holds nothing; IN holds all but the last bit. -/
theorem witness_RdhdrTruncatedHeader :
    ∀ n ∈ [0, 20],
      let s := State.reset.fed (headerAAA.take n)
      s.Ready ∧ s.Prompt ∧ treeAAA.leaves.Nodup ∧ s.rest <+: treeAAA.hdr ∧ s.rest ≠ treeAAA.hdr := by
  decide +kernel

/-- A block about to read `bits` after the tokens `pre` of a header. -/
abbrev ReadsAfter (t : HuffTree) (pre post : List HdrToken) (bits : Bits) : Prop :=
  (State.reset.fed (tokenBits pre ++ bits)).Ready ∧ (State.reset.fed (tokenBits pre ++ bits)).Prompt ∧
    t.leaves.Nodup ∧ t.tokens = pre ++ post ∧
    (State.reset.fed (tokenBits pre ++ bits)).rest = tokenBits pre ++ bits

theorem reads_after {t : HuffTree} {pre post : List HdrToken} (bits : Bits) (hd : t.leaves.Nodup)
    (ht : t.tokens = pre ++ post) : ReadsAfter t pre post bits :=
  have h : State.reset.Ready := by decide +kernel
  ⟨h, fun _ ha => (nomatch ha), hd, ht, rfl⟩

/-- Fields 257 and 511 at the root and at a later leaf (V-HDR-13); Symbols 0 and 256 a second time. -/
theorem witness_RdhdrBadLeaf :
    (∀ v ∈ [257, 511], 256 < v ∧ v < 512 ∧
      ReadsAfter (.leaf 256 0) [] [.leaf 256] (true :: (bin 9 v ++ [])) ∧
      ReadsAfter treeAAA [.internal, .leaf 256] [.leaf 65] (true :: (bin 9 v ++ [true]))) ∧
    ∀ y ∈ [(0 : Sym), 256], .leaf y ∈ [HdrToken.internal, .leaf y] ∧
      ReadsAfter (.node (.leaf y 0) (.leaf 65 0) 0) [.internal, .leaf y] [.leaf 65]
        (true :: (bin 9 y.val ++ [])) := by
  refine ⟨fun v hv => ⟨?_, ?_, reads_after _ (by decide) rfl, reads_after _ (by decide) rfl⟩,
    fun y hy => ⟨by simp, reads_after _ ?_ rfl⟩⟩
  · revert v; decide +kernel
  · revert v; decide +kernel
  · revert y; decide +kernel

/-- V-HDR-16: one leaf, 65. -/
theorem witness_RdhdrWithoutEof :
    let t := HuffTree.leaf 65 0
    let s := State.reset.fed (t.hdr ++ [true])
    s.Ready ∧ s.Prompt ∧ t.leaves.Nodup ∧ eofSym ∉ t.leaves ∧ s.rest = t.hdr ++ [true] := by
  decide +kernel

/-- A tree with `n` internal nodes, each the left child of the one before (`left`) or the right one. -/
def spine (left : Bool) : Nat → HuffTree
  | 0 => .leaf eofSym 0
  | n + 1 =>
    if left then .node (spine left n) (.leaf (Fin.ofNat 257 n) 0) 0
    else .node (.leaf (Fin.ofNat 257 n) 0) (spine left n) 0

theorem spine_leaves (left : Bool) (n : Nat) (h : n ≤ 256) :
    (spine left n).leaves.Nodup ∧ ∀ x ∈ (spine left n).leaves, x = eofSym ∨ x.val < n := by
  induction n with
  | zero => exact ⟨List.nodup_singleton _, fun x hx => .inl (List.mem_singleton.mp hx)⟩
  | succ n ih =>
    obtain ⟨h1, h2⟩ := ih (by omega)
    have hv : (Fin.ofNat 257 n).val = n := by simp [Fin.ofNat]; omega
    have hn : Fin.ofNat 257 n ∉ (spine left n).leaves := by
      intro hm
      rcases h2 _ hm with e | e
      · rw [e] at hv; simp [eofSym] at hv; omega
      · omega
    have hx : ∀ x, x ∈ (spine left n).leaves ∨ x = Fin.ofNat 257 n → x = eofSym ∨ x.val < n + 1 := by
      rintro x (hm | rfl)
      · exact (h2 x hm).imp_right fun h => by omega
      · exact .inr (by omega)
    cases left <;> simp only [spine, if_true, Bool.false_eq_true, if_false, HuffTree.leaves]
    · exact ⟨List.nodup_cons.mpr ⟨hn, h1⟩, fun x hm => hx x (by simpa [or_comm] using hm)⟩
    · refine ⟨List.nodup_append.mpr ⟨h1, List.nodup_singleton _, ?_⟩, fun x hm => hx x (by simpa using hm)⟩
      rintro a ha b hb rfl
      exact hn (List.mem_singleton.mp hb ▸ ha)

/-- 256 internal markers with no leaf between them, and with a leaf after each but the last; then one
more. -/
theorem witness_RdhdrTooManyInternalMarkers :
    ∀ x ∈ [(true, 256), (false, 511)],
      ReadsAfter (spine x.1 256) ((spine x.1 256).tokens.take x.2) ((spine x.1 256).tokens.drop x.2)
          (false :: [true]) ∧
        (spine x.1 256).tokens.drop x.2 ≠ [] ∧
        ((spine x.1 256).tokens.take x.2).count .internal = 256 := by
  intro x hx
  refine ⟨reads_after _ (spine_leaves x.1 256 (Nat.le_refl _)).1 (List.take_append_drop _ _).symm, ?_⟩
  revert x; decide +kernel

/-- V-ENC-4 with seven bits more on IN, and the empty sequence; the calls of V-ENC-1, and of V-ENC-2 with its
code of no bits. -/
theorem witness_EncodeAppendsTheBody :
    (encodeCalls treeAAA.codeOf [65, 65, 65] ++ .inRead 8 :: codeWrite ((treeAAA.codeOf eofSym).getD []) =
        [.inRead 8, .outWrite 1 1, .inRead 8, .outWrite 1 1, .inRead 8, .outWrite 1 1, .inRead 8,
          .outWrite 1 0] ∧
      encodeCalls (HuffTree.leaf eofSym 1).codeOf [] ++ .inRead 8 ::
        codeWrite (((HuffTree.leaf eofSym 1).codeOf eofSym).getD []) = [.inRead 8]) ∧
    (∀ x, (codeFor treeAAB).get x = treeAAB.codeOf x) ∧
    ∀ bytes ∈ [[], [(65 : Fin 256), 65, 66]],
      let s := (holding treeAAB true).fed (byteBits bytes ++ List.replicate 7 true)
      s.Ready ∧ s.Prompt ∧ s.status.codesValid = true ∧ s.code = some (codeFor treeAAB) ∧
        (treeAAB.body bytes).isSome = true ∧
        s.rest = byteBits bytes ++ List.replicate 7 true ∧ (List.replicate 7 true).length < 8 :=
  ⟨by decide +kernel, codeFor_get treeAAB, by decide +kernel⟩

/-- V-ENC-8. -/
theorem witness_EncodeStopsAtAMissingCode :
    let s := (holding treeAAA true).fed (byteBits [65] ++ bin 8 66 ++ [true])
    let table := codeFor treeAAA
    s.Ready ∧ s.Prompt ∧ s.status.codesValid = true ∧ s.code = some table ∧
      (∀ b ∈ [(65 : Fin 256)], (table.get (byteSym b)).isSome = true) ∧
      table.get (byteSym 66) = none ∧
      s.rest = byteBits [65] ++ bin 8 (66 : Fin 256).val ++ [true] := by decide +kernel

theorem witness_FlushAsksForThePadding :
    (State.reset.Ready ∧ State.reset.nextAnswer.isOk = true) ∧
    (State.reset.answered [.pad [true]]).Ready ∧
    (State.reset.answered [.pad [true]]).nextAnswer.isOk = true ∧
    (State.reset.answered [.fail 0 [true]]).Ready ∧
    (State.reset.answered [.fail 0 [true]]).nextAnswer = .fail 0 [true] := by decide +kernel

/-- V-DEC-1, on the tree as built and as read back; and the empty body. The calls of the AAB tree's bytes 65
and 66, with the codes 0 and 10 (R108, R114). -/
theorem witness_DecodeInvertsTheBody :
    decodeCalls treeAAB.codeOf [65, 66] =
      [.inRead 1, .outWrite 8 65, .inRead 1, .inRead 1, .outWrite 8 66] ∧
    treeAAA.Proper ∧
    ∀ bytes ∈ [[], [65, 65, 65]],
      (treeAAA.body bytes).isSome = true ∧
      ∀ t ∈ [treeAAA, treeAAA.strip],
        let s := (holding t false).fed ((treeAAA.body bytes).getD [] ++ List.replicate 7 false)
        s.Ready ∧ s.Prompt ∧ s.status.treeValid = true ∧
          (s.tree = some treeAAA ∨ s.tree = some treeAAA.strip) ∧
          s.rest = (treeAAA.body bytes).getD [] ++ List.replicate 7 false := by decide +kernel

/-- V-DEC-11 (between two codes) and V-DEC-8 (inside a code). -/
theorem witness_DecodeReportsATruncatedBody :
    treeAAB.Proper ∧ treeAAB.codeOf 66 = some ([] ++ [true, false]) ∧
    treeAAB.codeOf 66 = some ([true] ++ [false]) ∧
    (∀ b ∈ [(65 : Fin 256)], byteSym b ∈ treeAAB.leaves) ∧
    ∀ p ∈ [[], [true]],
      let s := (holding treeAAB false).fed
        (([65].map fun b => (treeAAB.codeOf (byteSym b)).getD []).flatten ++ p)
      s.Ready ∧ s.Prompt ∧ s.status.treeValid = true ∧ s.tree = some treeAAB ∧
        s.rest = ([65].map fun b => (treeAAB.codeOf (byteSym b)).getD []).flatten ++ p := by
  decide +kernel

theorem witness_DecodeAlwaysEnds :
    let s := (holding treeAAB false).fed (bin 6 0b001011)
    s.Ready ∧ s.status.treeValid = true ∧ s.tree = some treeAAB ∧ treeAAB.Proper := by decide +kernel

theorem witness_HeaderAndBodyDecode :
    (treeAAA.body [65]).isSome = true ∧ treeAAA.Proper ∧
    let s := State.reset.fed (treeAAA.hdr ++ (treeAAA.body [65]).getD [] ++ [false])
    s.Ready ∧ s.Prompt ∧ s.rest = treeAAA.hdr ++ (treeAAA.body [65]).getD [] ++ [false] := by
  decide +kernel

/-- "A" repeated `n` times (PRG-1, and PRG-4 with `n` = 0); then a block that holds PRG-1's stream. -/
theorem witness_CompressedBytesDecompress :
    (∀ n ∈ [0, 3],
      let bytes := List.replicate n (65 : Fin 256)
      let s := (counted [(65, n)]).fed (byteBits bytes)
      s.Ready ∧ s.Prompt ∧ (∀ b, s.freq.get b = bytes.count b) ∧
        1 + bytes.length ≤ 2 ^ s.wCount - 1 ∧ s.rest = byteBits bytes) ∧
    let v := State.reset.fed (headerAAA ++ bin 11 0b11100000000)
    v.Ready ∧ v.Prompt ∧ v.rest = headerAAA ++ bin 11 0b11100000000 := by
  refine ⟨fun n hn => ?_, by decide +kernel⟩
  have h : let s := (counted [(65, n)]).fed (byteBits (List.replicate n (65 : Fin 256)))
      s.Ready ∧ s.Prompt ∧ 1 + (List.replicate n (65 : Fin 256)).length ≤ 2 ^ s.wCount - 1 ∧
        s.rest = byteBits (List.replicate n 65) := by
    simp only [List.mem_cons, List.not_mem_nil, or_false] at hn
    rcases hn with rfl | rfl <;> decide +kernel
  refine ⟨h.1, h.2.1, fun b => (counted_get 65 n b).trans ?_, h.2.2⟩
  rw [List.count_replicate]
  by_cases hb : b = 65 <;> simp [hb, Ne.symm]

/-- The state with `n` calls answered and the next one failing with `k`. -/
def State.failing (s : State) (n k : Nat) : State := s.answered (List.replicate n .ok ++ [.fail k []])

/-- A collaborator that answers `n` calls and then fails one, `k` anything. -/
abbrev FailsAfter (s : State) (n k : Nat) : Prop :=
  (s.failing n k).Ready ∧ (s.failing n k).answers = List.replicate n .ok ++ .fail k [] :: [] ∧
    (∀ a ∈ List.replicate n Answer.ok, a.isOk = true) ∧ (List.replicate n Answer.ok).length = n

/-- A failing read (at the start and after a byte, before a whole byte, a part of one and the end of IN), a
failing write of a byte's code and of the EOF code, each with none and with all of its bits on OUT. -/
theorem witness_FailingCallIsAnIOFailure_encode :
    let table := codeFor treeAAB
    ∀ bytes ∈ [[], [(65 : Fin 256)]], ∀ k ∈ [0, 2],
      let n := (encodeCalls table.get bytes).length
      (∀ b ∈ bytes, (table.get (byteSym b)).isSome = true) ∧
      table.get (byteSym 66) = some [true, false] ∧ table.get eofSym = some [true, true] ∧
      (∀ more ∈ [[], [true], bin 8 66],
        let s := (holding treeAAB true).fed (byteBits bytes ++ more)
        FailsAfter s n k ∧ s.status.codesValid = true ∧ s.code = some table ∧
          s.rest = byteBits bytes ++ more) ∧
      FailsAfter ((holding treeAAB true).fed (byteBits bytes ++ bin 8 (66 : Fin 256).val ++ [])) (n + 1) k ∧
      FailsAfter ((holding treeAAB true).fed (byteBits bytes ++ List.replicate 7 true)) (n + 1) k := by
  decide +kernel

/-- The first marker, a later one, and the fields after them. -/
theorem witness_FailingCallIsAnIOFailure_rdhdr :
    treeAAA.leaves.Nodup ∧
    ∀ x ∈ [([], [.internal, .leaf 256, .leaf 65]), ([HdrToken.internal, .leaf 256], [.leaf 65])],
      treeAAA.tokens = x.1 ++ x.2 ∧ x.2 ≠ [] ∧
      FailsAfter (State.reset.fed (tokenBits x.1)) (tokenReads x.1).length 7 ∧
      FailsAfter (State.reset.fed (tokenBits x.1 ++ true :: [])) ((tokenReads x.1).length + 1) 0 := by
  decide +kernel

/-- The first and the last write. -/
theorem witness_FailingCallIsAnIOFailure_wrhdr :
    ∀ x ∈ [([], .outWrite 1 0, [.outWrite 1 1, .outWrite 9 256, .outWrite 1 1, .outWrite 9 65]),
        ([.outWrite 1 0, .outWrite 1 1, .outWrite 9 256, .outWrite 1 1], Call.outWrite 9 65, [])],
      treeAAA.hdrCalls = x.1 ++ x.2.1 :: x.2.2 ∧ FailsAfter (holding treeAAA false) x.1.length 4 ∧
        (holding treeAAA false).status.treeValid = true ∧ (holding treeAAA false).tree = some treeAAA := by
  decide +kernel

/-- The first bit, a bit inside a code, and the write of a byte, each at the start and after a byte. -/
theorem witness_FailingCallIsAnIOFailure_decode :
    ∀ bytes ∈ [[], [(65 : Fin 256)]],
      let n := (decodeCalls treeAAB.codeOf bytes).length
      (∀ b ∈ bytes, byteSym b ∈ treeAAB.leaves) ∧ treeAAB.codeOf (byteSym 66) = some [true, false] ∧
      treeAAB.at? [] = some treeAAB ∧ treeAAB.at? [true] = some (.node (.leaf 66 1) (.leaf 256 1) 2) ∧
      ∀ p ∈ [[], [true], [true, false]],
        let s := (holding treeAAB false).fed (codesOf treeAAB.codeOf bytes ++ p ++ [])
        FailsAfter s (n + p.length) 8 ∧ s.status.treeValid = true ∧ s.tree = some treeAAB ∧
          s.rest = codesOf treeAAB.codeOf bytes ++ p ++ [] := by
  decide +kernel

/-- NOP ends in a next state, and its opcode is in none of the lists. -/
theorem witness_TablesChangeOnlyByTheirCommands :
    (∃ u, exec (.nop 0) State.reset = .next u) ∧
      (Instr.nop 0).opcode ∉ ([0x1, 0x2, 0x3, 0x4, 0x5, 0x9, 0xB, 0xF] : List (BitVec 4)) :=
  ⟨⟨_, rfl⟩, by decide⟩

theorem witness_StreamsChangeOnlyByTheirCommands :
    (∃ u, exec (.nop 0) State.reset = .next u) ∧
      (Instr.nop 0).opcode ∉ ([0x6, 0x7, 0x8, 0x9, 0xA] : List (BitVec 4)) ∧ (Instr.nop 0).opcode ≠ 0x8 :=
  ⟨⟨_, rfl⟩, by decide⟩

/-- A MissingCode (V-ENC-9). -/
theorem witness_CommandsRaiseOnlyTheirErrors :
    let s := (holding (.leaf eofSym 1) true).fed (byteBits [65])
    s.status.err = 0 ∧ ∃ u, exec (.encode 0) s = .next u ∧ (u.status.err = 7 ∧ u.status.errOp = 7) := by
  refine ⟨rfl, ?_⟩
  obtain ⟨u, hu, hp⟩ := exists_next
    (o := exec (.encode 0) ((holding (.leaf eofSym 1) true).fed (byteBits [65])))
    (p := fun u => decide (u.status.err = 7 ∧ u.status.errOp = 7)) (by decide +kernel)
  exact ⟨u, hu, of_decide_eq_true hp⟩

/-- A command that ends, and a FLUSH whose answer comes later. -/
theorem witness_StepRunsTheDecodedCommand :
    (let s := State.reset.offerFirst 0x20000041 3
     s.resetAsserted = false ∧ s.status.busy = false ∧ s.port = .offer 0x20000041 3 :: [] ∧ s.Idle ∧
       ∃ u, exec (decode 0x20000041 3) { s with port := [], resetPin := s.resetPin.tail } = .next u ∧
         (!u.status.busy) = true) ∧
    let s := (State.reset.answered [.later]).offerFirst 0x80000000 7
    s.resetAsserted = false ∧ s.status.busy = false ∧ s.port = .offer 0x80000000 7 :: [] ∧ s.Idle ∧
      ∃ u, exec (decode 0x80000000 7) { s with port := [], resetPin := s.resetPin.tail } = .next u ∧
        u.status.busy = true :=
  ⟨⟨rfl, rfl, rfl, by decide +kernel, exists_next (p := fun u => !u.status.busy) (by decide +kernel)⟩,
    rfl, rfl, rfl, by decide +kernel, exists_next (p := fun u => u.status.busy) (by decide +kernel)⟩

theorem witness_IdleBlockHoldsItsState :
    State.reset.resetAsserted = false ∧ State.reset.status.busy = false ∧ State.reset.port = [] ∧
    ∀ move ∈ [PortEvent.rewindIn, .attachIn [true] 1, .attachOut [true]],
      { State.reset with port := [move] }.resetAsserted = false ∧
      { State.reset with port := [move] }.status.busy = false ∧
      { State.reset with port := [move] }.port = move :: [] := by decide +kernel

/-- The AAA tree's block, with these bits on IN and the command `cmd` offered. -/
def offered (bits : Bits) (cmd : CmdWord) : State :=
  { (holding treeAAA true).fed bits with port := [.offer cmd 0] }

theorem offered_inv (bits : Bits) (cmd : CmdWord) : (offered bits cmd).Inv := by
  have h := inv_of_holding (t := treeAAA) (by decide) (by decide)
  exact
    { width := h.width, freqFits := h.freqFits, countFits := h.countFits, lenFits := h.lenFits
      bitsFit := h.bitsFit, absentReads := h.absentReads, errKnown := h.errKnown
      errClear := h.errClear, rejAfterError := h.rejAfterError, treeHeld := rfl
      codesHeld := rfl, treeProper := h.treeProper, treeWeights := h.treeWeights
      codesOfTree := h.codesOfTree, idle := h.idle, running := fun h => (nomatch h) }

/-- Before a step: with a write outstanding, with a read, and with none. While a step runs: in a BUSY block; in
WRHDR before its first write, and after its second; in ENCODE and DECODE before the first byte, and after it; in
RDHDR at its first marker, and at its second. -/
theorem witness_HardwareResetAtAnyMoment :
    ({ waiting .later with resetPin := [.asserted] }.resetLevel = .asserted ∧
      (waiting .later).outstanding = some (.inRead 1) ∧
      (waiting .later).outstanding ≠ some .outFlush ∧
      (∀ n, { waiting .later with outstanding := some (.outWrite 1 0) }.outstanding ≠ some (.inRead n)) ∧
      { holding treeAAA true with resetPin := [.asserted] }.resetLevel = .asserted ∧
      (holding treeAAA true).outstanding = none) ∧
    ((waiting .ok).Inv ∧ (waiting .ok).status.busy = true ∧ (waiting .ok).work ≠ some .flush ∧
      ∀ n ∈ [0, 1, 9], ∃ u, step { waiting .ok with resetPin := [.during n] } = .next u) ∧
    (∀ bits, ∀ cmd ∈ [0x60000000, 0x70000000, 0x90000000, 0xA0000000],
      (offered bits cmd).Inv ∧ (offered bits cmd).status.busy = false ∧
        (offered bits cmd).port = .offer cmd 0 :: [] ∧ cmdOpc cmd ≠ 0x8 ∧
        (offered bits cmd).status.err = 0 ∧ (offered bits cmd).Prompt ∧
        (offered bits cmd).tree = some treeAAA ∧ (offered bits cmd).code = some (codeFor treeAAA)) ∧
    (∃ u, step { offered [] 0x60000000 with resetPin := [.during 1] } = .next u) ∧
    (decode 0x60000000 0 = .wrhdr 0 ∧ treeAAA.hdrCalls = [] ++ treeAAA.hdrCalls ∧
      treeAAA.hdrCalls = treeAAA.hdrCalls.take 2 ++ treeAAA.hdrCalls.drop 2) ∧
    (decode 0x70000000 0 = .encode 0 ∧
      ∀ bytes ∈ [[], [(65 : Fin 256)]],
        (∀ b ∈ bytes, ((codeFor treeAAA).get (byteSym b)).isSome = true) ∧
        (offered (byteBits [65]) 0x70000000).rest =
          byteBits bytes ++ (byteBits [65]).drop (8 * bytes.length)) ∧
    (decode 0x90000000 0 = .rdhdr 0 ∧ treeAAA.leaves.Nodup ∧
      ∀ k ∈ [0, 1], treeAAA.tokens = treeAAA.tokens.take k ++ treeAAA.tokens.drop k ∧
        treeAAA.tokens.drop k ≠ [] ∧
        (offered headerAAA 0x90000000).rest = tokenBits (treeAAA.tokens.take k) ++ headerAAA.drop k) ∧
    (decode 0xA0000000 0 = .decode 0 ∧
      ∀ bytes ∈ [[], [(65 : Fin 256)]], (∀ b ∈ bytes, byteSym b ∈ treeAAA.leaves) ∧
        (offered [true, false] 0xA0000000).rest =
          codesOf treeAAA.codeOf bytes ++ [true, false].drop bytes.length) := by
  refine ⟨⟨rfl, rfl, by decide, by simp, rfl, rfl⟩, ⟨waiting_inv _, rfl, by decide, fun n hn => ?_⟩,
    fun bits cmd hc => ⟨offered_inv _ _, rfl, rfl, ?_, rfl, fun _ h => (nomatch h),
      rfl, rfl⟩, ?_, by decide +kernel, by decide +kernel, by decide +kernel, by decide +kernel⟩
  · have key : ∀ n ∈ [0, 1, 9], ((nextState? (step { waiting .ok with resetPin := [.during n] })).any
        fun _ => true) = true := by decide +kernel
    obtain ⟨u, hu, -⟩ := exists_next (key n hn)
    exact ⟨u, hu⟩
  · simp only [List.mem_cons, List.not_mem_nil, or_false] at hc
    rcases hc with rfl | rfl | rfl | rfl <;> decide
  · obtain ⟨u, hu, -⟩ := exists_next (o := step { offered [] 0x60000000 with resetPin := [.during 1] })
      (p := fun _ => true) (by decide +kernel)
    exact ⟨u, hu⟩

theorem witness_OffersWaitWhileBusy :
    let s := { waiting .later with port := [.offer 0 0] }
    s.resetAsserted = false ∧ s.status.busy = true ∧ ∃ u, step s = .next u := by
  refine ⟨rfl, rfl, ?_⟩
  obtain ⟨u, hu, -⟩ := exists_next (o := step { waiting .later with port := [.offer 0 0] })
    (p := fun _ => true) (by decide +kernel)
  exact ⟨u, hu⟩

theorem witness_UnansweredCallHoldsTheBlock :
    (∀ a ∈ [Answer.never, .later], (waiting a).Inv ∧ (waiting a).resetAsserted = false ∧
      (waiting a).status.busy = true ∧ (waiting a).nextAnswer = a) ∧
    ∀ t ∈ [treeAAA, .leaf eofSym 1], ∀ a ∈ [Answer.never, .later],
      let s := (holding t true).answered [a, .ok]
      s.Ready ∧ s.Unanswered (if a = .later then [.ok] else [a, .ok]) ∧ s.status.codesValid = true ∧
        s.code = some (codeFor t) ∧ s.status.treeValid = true ∧ s.tree = some t :=
  ⟨fun a _ => ⟨waiting_inv a, rfl, rfl, rfl⟩, by decide +kernel⟩

/-- A block that waits; one more `later` before its answer, and one behind it that it does not come to. -/
theorem witness_BusyBlockGoesOnWithItsCommand :
    ((waiting .ok).resetAsserted = false ∧ (waiting .ok).status.busy = true ∧
      (waiting .ok).work = some (.decode treeAAA) ∧
      (waiting .ok).latch = some { cmd := 0xA0000000, data := 0 }) ∧
    ∀ before ∈ [[], [Answer.ok]],
      (waiting .ok).Inv ∧ (waiting .ok).resetAsserted = false ∧
        (∀ a ∈ before, a ≠ .later ∧ a ≠ .never) ∧
        (∃ t, step { waiting .ok with answers := before ++ [.ok] } = .next t) ∧
        ∃ u, step { waiting .ok with answers := before ++ .later :: [.ok] } = .next u ∧
          u.status.busy = decide (before = []) ∧ u.resetAsserted = false := by
  refine ⟨by decide +kernel, fun before hb => ⟨waiting_inv _, rfl, ?_⟩⟩
  simp only [List.mem_cons, List.not_mem_nil, or_false] at hb
  have key : ∀ b ∈ [[], [Answer.ok]], ((nextState? (step { waiting .ok with answers := b ++ [.ok] })).any
      fun _ => true) = true ∧
      ((nextState? (step { waiting .ok with answers := b ++ .later :: [.ok] })).any fun u =>
        decide (u.status.busy = decide (b = []) ∧ u.resetAsserted = false)) = true := by decide +kernel
  obtain ⟨h1, h2⟩ := key before (by simpa using hb)
  obtain ⟨t, ht, -⟩ := exists_next h1
  obtain ⟨u, hu, hp⟩ := exists_next h2
  exact ⟨by rcases hb with rfl | rfl <;> decide, ⟨t, ht⟩, u, hu, of_decide_eq_true hp⟩

theorem witness_BusyStepsKeepToTheirCommand :
    (waiting .later).Inv ∧ (waiting .later).resetAsserted = false ∧
      (waiting .later).status.busy = true ∧
      (∀ phase seen nint stack, (waiting .later).work ≠ some (.rdhdr phase seen nint stack)) ∧
      (waiting .later).work ≠ some .flush ∧
      ∃ u, step (waiting .later) = .next u ∧ (u.status.busy = true) := by
  refine ⟨waiting_inv _, rfl, rfl, by simp [waiting], by simp [waiting], ?_⟩
  obtain ⟨u, hu, hp⟩ := exists_next (o := step (waiting .later)) (p := fun u => u.status.busy)
    (by decide +kernel)
  exact ⟨u, hu, hp⟩

theorem witness_StatusWordLayout :
    State.reset.status.busy = false ∧ (waiting .ok).status.busy = true := by decide

theorem witness_EveryStepKeepsTheInvariant :
    (waiting .ok).Inv ∧ ∃ u, step (waiting .ok) = .next u ∧ (u.status.err = 3) := by
  refine ⟨waiting_inv _, ?_⟩
  obtain ⟨u, hu, hp⟩ := exists_next (o := step (waiting .ok)) (p := fun u => decide (u.status.err = 3))
    (by decide +kernel)
  exact ⟨u, hu, of_decide_eq_true hp⟩

theorem witness_NoStepStops : (waiting .never).Inv ∧ (holding treeAAA true).Inv :=
  ⟨waiting_inv _, inv_of_holding (by decide) (by decide)⟩

theorem witness_EncodeInvertsDecode : cmdOpc 0x20000041 = 0x2 ∧ cmdOpc 0x30000041 ≠ 0x2 := by decide

theorem witness_LegalCommandsAreWellFormed :
    (Instr.ldfreq 0 255 15).WellFormed 4 = true ∧ illegalCause (.ldfreq 0 255 15) = none ∧ 15 < 2 ^ 4 := by
  decide

end Sys2Proof.Machine
end

section
/-! PROOFS. The statements about the block's state (spec/10_state.md): the sticky error (rule R34) and the
size of a held tree (rules R19, R92). -/

namespace Sys2Proof.Machine

/-! ### The sticky error -/

/-- The commands that are never rejected, by their OPC (R67 step 1, R127). -/
theorem neverRejected_iff (i : Instr) : neverRejected i = true ↔ i.opcode ∈ [0x0, 0xE, 0xF] := by
  cases i <;> simp [neverRejected, Instr.opcode]

/-- On an idle block a rejection changes REJ and nothing else (R34): BUSY is 0 and the latch empty
already. -/
theorem reject_of_idle {s : State} (h : s.Idle) :
    reject s = { s with status := { s.status with rej := true } } := by
  obtain ⟨hbusy, hlatch, -⟩ := h
  ext1 <;> simp [reject, endCommand, recordRejection, hbusy, hlatch]

/-- Settles O11: the prologue stops such a command at step 1 (R67), with the rejection alone. -/
theorem stickyErrorRejectsCommands : Obligations.StickyErrorRejectsCommands := by
  intro i s hidle herr hop
  have hrej : neverRejected i = false := by
    rwa [← neverRejected_iff, Bool.not_eq_true] at hop
  rw [exec_eq_command, command_rejected herr hrej, reject_of_idle hidle]

/-! ### The size of a held tree -/

/-- Settles O22. The invariant keeps the leaf Symbols distinct, so there are at most 257 leaves; the other
sizes are functions of that number or bounded by them. -/
theorem heldTreesFitTheStores : Obligations.HeldTreesFitTheStores := by
  intro s t hinv ht
  have hproper := hinv.treeProper t ht
  have hleaves : t.leafCount ≤ 257 := HuffTree.Proper.leafCount_le hproper.1
  have hinternal : t.internalCount + 1 = t.leafCount := t.internalCount_succ
  have hnodes : t.nodeCount = t.leafCount + t.internalCount := t.nodeCount_eq
  have hdepth : t.depth ≤ t.internalCount := t.depth_le
  refine ⟨hproper, hleaves, hinternal, ?_, ?_, hdepth, ?_, fun x p => HuffTree.codeOf_length_le⟩
  · simp only [Config.maxInternal]; omega
  · simp only [Config.maxNodes]; omega
  · simp only [Config.maxCodeLen]; omega

end Sys2Proof.Machine
end

section
/-! PROOFS. The statements about the encodings (spec/30_encoding.md): commands whose reserved bits or SYM
break their rule (rules R56, R57), the length of a header (rule R64), and a stream that decompresses to the
bytes it was made from (rule R66). -/

namespace Sys2Proof.Machine

/-! ### Illegal commands -/

theorem checkLow_of_ne {low : BitVec 28} (h : low ≠ 0) : checkLow low = some .reservedBits := if_neg h

theorem checkSym_of_rsv_ne {rsv : BitVec 19} (limit : Nat) (sym : BitVec 9) (h : rsv ≠ 0) :
    checkSym limit rsv sym = some .reservedBits := if_neg h

theorem checkSym_of_lt {limit : Nat} {sym : BitVec 9} (h : limit < sym.toNat) :
    checkSym limit 0 sym = some (.symRange sym) := by
  rw [checkSym, if_pos rfl, if_neg (Nat.not_le.mpr h)]

/-- A command that the prologue lets through and that runs to its end. -/
theorem exec_done {i : Instr} {s t : State} {p : Progress} {k : Nat}
    (ha : s.status.err = 0 ∨ neverRejected i = true) (hc : illegalCause i = none)
    (hb : bodyOf i (accept i s) = p) (hs : Steps k p (.done t)) (hk : k ≤ p.bound) :
    exec i s = .next (endCommand t) := by
  rw [exec_runs ha hc, hb, finish_done hs hk]

theorem exec_nop (low : BitVec 28) (s : State) :
    exec (.nop low) s = .next (endCommand (accept (.nop low) s)) :=
  exec_done (.inr rfl) rfl rfl (.refl _) (Nat.zero_le _)

theorem exec_clrerr (low : BitVec 28) (s : State) :
    exec (.clrerr low) s = .next (endCommand (clearError (accept (.clrerr low) s))) :=
  exec_done (.inr rfl) rfl rfl (.refl _) (Nat.zero_le _)

theorem exec_srst (low : BitVec 28) (s : State) :
    exec (.srst low) s = .next (endCommand (resetBlock (accept (.srst low) s))) :=
  exec_done (.inr rfl) rfl rfl (.refl _) (Nat.zero_le _)

/-- Settles O9. The prologue's check of the reserved bits (R56) stands before the SYM check (R57). NOP,
CLRERR and SRST keep their CMD word in the latch alone, which their end empties. -/
theorem reservedBitsAreIllegal : Obligations.ReservedBitsAreIllegal := by
  refine ⟨fun low s hlow hs i hi => ?_, fun rsv sym data s hrsv hs i hi => ?_, fun low s => ?_⟩
  · have hcause : illegalCause i = some .reservedBits := by
      simp only [List.mem_cons, List.not_mem_nil, or_false] at hi
      rcases hi with rfl | rfl | rfl | rfl | rfl | rfl | rfl | rfl <;> exact checkLow_of_ne hlow
    exact exec_illegal hs hcause
  · have hcause : illegalCause i = some .reservedBits := by
      simp only [List.mem_cons, List.not_mem_nil, or_false] at hi
      rcases hi with rfl | rfl | rfl <;> exact checkSym_of_rsv_ne _ sym hrsv
    exact exec_illegal hs hcause
  · simp only [exec_nop, exec_clrerr, exec_srst]
    exact ⟨rfl, rfl, rfl⟩

/-- Settles O10: the SYM check of the prologue (R57), with RSV = 0. -/
theorem symOutOfRangeIsIllegal : Obligations.SymOutOfRangeIsIllegal := by
  intro sym data s hs
  exact ⟨fun h => exec_illegal (i := .ldfreq 0 sym data) hs (checkSym_of_lt h),
    fun h => ⟨exec_illegal (i := .rdfreq 0 sym) hs (checkSym_of_lt h),
      exec_illegal (i := .rdcode 0 sym) hs (checkSym_of_lt h)⟩⟩

/-! ### The length of a header -/

/-- Ten bits for each leaf and one for each internal node, of which there is one less (R63, R64). -/
theorem HuffTree.hdr_length_succ (t : HuffTree) : t.hdr.length + 1 = 11 * t.leafCount := by
  induction t with
  | leaf => simp [hdr, leafCount]
  | node l r w hl hr => simp only [hdr, leafCount, List.length_cons, List.length_append]; omega

/-- Settles O23: both counts are functions of the leaf count, at most 257 where the Symbols are distinct. -/
theorem headerLength : Obligations.HeaderLength := by
  intro t
  have hlength := t.hdr_length_succ
  have hinternal := t.internalCount_succ
  refine ⟨by omega, by omega, by omega, by omega, fun hproper => ?_⟩
  have hleaves : t.leafCount ≤ 257 := HuffTree.Proper.leafCount_le hproper.1
  omega

end Sys2Proof.Machine
end

section
/-! PROOFS. What each codec command does on a block with no error, said once per command: the stream commands
with a collaborator that answers each call at once and fails none (spec/43_header_codec.md to
spec/45_body_decoder.md), GENCODES and BUILD (spec/41_tree_builder.md, spec/42_code_table.md). -/

namespace Sys2Proof.Machine

/-! ### Stream commands answered at once -/

theorem State.Ready.outstanding_accept {s : State} (h : s.Ready) (i : Instr) :
    (accept i s).outstanding = none := h.1.2.2.2

theorem State.Prompt.accept {s : State} (h : s.Prompt) (i : Instr) : (accept i s).Prompt := h

@[simp] theorem accept_rest (i : Instr) (s : State) : (accept i s).rest = s.rest := rfl

theorem remaining_of_rest {s : State} {x y : Bits} (h : s.rest = x ++ y) :
    s.remaining = x.length + y.length := by
  rw [← rest_length, h, List.length_append]

/-- A command that ends after stream work and nothing else. -/
theorem exec_streamed {i : Instr} {s : State} {p : Progress} {k n : Nat} {b : Bits} {cs : List Call}
    (h : s.Ready) (hc : illegalCause i = none) (hb : bodyOf i (accept i s) = p)
    (hs : Steps k p (.done ((accept i s).streamed n b cs))) (hk : k ≤ p.bound) :
    exec i s = .next (s.streamed n b cs) := by
  rw [exec_done (.inl h.2) hc hb hs hk, endCommand_streamed h.1]

/-- WRHDR appends the header of TREE by the calls of R93. -/
theorem exec_wrhdr_prompt {s : State} {t : HuffTree} (h : s.Ready) (hp : s.Prompt)
    (hv : s.status.treeValid = true) (ht : s.tree = some t) :
    exec (.wrhdr 0) s = .next (s.streamed 0 t.hdr t.hdrCalls) := by
  have hbody : bodyOf (.wrhdr 0) (accept (.wrhdr 0) s) = .more (.wrhdr [.subtree t]) (accept (.wrhdr 0) s) := by
    simp [bodyOf, wrhdrStart, accept, hv, ht]
  obtain ⟨stack, hwrites, hstack⟩ := wrhdr_run (pre := t.hdrCalls) (post := []) (stack := [.subtree t])
    (by simp [HdrItem.calls]) ((hp.accept _).promptFor _) (h.outstanding_accept (.wrhdr 0))
  rw [wrhdr_nothing_left hstack, t.bits_hdrCalls] at hwrites
  refine exec_streamed h rfl hbody (hwrites.trans (.one rfl)) ?_
  have := t.hdrCalls_length_le
  simp only [Progress.bound, workBound, writeCost]; omega

/-- The body of a byte sequence is the codes of its bytes and the EOF code (R65). -/
theorem HuffTree.body_codesOf {t : HuffTree} {bytes : List (Fin 256)} {b : Bits}
    (h : t.body bytes = some b) : (∀ x ∈ bytes, byteSym x ∈ t.leaves) ∧
      ∃ e, t.codeOf eofSym = some e ∧ b = codesOf t.codeOf bytes ++ e := body_eq h

/-- ENCODE's loop over the bytes IN holds, and the EOF code after it (R102). -/
theorem encode_body_steps {t : HuffTree} {table : Table (Option Bits) 257} {s : State}
    {bytes : List (Fin 256)} {e tail : Bits} (hp : s.Prompt) (ho : s.outstanding = none)
    (hc : s.code = some table) (htable : ∀ x, table.get x = t.codeOf x)
    (hm : ∀ x ∈ bytes, byteSym x ∈ t.leaves) (he : t.codeOf eofSym = some e)
    (hr : s.rest = byteBits bytes ++ tail) (htail : tail.length < 8) :
    Steps (2 * bytes.length + 2) (.more (.encode .fetch) s)
      (.done (s.streamed (8 * bytes.length) (codesOf t.codeOf bytes ++ e)
        (encodeCalls t.codeOf bytes ++ .inRead 8 :: codeWrite e))) := by
  have hcodes : table.get = t.codeOf := funext htable
  have hbytes := encode_steps table bytes s tail (hp.promptFor _) ho hc hr fun x hx => by
    rw [hcodes]; exact (t.codeOf_isSome _).mpr (hm x hx)
  rw [hcodes] at hbytes
  have hlast := encode_last (e := e) ((hp.streamed (8 * bytes.length) (codesOf t.codeOf bytes)
    (encodeCalls t.codeOf bytes)).promptFor _) ho hc (by simpa [hr] using htail) (by rw [hcodes, he])
  rw [streamed_streamed] at hlast
  exact hbytes.trans hlast

/-- ENCODE appends the body of the bytes IN holds, under the codes of a tree (R102, R103). -/
theorem exec_encode_prompt {s : State} {t : HuffTree} {table : Table (Option Bits) 257}
    {bytes : List (Fin 256)} {b tail : Bits} (h : s.Ready) (hp : s.Prompt)
    (hv : s.status.codesValid = true) (hc : s.code = some table) (htable : ∀ x, table.get x = t.codeOf x)
    (hb : t.body bytes = some b) (hr : s.rest = byteBits bytes ++ tail) (htail : tail.length < 8) :
    exec (.encode 0) s = .next (s.streamed (8 * bytes.length) b
      (encodeCalls t.codeOf bytes ++ Call.inRead 8 :: codeWrite ((t.codeOf eofSym).getD []))) := by
  obtain ⟨hleaves, e, he, rfl⟩ := HuffTree.body_codesOf hb
  have hbody : bodyOf (.encode 0) (accept (.encode 0) s) = .more (.encode .fetch) (accept (.encode 0) s) := by
    simp [bodyOf, encodeStart, accept, hv]
  have hsteps := encode_body_steps (hp.accept (.encode 0)) (h.outstanding_accept _) hc htable hleaves he hr htail
  rw [he]
  refine exec_streamed h rfl hbody hsteps ?_
  have hrem := remaining_of_rest (s := accept (.encode 0) s) hr
  simp only [Progress.bound, workBound, hrem, byteBits_length]; omega

/-- FLUSH appends the padding of its answer (R105, R45). -/
theorem exec_flush_ok {s : State} (h : s.Ready) (ha : s.nextAnswer.isOk = true) :
    exec (.flush 0) s = .next (s.streamed 0 (flushPad s.nextAnswer s.out.length) [.outFlush]) := by
  have hflush : engineStep .flush (accept (.flush 0) s) =
      .done ((accept (.flush 0) s).streamed 0 (flushPad s.nextAnswer s.out.length) [.outFlush]) := by
    have hok := outFlush_ok (s := accept (.flush 0) s) ha (h.outstanding_accept _)
    simp only [engineStep, flushStep, hok]; rfl
  exact exec_streamed h rfl rfl (.one hflush) (Nat.le_refl _)

/-- `s` as an RDHDR that reads the header of `t` leaves it (R95, R99). -/
def State.afterHeader (s : State) (t : HuffTree) : State :=
  { s.streamed t.hdr.length [] (tokenReads t.tokens) with
    tree := some t.strip
    code := none
    status := s.status.withNewTree }

@[simp] theorem afterHeader_rest (s : State) (t : HuffTree) :
    (s.afterHeader t).rest = s.rest.drop t.hdr.length := streamed_rest s _ [] (tokenReads t.tokens)

/-- RDHDR takes the header at the head of IN and holds its tree, with every weight 0 (R96, R99). -/
theorem exec_rdhdr_prompt {s : State} {t : HuffTree} {x : Bits} (h : s.Ready) (hp : s.Prompt)
    (ht : t.Proper) (hr : s.rest = t.hdr ++ x) :
    exec (.rdhdr 0) s = .next (s.afterHeader t) := by
  obtain ⟨hnodup, heof⟩ := ht
  have hinternal := t.internalCount_succ
  have hleaves : t.leafCount ≤ 257 := HuffTree.Proper.leafCount_le hnodup
  obtain ⟨k, hsteps, hk⟩ := rdhdr_steps t [] 0 [] (accept (.rdhdr 0) s).dropTree x
    ((hp.accept (.rdhdr 0)).promptFor _) (h.outstanding_accept (.rdhdr 0)) hr hnodup (by simp) (by omega)
  have hend : rdhdrReturned t.strip (t.leaves.reverse ++ []) (0 + t.internalCount) []
      ((accept (.rdhdr 0) s).dropTree.streamed t.hdr.length [] (tokenReads t.tokens)) =
      .done (((accept (.rdhdr 0) s).dropTree.streamed t.hdr.length [] (tokenReads t.tokens)).holdTree t.strip) := by
    simp [rdhdrReturned, returnTree, rdhdrEnd, heof]
  rw [hend] at hsteps
  have hrem := remaining_of_rest (s := (accept (.rdhdr 0) s).dropTree) hr
  have hbound : k ≤ (bodyOf (.rdhdr 0) (accept (.rdhdr 0) s)).bound := by
    simp only [bodyOf, rdhdrStart, Progress.bound, workBound, hrem]; omega
  rw [exec_done (.inl h.2) rfl rfl hsteps hbound, endCommand_streamed_holdTree h.1]
  rfl

/-- No code is empty in a tree that has two different Symbols (R91 item 2). -/
theorem HuffTree.codeOf_ne_nil {t : HuffTree} {x y : Sym} (hx : x ∈ t.leaves) (hy : y ∈ t.leaves)
    (hxy : x ≠ y) : ∀ z, t.codeOf z ≠ some [] := by
  intro z hz
  cases t with
  | leaf s w =>
    simp only [leaves, List.mem_singleton] at hx hy
    exact hxy (hx.trans hy.symm)
  | node l r w =>
    obtain ⟨w, hat⟩ := at?_codeOf hz
    simp at hat

/-- DECODE's walk over the codes of some bytes and the EOF code (R108): at most two pieces of work for each
bit, and one more. -/
theorem decode_body_steps {t : HuffTree} {s : State} {bytes : List (Fin 256)} {e x : Bits} (hp : s.Prompt)
    (ho : s.outstanding = none) (ht : s.tree = some t) (hm : ∀ y ∈ bytes, byteSym y ∈ t.leaves)
    (he : t.codeOf eofSym = some e) (hr : s.rest = codesOf t.codeOf bytes ++ e ++ x) :
    ∃ k, Steps k (.more (.decode t) s)
        (.done (s.streamed (codesOf t.codeOf bytes ++ e).length (byteBits bytes)
          (decodeCalls t.codeOf bytes ++ bitReads e.length))) ∧
      k ≤ 2 * (codesOf t.codeOf bytes ++ e).length + 1 := by
  rw [List.append_assoc] at hr
  obtain ⟨k, hbytes, hk⟩ := decode_bytes bytes (e ++ x) s (hp.promptFor _) ho ht hm hr
  have heof := decode_eof (x := x) ((hp.streamed (codesOf t.codeOf bytes).length (byteBits bytes)
    (decodeCalls t.codeOf bytes)).promptFor _) ho ht he (by simp [hr])
  rw [streamed_streamed, List.append_nil, ← List.length_append] at heof
  have hnonempty : ∀ y ∈ bytes, t.codeOf (byteSym y) ≠ some [] := fun y hy =>
    HuffTree.codeOf_ne_nil (hm y hy) ((t.codeOf_isSome _).mp (by rw [he]; rfl)) (byteSym_ne_eofSym y) _
  have hcount := hk hnonempty
  exact ⟨_, hbytes.trans heof, by rw [List.length_append]; omega⟩

/-- DECODE writes the bytes of the body at the head of IN and takes exactly that body (R108, R113). -/
theorem exec_decode_prompt {s : State} {t : HuffTree} {bytes : List (Fin 256)} {b x : Bits} (h : s.Ready)
    (hp : s.Prompt) (hv : s.status.treeValid = true) (ht : s.tree = some t) (hb : t.body bytes = some b)
    (hr : s.rest = b ++ x) :
    exec (.decode 0) s = .next (s.streamed b.length (byteBits bytes)
      (decodeCalls t.codeOf bytes ++ bitReads ((t.codeOf eofSym).getD []).length)) := by
  obtain ⟨hleaves, e, he, rfl⟩ := HuffTree.body_codesOf hb
  have hbody : bodyOf (.decode 0) (accept (.decode 0) s) = .more (.decode t) (accept (.decode 0) s) := by
    simp [bodyOf, decodeStart, accept, hv, ht]
  obtain ⟨k, hsteps, hk⟩ := decode_body_steps (hp.accept (.decode 0)) (h.outstanding_accept _) ht hleaves he hr
  rw [he]
  refine exec_streamed h rfl hbody hsteps ?_
  have hrem := remaining_of_rest (s := accept (.decode 0) s) hr
  simp only [Progress.bound, workBound, hrem]; omega

/-! ### Building -/

/-- GENCODES makes CODE the code function of TREE (R88, R89). -/
theorem exec_gencodes {s : State} {t : HuffTree} (h : s.Ready) (hv : s.status.treeValid = true)
    (ht : s.tree = some t) (hd : t.leaves.Nodup) :
    ∃ table, exec (.gencodes 0) s =
        .next { s with code := some table, status := { s.status with codesValid := true } } ∧
      ∀ x, table.get x = t.codeOf x := by
  have hbody : bodyOf (.gencodes 0) (accept (.gencodes 0) s) = .more (.gencodes [(t, [])])
      (((accept (.gencodes 0) s).setStatus { (accept (.gencodes 0) s).status with codesValid := false }).setCode
        (some (Table.fill 257 none))) := by
    simp [bodyOf, gencodesStart, accept, hv, ht]
  obtain ⟨table, hwalk, htable⟩ := gencodes_walk hd (s := ((accept (.gencodes 0) s).setStatus _).setCode _) rfl
  refine ⟨table, ?_, htable⟩
  rw [exec_done (.inl h.2) rfl hbody hwalk (by simp [Progress.bound, workBound, walkCost])]
  obtain ⟨⟨hbusy, hlatch, -⟩, -⟩ := h
  congr 1
  ext1 <;> simp [endCommand, accept, hbusy, hlatch]

/-- The Symbols of a tree made from FREQ (R79, R84): EOF and the bytes with a count, each once. -/
theorem leaves_of_initialPq {freq : Table Nat 256} {t : HuffTree}
    (h : t.weightedLeaves.Perm (pqLeaves (initialPq freq))) :
    t.Proper ∧ ∀ b, byteSym b ∈ t.leaves ↔ 0 < freq.get b := by
  have hmem : ∀ x, x ∈ t.leaves ↔ ∃ w, (x, w) ∈ pqLeaves (initialPq freq) := fun x => by
    rw [t.leaves_eq, (h.map Prod.fst).mem_iff]
    simp only [List.mem_map, Prod.exists, exists_and_right, exists_eq_right]
  refine ⟨⟨?_, (hmem _).mpr ⟨1, (mem_initialPq _ _).mpr (.inl rfl)⟩⟩, fun b => ?_⟩
  · rw [t.leaves_eq, (h.map Prod.fst).nodup_iff]
    exact initialPq_nodup freq
  · refine ⟨fun hb => ?_, fun hb => (hmem _).mpr ⟨_, (mem_initialPq _ _).mpr (.inr ⟨b, rfl, hb⟩)⟩⟩
    obtain ⟨w, hw⟩ := (hmem _).mp hb
    rcases (mem_initialPq _ _).mp hw with heof | ⟨c, hc, hpos⟩
    · exact absurd (congrArg Prod.fst heof) (byteSym_ne_eofSym b)
    · have hbc : b = c := Fin.castSucc_injective _ (congrArg Prod.fst hc)
      rwa [hbc]

/-- BUILD holds a tree of the Symbols that FREQ counts, if their total is in range (R78, R84). -/
theorem exec_build {s : State} (h : s.Ready) (hw : totalWeight s.freq ≤ 2 ^ s.wCount - 1) :
    ∃ t, exec (.build 0) s =
        .next { s with tree := some t, code := none, status := s.status.withNewTree } ∧
      t.Proper ∧ ∀ b, byteSym b ∈ t.leaves ↔ 0 < s.freq.get b := by
  have hlength : (initialPq s.freq).length = ((initialPq s.freq).length - 1) + 1 := by
    have := List.length_pos_iff.mpr (initialPq_ne_nil s.freq)
    omega
  obtain ⟨t, hsteps, hleaves, -⟩ := build_steps _ 257 hlength (initialPq_adds s.freq)
  have hbody : bodyOf (.build 0) (accept (.build 0) s) =
      .more (.build (initialPq s.freq) 257) (accept (.build 0) s).dropTree :=
    if_neg (Nat.not_lt.mpr hw)
  refine ⟨t, ?_, leaves_of_initialPq hleaves⟩
  rw [exec_done (.inl h.2) rfl hbody (hsteps _) (by simp only [Progress.bound, workBound]; omega),
    endCommand_holdTree h.1]

end Sys2Proof.Machine
end

section
/-! PROOFS. A compressed byte sequence decompresses (spec/30_encoding.md rule R66, spec/45_body_decoder.md rule
R113), assembled from what each command of COMPRESS and DECOMPRESS does. -/

namespace Sys2Proof.Machine

/-! ### Sequences of commands -/

theorem execAll_cons {i : Instr} {is : List Instr} {s t : State} (h : exec i s = .next t) :
    execAll (i :: is) s = execAll is t := by
  rw [execAll, h]

theorem execAll_append {is : List Instr} (js : List Instr) {s t : State} (h : execAll is s = .next t) :
    execAll (is ++ js) s = execAll js t := by
  induction is generalizing s with
  | nil => injection h with h; rw [List.nil_append, h]
  | cons i is ih =>
    cases hi : exec i s with
    | next u =>
      rw [execAll_cons hi] at h
      rw [List.cons_append, execAll_cons hi, ih h]
    | fault f => simp [execAll, hi] at h
    | refused r => simp [execAll, hi] at h

/-! ### The round trip -/

theorem Table.entries_eq_ofFn {α : Type} {n : Nat} (t : Table α n) : t.entries = List.ofFn t.get := by
  apply List.ext_getElem
  · rw [t.size_eq, List.length_ofFn]
  · intro i _ _
    rw [List.getElem_ofFn]; rfl

/-- A table of the counts of a sequence adds up to the sequence's length. -/
theorem Table.sum_counts {n : Nat} {counts : Table Nat n} {xs : List (Fin n)}
    (h : ∀ i, counts.get i = xs.count i) : counts.entries.sum = xs.length := by
  rw [counts.entries_eq_ofFn, List.sum_ofFn, Finset.sum_congr rfl fun i _ => h i]
  simpa only [Multiset.coe_count, Multiset.coe_card] using
    Multiset.sum_count_eq_card (m := (xs : Multiset (Fin n))) fun i _ => Finset.mem_univ i

/-- A byte sequence has a body under a tree that holds its bytes and EOF (R65). -/
theorem HuffTree.body_isSome {t : HuffTree} {bytes : List (Fin 256)} (he : eofSym ∈ t.leaves)
    (hm : ∀ b ∈ bytes, byteSym b ∈ t.leaves) : ∃ body, t.body bytes = some body := by
  induction bytes with
  | nil => exact codeOf_some he
  | cons b bytes ih =>
    obtain ⟨c, hc⟩ := codeOf_some (hm b (by simp))
    obtain ⟨rest, hrest⟩ := ih fun y hy => hm y (by simp [hy])
    exact ⟨c ++ rest, by simp [body, hc, hrest]⟩

/-- `s` as BUILD and GENCODES leave it: a new tree and its codes (R83, R88). -/
def State.coded (s : State) (t : HuffTree) (table : Table (Option Bits) 257) : State :=
  { s with
    tree := some t
    code := some table
    status := { s.status.withNewTree with codesValid := true } }

/-- BUILD and GENCODES on the counts of a byte sequence: a tree with a leaf for each byte of it, and the codes
of that tree. -/
theorem exec_build_gencodes {s : State} {bytes : List (Fin 256)} (h : s.Ready)
    (hf : ∀ b, s.freq.get b = bytes.count b) (hw : 1 + bytes.length ≤ 2 ^ s.wCount - 1) :
    ∃ t table, execAll [.build 0, .gencodes 0] s = .next (s.coded t table) ∧ t.Proper ∧
      (∀ x, table.get x = t.codeOf x) ∧ ∀ b ∈ bytes, byteSym b ∈ t.leaves := by
  obtain ⟨t, hbuild, hproper, hleaves⟩ := exec_build h (by rwa [totalWeight, Table.sum_counts hf])
  obtain ⟨table, hgencodes, htable⟩ := exec_gencodes
    (s := { s with tree := some t, code := none, status := s.status.withNewTree }) h rfl rfl hproper.1
  refine ⟨t, table, ?_, hproper, htable, fun b hb => ?_⟩
  · rw [execAll_cons hbuild, execAll_cons hgencodes]; rfl
  · rw [hleaves, hf]
    exact List.count_pos_iff.mpr hb

/-- WRHDR and ENCODE: the header and the body appended in one piece, all bytes of IN taken. -/
theorem exec_wrhdr_encode {s : State} {t : HuffTree} {table : Table (Option Bits) 257}
    {bytes : List (Fin 256)} {body : Bits} (h : s.Ready) (hp : s.Prompt) (htree : s.status.treeValid = true)
    (hcodes : s.status.codesValid = true) (ht : s.tree = some t) (hc : s.code = some table)
    (htable : ∀ x, table.get x = t.codeOf x) (hb : t.body bytes = some body) (hr : s.rest = byteBits bytes) :
    ∃ cs, execAll [.wrhdr 0, .encode 0] s = .next (s.streamed (8 * bytes.length) (t.hdr ++ body) cs) := by
  have hwrhdr := exec_wrhdr_prompt h hp htree ht
  have hencode := exec_encode_prompt (s := s.streamed 0 t.hdr t.hdrCalls) (tail := []) h (hp.streamed _ _ _)
    hcodes hc htable hb (by simp [hr]) (by decide)
  rw [streamed_streamed, Nat.zero_add] at hencode
  exact ⟨_, by rw [execAll_cons hwrhdr, execAll_cons hencode]; rfl⟩

/-- RDHDR and DECODE take a header and a body and leave the bytes on OUT (R113). -/
theorem exec_rdhdr_decode {s : State} {t : HuffTree} {bytes : List (Fin 256)} {body x : Bits} (h : s.Ready)
    (hp : s.Prompt) (ht : t.Proper) (hb : t.body bytes = some body) (hr : s.rest = t.hdr ++ body ++ x) :
    ∃ d, execAll [.rdhdr 0, .decode 0] s = .next d ∧ d.Ready ∧ d.Prompt ∧
      d.status = s.status.withNewTree ∧ d.out = s.out ++ byteBits bytes ∧ d.rest = x := by
  rw [List.append_assoc] at hr
  have hrdhdr := exec_rdhdr_prompt h hp ht hr
  have hprompt : (s.afterHeader t).Prompt := hp.streamed t.hdr.length [] (tokenReads t.tokens)
  have hrest : (s.afterHeader t).rest = body ++ x := by simp [hr]
  have hbody : t.strip.body bytes = some body := by rw [t.strip_body, hb]
  have hdecode := exec_decode_prompt (s := s.afterHeader t) h hprompt rfl rfl hbody hrest
  have hboth := (execAll_cons hrdhdr).trans (execAll_cons (is := []) hdecode)
  refine ⟨_, hboth, h, hprompt.streamed _ _ _, rfl, ?_, ?_⟩
  · simp [State.streamed, State.afterHeader]
  · simp [hrest]

/-- A sequence of commands and one flush: the padding of its answer appended. -/
theorem execAll_append_flush {is : List Instr} {s t : State} (h : execAll is s = .next t) (ht : t.Ready)
    (hp : t.Prompt) : execAll (is ++ [.flush 0]) s =
      .next (t.streamed 0 (flushPad t.nextAnswer t.out.length) [.outFlush]) := by
  rw [execAll_append _ h, execAll_cons (exec_flush_ok ht (hp.promptFor 1).nextAnswer)]
  rfl

/-- Settles O40. COMPRESS leaves `hdr(TREE) ++ body(S)` and the padding of its flush on OUT; RDHDR and DECODE
take just the first two of them, so that padding is what stays on IN. -/
theorem compressedBytesDecompress : Obligations.CompressedBytesDecompress := by
  intro s bytes hs hp hf hw hr
  obtain ⟨t, table, htables, hproper, htable, hleaves⟩ := exec_build_gencodes hs hf hw
  obtain ⟨body, hbody⟩ := HuffTree.body_isSome hproper.2 hleaves
  obtain ⟨cs, hwrites⟩ := exec_wrhdr_encode (s := s.coded t table) hs hp rfl rfl rfl rfl htable hbody hr
  have hcompress := (execAll_append [.wrhdr 0, .encode 0] htables).trans hwrites
  have hprompt := State.Prompt.streamed (s := s.coded t table) hp (8 * bytes.length) (t.hdr ++ body) cs
  refine ⟨_, t, body, _, hcompress, rfl, hbody, rfl, ?_, execAll_append_flush hcompress hs hprompt, rfl, hs, ?_⟩
  · have hrest : (s.coded t table).rest = byteBits bytes := hr
    rw [streamed_rest, hrest, List.drop_eq_nil_of_le (by simp)]
  · intro v hv hvp hvr
    obtain ⟨d, hd, hready, hdp, hstatus, hout, hrest⟩ := exec_rdhdr_decode hv hvp hproper hbody hvr
    exact ⟨d, hd, hready.2, hout, hrest, execAll_append_flush hd hready hdp⟩

end Sys2Proof.Machine
end

section
/-! PROOFS. The control commands NOP, CLRERR and SRST (spec/40_control.md rules R68, R73, R74), which
complete from every idle state, also with an error recorded; SRST completes from every state. -/

namespace Sys2Proof.Machine

/-! ### SRST -/

theorem resetBlock_atReset (s : State) : (resetBlock s).AtReset where
  status := rfl
  freq := Table.get_fill 0
  tree := rfl
  code := rfl
  result := rfl
  latch := rfl
  work := rfl
  outstanding := rfl

/-- The beginning of a command touches only what the reset overwrites (R31, R36). -/
theorem resetBlock_accept (i : Instr) (s : State) : resetBlock (accept i s) = resetBlock s := rfl

/-- A reset block is idle already: the end of a command leaves it as it is. -/
theorem endCommand_resetBlock (s : State) : endCommand (resetBlock s) = resetBlock s := rfl

/-- SRST is the reset of block state and nothing else (R74). -/
theorem exec_srst_eq_resetBlock (low : BitVec 28) (s : State) : exec (.srst low) s = .next (resetBlock s) := by
  rw [exec_srst, resetBlock_accept, endCommand_resetBlock]

/-- Settles O7. The state that SRST answers is `resetBlock s`, which keeps every field that is not block
state. -/
theorem srstResetsTheBlock : Obligations.SrstResetsTheBlock := fun low s =>
  ⟨resetBlock s, exec_srst_eq_resetBlock low s, resetBlock_atReset s, rfl, rfl, rfl, rfl, rfl, rfl, rfl, rfl⟩

/-! ### NOP and CLRERR -/

/-- Settles O1: on an idle block the end of a command undoes its beginning. -/
theorem nopChangesNothing : Obligations.NopChangesNothing := by
  intro low s hidle
  rw [exec_nop, endCommand_accept hidle]

/-- Between the beginning and the end of a command on an idle block, only the error record changes (R73). -/
theorem endCommand_clearError_accept {s : State} (h : s.Idle) (i : Instr) :
    endCommand (clearError (accept i s)) = clearError s := by
  obtain ⟨hbusy, hlatch, -⟩ := h
  ext1 <;> simp [endCommand, clearError, accept, hbusy, hlatch]

/-- Settles O6: CLRERR is `clearError`, whose fields the statement spells out. -/
theorem clrerrClearsTheRecord : Obligations.ClrerrClearsTheRecord := by
  intro low s hidle
  rw [exec_clrerr, endCommand_clearError_accept hidle]
  rfl

end Sys2Proof.Machine
end

section
/-! PROOFS. The statements about the code table (spec/42_code_table.md): the codes GENCODES records (rules R88,
R89), and the one-leaf tree (rules R90, R104, R109). -/

namespace Sys2Proof.Machine

/-! ### The codes GENCODES records -/

/-- Settles O18: the table that GENCODES makes is the code function of TREE, and a code is the path to its
leaf. -/
theorem gencodesRecordsThePaths : Obligations.GencodesRecordsThePaths := by
  intro s t hs hv ht hproper
  obtain ⟨table, hexec, htable⟩ := exec_gencodes hs hv ht hproper.1
  refine ⟨table, hexec, fun x => ⟨fun hx => ?_, fun hx => (htable x).trans (HuffTree.codeOf_none hx)⟩⟩
  obtain ⟨p, hp⟩ := HuffTree.codeOf_some hx
  obtain ⟨w, hleaf⟩ := HuffTree.at?_codeOf hp
  exact ⟨p, w, (htable x).trans hp, hleaf⟩

/-! ### The one-leaf tree -/

@[simp] theorem HuffTree.codeOf_leaf_self (x : Sym) (w : Nat) : (HuffTree.leaf x w).codeOf x = some [] :=
  if_pos rfl

/-- The one-leaf tree has no code for any other Symbol (R90). -/
theorem HuffTree.codeOf_leaf_of_ne {x y : Sym} (w : Nat) (h : y ≠ x) : (HuffTree.leaf x w).codeOf y = none :=
  codeOf_none (mt List.mem_singleton.mp h)

/-- DECODE stands at the EOF leaf from its start on and ends there, before any read (R109). -/
theorem exec_decode_one_leaf {s : State} {w : Nat} (h : s.Ready) (hv : s.status.treeValid = true)
    (ht : s.tree = some (.leaf eofSym w)) : exec (.decode 0) s = .next s := by
  have hbody : bodyOf (.decode 0) (accept (.decode 0) s) =
      .more (.decode (.leaf eofSym w)) (accept (.decode 0) s) := by
    simp [bodyOf, decodeStart, accept, hv, ht]
  have hend : engineStep (.decode (.leaf eofSym w)) (accept (.decode 0) s) = .done (accept (.decode 0) s) := by
    simp [engineStep, decodeStep, decodeLeaf, accept, ht]
  rw [exec_done (.inl h.2) rfl hbody (.one hend) (by simp [Progress.bound, workBound]), endCommand_accept h.1]

/-- ENCODE with less than a byte left on IN writes the EOF code alone, whatever the other codes are (R102,
R104). -/
theorem exec_encode_no_byte {s : State} {table : Table (Option Bits) 257} {e : Bits} (h : s.Ready)
    (hp : s.Prompt) (hv : s.status.codesValid = true) (hc : s.code = some table)
    (he : table.get eofSym = some e) (hr : s.rest.length < 8) :
    exec (.encode 0) s = .next (s.streamed 0 e (.inRead 8 :: codeWrite e)) := by
  have hbody : bodyOf (.encode 0) (accept (.encode 0) s) = .more (.encode .fetch) (accept (.encode 0) s) := by
    simp [bodyOf, encodeStart, accept, hv]
  have hsteps := encode_last ((hp.accept (.encode 0)).promptFor _) (h.outstanding_accept _) hc hr he
  exact exec_streamed h rfl hbody hsteps (by simp only [Progress.bound, workBound]; omega)

/-- Settles O21: GENCODES records the codes of the tree, DECODE is at the EOF leaf at once, and the EOF code
that ENCODE writes has no bits, so it takes no call (R44). -/
theorem oneLeafTreeNeedsNoBits : Obligations.OneLeafTreeNeedsNoBits := by
  intro s w hs hv ht
  refine ⟨?_, exec_decode_one_leaf hs hv ht, fun table hcodes hc he hp hr => ?_⟩
  · obtain ⟨table, hexec, htable⟩ := exec_gencodes hs hv ht (List.nodup_singleton eofSym)
    refine ⟨table, hexec, ?_, fun x hx => ?_⟩
    · rw [htable, HuffTree.codeOf_leaf_self]
    · rw [htable, HuffTree.codeOf_leaf_of_ne w hx]
  · exact exec_encode_no_byte hs hp hcodes hc he (by simp [hr])

end Sys2Proof.Machine
end

section
/-! PROOFS. The statements about the Body Decoder (spec/45_body_decoder.md): a body that ends before its EOF
code (rule R110). -/

namespace Sys2Proof.Machine

/-! ### The node inside a code -/

/-- A path that a code properly extends ends at an internal node (R89). -/
theorem HuffTree.at?_of_codeOf_append {t : HuffTree} {x : Sym} {p q : Bits} (h : t.codeOf x = some (p ++ q))
    (hq : q ≠ []) : ∃ l r w, t.at? p = some (.node l r w) := by
  obtain ⟨w, hat⟩ := at?_codeOf h
  rw [at?_append, Option.bind_eq_some_iff] at hat
  obtain ⟨cur, hcur, hleaf⟩ := hat
  cases cur with
  | node l r w => exact ⟨l, r, w, hcur⟩
  | leaf =>
    obtain ⟨b, q, rfl⟩ := List.exists_cons_of_ne_nil hq
    cases hleaf

/-- Every bit of a path leaves at least one node behind. -/
theorem HuffTree.nodeCount_at? {t cur : HuffTree} {p : Bits} (h : t.at? p = some cur) :
    cur.nodeCount + p.length ≤ t.nodeCount := by
  induction p generalizing t with
  | nil => simp_all
  | cons b p ih =>
    cases t with
    | leaf => cases h
    | node l r w =>
      have hchild : (if b then r else l).at? p = some cur := by cases b <;> simpa [at?] using h
      have hcount := ih hchild
      rw [nodeCount, List.length_cons]
      cases b <;> simp only [if_true, Bool.false_eq_true, if_false] at hcount <;> omega

/-- No subtree below the root is equal to the whole tree, so R110's test "CUR is the root" holds after the empty
path alone. -/
theorem HuffTree.at?_eq_root_iff {t cur : HuffTree} {p : Bits} (h : t.at? p = some cur) : cur = t ↔ p = [] := by
  constructor
  · rintro rfl
    have := nodeCount_at? h
    exact List.length_eq_zero_iff.mp (by omega)
  · rintro rfl
    exact (Option.some.inj ((at?_nil t).symm.trans h)).symm

/-- A tree with an internal node has no empty code (R91 item 2). -/
theorem HuffTree.codeOf_ne_nil_of_node {t l r : HuffTree} {w : Nat} {p : Bits}
    (h : t.at? p = some (.node l r w)) (x : Sym) : t.codeOf x ≠ some [] := by
  intro hx
  obtain ⟨v, hroot⟩ := at?_codeOf hx
  obtain rfl : t = .leaf x v := by simpa using hroot
  cases p <;> cases h

/-! ### The end of IN -/

/-- The walker at an internal node when IN holds no bit (R110). -/
theorem decode_eod {root l r : HuffTree} {w : Nat} {s : State} (hp : s.PromptFor 1) (ho : s.outstanding = none)
    (ht : s.tree = some root) (hr : s.remaining < 1) :
    engineStep (.decode (.node l r w)) s =
      .raised .corruptBody (if .node l r w = root then 1 else 0) 0 (s.streamed 0 [] [.inRead 1]) := by
  simp only [engineStep, decodeStep, ht, decodeNode, inRead_eod_prompt hp ho hr]

/-- DECODE's scan that IN ends in the middle of, after the bits `p` (R108, R110). -/
theorem decode_truncated_scan {t : HuffTree} {s : State} {y : Sym} {p q : Bits} (hp : s.Prompt)
    (ho : s.outstanding = none) (ht : s.tree = some t) (hy : t.codeOf y = some (p ++ q)) (hq : q ≠ [])
    (hr : s.rest = p) :
    Steps (p.length + 1) (.more (.decode t) s)
      (.raised .corruptBody (if p = [] then 1 else 0) 0 (s.streamed p.length [] (bitReads (p.length + 1)))) := by
  obtain ⟨l, r, w, hat⟩ := HuffTree.at?_of_codeOf_append hy hq
  have hwalk := decode_walk p t _ s [] (hp.promptFor _) ho ht (by rw [hr, List.append_nil]) hat
  have hnone : (s.streamed p.length [] (bitReads p.length)).remaining < 1 := by
    rw [← rest_length, streamed_rest, hr]; simp
  have hend := decode_eod (l := l) (r := r) (w := w)
    ((hp.streamed p.length [] (bitReads p.length)).promptFor 1) ho ht hnone
  have hreads : bitReads p.length ++ [.inRead 1] = bitReads (p.length + 1) := List.replicate_succ'.symm
  simp only [HuffTree.at?_eq_root_iff hat, streamed_streamed, hreads] at hend
  exact hwalk.trans (.one hend)

/-- DECODE's walk over the codes of some bytes and the scan that IN ends in the middle of. -/
theorem decode_truncated_steps {t : HuffTree} {s : State} {bytes : List (Fin 256)} {y : Sym} {p q : Bits}
    (hp : s.Prompt) (ho : s.outstanding = none) (ht : s.tree = some t) (hm : ∀ b ∈ bytes, byteSym b ∈ t.leaves)
    (hy : t.codeOf y = some (p ++ q)) (hq : q ≠ []) (hr : s.rest = codesOf t.codeOf bytes ++ p) :
    ∃ k, Steps k (.more (.decode t) s)
        (.raised .corruptBody (if p = [] then 1 else 0) 0
          (s.streamed s.rest.length (byteBits bytes) (decodeCalls t.codeOf bytes ++ bitReads (p.length + 1)))) ∧
      k ≤ 2 * s.rest.length + 1 := by
  obtain ⟨k, hbytes, hk⟩ := decode_bytes bytes p s (hp.promptFor _) ho ht hm hr
  have hscan := decode_truncated_scan (hp.streamed (codesOf t.codeOf bytes).length (byteBits bytes)
    (decodeCalls t.codeOf bytes)) ho ht hy hq (by simp [hr])
  rw [streamed_streamed, List.append_nil, ← List.length_append, ← hr] at hscan
  obtain ⟨l, r, w, hat⟩ := HuffTree.at?_of_codeOf_append hy hq
  have hcount := hk fun b _ => HuffTree.codeOf_ne_nil_of_node hat (byteSym b)
  exact ⟨_, hbytes.trans hscan, by rw [hr, List.length_append]; omega⟩

/-- A command that raises an error after stream work and nothing else. -/
theorem exec_raised_streamed {i : Instr} {s : State} {p : Progress} {k n : Nat} {b : Bits} {cs : List Call}
    {e : ErrKind} {sub : BitVec 3} {sym : BitVec 9} (h : s.Ready) (hc : illegalCause i = none)
    (hb : bodyOf i (accept i s) = p)
    (hs : Steps k p (.raised e sub sym ((accept i s).streamed n b cs))) (hk : k ≤ p.bound) :
    exec i s = .next { s.streamed n b cs with status := s.status.afterError i.opcode e sub sym } := by
  rw [exec_runs (.inl h.2) hc, hb, finish_raised hs hk, raiseError_streamed h.1]

/-- Settles O37: after the scans of the bytes, the walker stands at the node that `p` leads to, which is the
root only where `p` is empty. -/
theorem decodeReportsATruncatedBody : Obligations.DecodeReportsATruncatedBody := by
  intro s t bytes codes p q y hs hp hv _ ht hcodes hleaves hy hq hr
  have hrest : s.rest = codesOf t.codeOf bytes ++ p := by rw [hr, hcodes]; rfl
  have hbody : bodyOf (.decode 0) (accept (.decode 0) s) = .more (.decode t) (accept (.decode 0) s) := by
    simp [bodyOf, decodeStart, accept, hv, ht]
  obtain ⟨k, hsteps, hk⟩ :=
    decode_truncated_steps (hp.accept (.decode 0)) (hs.outstanding_accept _) ht hleaves hy hq hrest
  refine exec_raised_streamed hs rfl hbody hsteps ?_
  simp only [Progress.bound, workBound, ← rest_length]; omega

end Sys2Proof.Machine
end

section
/-! PROOFS. The way out of an error (spec/60_exceptions.md rule R127): NOP, CLRERR and SRST complete from every
state, also a busy one, and raise nothing. -/

namespace Sys2Proof.Machine

/-- The commands that are never rejected are NOP, CLRERR and SRST (R67 step 1, R127). -/
theorem neverRejected_cases {i : Instr} (h : neverRejected i = true) :
    (∃ low, i = .nop low) ∨ (∃ low, i = .clrerr low) ∨ ∃ low, i = .srst low := by
  cases i <;> simp [neverRejected] at h ⊢

/-- Settles O12. NOP keeps ERR and REJ; CLRERR and SRST zero both. -/
theorem errorStateCanBeLeft : Obligations.ErrorStateCanBeLeft := by
  intro i s hop
  obtain ⟨low, rfl⟩ | ⟨low, rfl⟩ | ⟨low, rfl⟩ := neverRejected_cases ((neverRejected_iff i).mpr hop)
  case inl =>
    exact ⟨_, exec_nop low s, .inl rfl, fun hne => absurd rfl hne, id⟩
  case inr.inl =>
    have herr : (endCommand (clearError (accept (.clrerr low) s))).status.err = 0 := rfl
    exact ⟨_, exec_clrerr low s, .inr herr, fun _ => herr, nofun⟩
  case inr.inr =>
    have herr : (resetBlock s).status.err = 0 := rfl
    exact ⟨_, exec_srst_eq_resetBlock low s, .inr herr, fun _ => herr, nofun⟩

end Sys2Proof.Machine
end

section
/-! PROOFS. The round trips of the codec commands, answered at once: RDHDR reads back a header
(spec/43_header_codec.md rule R99), DECODE a body, and both together (spec/45_body_decoder.md rule R113). -/

namespace Sys2Proof.Machine

/-- Settles O26: the header of `t` has `11 × leafCount − 1` bits (R64). -/
theorem rdhdrReadsBackAHeader : Obligations.RdhdrReadsBackAHeader := by
  intro s t x hs hp hproper hr
  have hlength : 11 * t.leafCount - 1 = t.hdr.length := by
    have := t.hdr_length_succ
    omega
  rw [exec_rdhdr_prompt hs hp hproper hr, hlength]
  rfl

/-- Settles O36: a stripped tree has the codes, and so the bodies, of the tree it comes from. -/
theorem decodeInvertsTheBody : Obligations.DecodeInvertsTheBody := by
  rintro s t bytes b x hs hp hv _ (ht | ht) hb hr
  · exact exec_decode_prompt hs hp hv ht hb hr
  · have hcodes : t.strip.codeOf = t.codeOf := funext t.strip_codeOf
    rw [← hcodes]
    exact exec_decode_prompt hs hp hv ht ((t.strip_body bytes).trans hb) hr

/-- Settles O39. -/
theorem headerAndBodyDecode : Obligations.HeaderAndBodyDecode := by
  intro s t bytes b x hs hp hproper hb hr
  obtain ⟨d, hexec, -, -, hstatus, hout, hrest⟩ := exec_rdhdr_decode hs hp hproper hb hr
  exact ⟨d, hexec, hout, hrest, hstatus⟩

end Sys2Proof.Machine
end

section
/-! PROOFS. The decoder and the encoder of a command transaction (spec/30_encoding.md rules R53 to R59), and the
STATUS word (spec/10_state.md rules R26, R35). -/

namespace Sys2Proof.Machine

/-! ### The fields of a CMD word -/

@[simp] theorem cmdLow_packLow (opc : BitVec 4) (low : BitVec 28) : cmdLow (packLow opc low) = low := by
  apply BitVec.eq_of_getLsbD_eq
  intro i hi
  interval_cases i <;> simp [cmdLow, packLow]

@[simp] theorem cmdRsv_packSym (opc : BitVec 4) (rsv : BitVec 19) (sym : BitVec 9) :
    cmdRsv (packSym opc rsv sym) = rsv := by
  apply BitVec.eq_of_getLsbD_eq
  intro i hi
  interval_cases i <;> simp [cmdRsv, packSym]

@[simp] theorem cmdSym_packSym (opc : BitVec 4) (rsv : BitVec 19) (sym : BitVec 9) :
    cmdSym (packSym opc rsv sym) = sym := by
  apply BitVec.eq_of_getLsbD_eq
  intro i hi
  interval_cases i <;> simp [cmdSym, packSym]

/-- OPC and CMD[27:0] are all of CMD (R54). -/
theorem packLow_of_opc {cmd : CmdWord} {opc : BitVec 4} (h : opc = cmdOpc cmd) :
    packLow opc (cmdLow cmd) = cmd := by
  subst h
  apply BitVec.eq_of_getLsbD_eq
  intro i hi
  interval_cases i <;> simp [packLow, cmdOpc, cmdLow]

/-- OPC, RSV and SYM are all of CMD (R54). -/
theorem packSym_of_opc {cmd : CmdWord} {opc : BitVec 4} (h : opc = cmdOpc cmd) :
    packSym opc (cmdRsv cmd) (cmdSym cmd) = cmd := by
  subst h
  apply BitVec.eq_of_getLsbD_eq
  intro i hi
  interval_cases i <;> simp [packSym, cmdOpc, cmdRsv, cmdSym]

/-! ### Decoding and encoding -/

/-- Settles O57: OPC selects the constructor, and the other fields of CMD give its operands back. -/
theorem decodeInvertsEncode : Obligations.DecodeInvertsEncode := by
  intro i
  cases i <;> simp [encodeCmd, encodeData, decode, cmdOpc_packLow, cmdOpc_packSym]

/-- Every CMD word is the word of the command it decodes to (R59). -/
theorem encodeCmd_decode (cmd : CmdWord) (data : Nat) : encodeCmd (decode cmd data) = cmd := by
  have hopc := decode_opcode cmd data
  unfold decode at hopc ⊢
  split at hopc
  case h_3 | h_4 | h_12 => exact packSym_of_opc hopc
  all_goals exact packLow_of_opc hopc

/-- Settles O58. -/
theorem encodeInvertsDecode : Obligations.EncodeInvertsDecode := by
  intro cmd data
  refine ⟨encodeCmd_decode cmd data, fun hopc => ?_, fun hopc data' => ?_⟩
  · simp [decode, hopc, encodeData]
  · have hne : (cmdOpc cmd).toNat ≠ 2 := fun h => hopc (BitVec.eq_of_toNat_eq h)
    unfold decode
    split
    case h_3 h => exact absurd h hne
    all_goals rfl

/-! ### Legal commands -/

theorem checkLow_eq_none {low : BitVec 28} : checkLow low = none ↔ low = 0 := by
  simp [checkLow]

theorem checkSym_eq_none {limit : Nat} {rsv : BitVec 19} {sym : BitVec 9} :
    checkSym limit rsv sym = none ↔ rsv = 0 ∧ sym.toNat ≤ limit := by
  unfold checkSym
  split <;> simp_all

/-- Settles O59: the checks of the prologue are those of the table, command by command; the table's last one, of
COUNT, is LDFREQ's alone. -/
theorem legalCommandsAreWellFormed : Obligations.LegalCommandsAreWellFormed := by
  intro w i
  cases i <;> simp [Instr.WellFormed, illegalCause, checkLow_eq_none, checkSym_eq_none]

/-- Settles O60. -/
theorem decodedWords : Obligations.DecodedWords := by
  unfold Obligations.DecodedWords
  decide

/-! ### The STATUS word -/

/-- The word by field (R26): each field stands where the word holds it, and 31:24 are 0 (R35). -/
theorem Status.word_fields (x : Status) :
    x.word.getLsbD 0 = x.busy ∧ x.word.getLsbD 1 = x.treeValid ∧ x.word.getLsbD 2 = x.codesValid ∧
    x.word.getLsbD 3 = x.rej ∧ x.word.extractLsb' 4 4 = x.err ∧ x.word.extractLsb' 8 4 = x.errOp ∧
    x.word.extractLsb' 12 3 = x.errSub ∧ x.word.extractLsb' 15 9 = x.errSym ∧
    x.word.extractLsb' 24 8 = 0 := by
  refine ⟨?_, ?_, ?_, ?_, ?_, ?_, ?_, ?_, ?_⟩
  case refine_1 | refine_2 | refine_3 | refine_4 => simp [Status.word]
  all_goals
    apply BitVec.eq_of_getLsbD_eq
    intro i hi
    interval_cases i <;> simp [Status.word]

/-- Settles O52: while BUSY = 1 the free bits of a read are masked into TREE_VALID, CODES_VALID and the ERR fields
alone. -/
theorem statusWordLayout : Obligations.StatusWordLayout := by
  refine ⟨Status.word_fields, fun s => ⟨fun hbusy => ?_, fun hbusy => ?_⟩⟩
  · rw [readStatus, hbusy]; rfl
  · obtain ⟨hbit0, -, -, hbit3, -, -, -, -, hreserved⟩ := s.status.word_fields
    have hzeros : ∀ i < 8, s.status.word.getLsbD (24 + i) = false := fun i hi => by
      simpa [hi] using congrArg (·.getLsbD i) hreserved
    rw [readStatus, if_pos hbusy]
    refine ⟨?_, ?_, ?_⟩
    · simp [hbit0, hbusy, busyFreeMask]
    · simpa [busyFreeMask] using hbit3
    · apply BitVec.eq_of_getLsbD_eq
      intro i hi
      have := hzeros i hi
      interval_cases i <;> simp_all [busyFreeMask]

end Sys2Proof.Machine
end

section
/-! PROOFS. One step of the machine (spec/40_control.md rules R67, R75, spec/70_reset_and_hazards.md rules R131 to
R144): what it runs, and that it keeps the invariant and always answers a next state. -/

namespace Sys2Proof.Machine

/-! ### What a step runs -/

/-- With the reset released, a BUSY block goes on with its command. -/
theorem step_of_busy {s : State} (hr : s.resetAsserted = false) (hb : s.status.busy = true) :
    step s = resume s.nextPin := by
  simp [step, hr, hb]

/-- With the reset released, an idle block takes the host's next move. -/
theorem step_of_idle {s : State} (hr : s.resetAsserted = false) (hb : s.status.busy = false) :
    step s = hostMove s.nextPin := by
  simp [step, hr, hb]

theorem hostMove_offer {s : State} {cmd : CmdWord} {data : Nat} {moves : List PortEvent}
    (hp : s.port = .offer cmd data :: moves) :
    hostMove s = exec (decode cmd data) ((s.setPort moves).latchCommand cmd data) := by
  simp only [hostMove, hp]

/-- No command stands at the head of the port. -/
def State.NoOffer (s : State) : Prop := ∀ cmd data moves, s.port ≠ .offer cmd data :: moves

theorem State.offer_cases (s : State) : s.NoOffer ∨ ∃ cmd data moves, s.port = .offer cmd data :: moves := by
  simpa only [State.NoOffer, not_forall, not_not] using em s.NoOffer

/-- A move of the host that is no offer changes the streams and the port alone, and needs no answer (R144). -/
theorem hostMove_noOffer {s : State} (h : s.NoOffer) :
    ∃ inp pos out moves, ∀ as, hostMove (s.setAnswers as) =
      .next { s with inp := inp, inPos := pos, out := out, port := moves, answers := as } := by
  cases hp : s.port with
  | nil =>
    exact ⟨s.inp, s.inPos, s.out, [], fun as => by simp only [hostMove, setAnswers_port, hp]; rw [← hp]; rfl⟩
  | cons move moves =>
    cases move with
    | offer cmd data => exact absurd hp (h cmd data moves)
    | rewindIn => exact ⟨s.inp, 0, s.out, moves, fun as => by simp only [hostMove, setAnswers_port, hp]; rfl⟩
    | attachIn bits pos => exact ⟨bits, pos, s.out, moves, fun as => by simp only [hostMove, setAnswers_port, hp]; rfl⟩
    | attachOut bits => exact ⟨s.inp, s.inPos, bits, moves, fun as => by simp only [hostMove, setAnswers_port, hp]; rfl⟩

/-- Settles O45: the words a step latches before it runs a command stay where the command waits, and nowhere
else. -/
theorem stepRunsTheDecodedCommand : Obligations.StepRunsTheDecodedCommand := by
  intro s cmd data moves hr hb hp
  have hstep : step s = exec (decode cmd data)
      ((({ s with port := moves, resetPin := s.resetPin.tail } : State).setStatus
        { s.status with busy := true }).setLatch (some { cmd := cmd, data := data % 2 ^ s.wCount })) := by
    rw [step_of_idle hr hb, hostMove_offer (s := s.nextPin) hp]; rfl
  refine ⟨hstep, fun u hidle hu => ?_⟩
  have hlatched := exec_latched { cmd := cmd, data := data % 2 ^ s.wCount } (by exact hidle.2.1) hu
  refine ⟨fun hbusy => ?_, fun hbusy => ?_⟩
  · rw [hbusy, if_neg (by decide)] at hlatched
    exact hstep.trans hlatched
  · rw [hbusy, if_pos rfl] at hlatched
    exact hstep.trans hlatched

/-- Settles O46. -/
theorem idleBlockHoldsItsState : Obligations.IdleBlockHoldsItsState := by
  intro s hr hb
  rw [step_of_idle hr hb]
  refine ⟨fun hp => ?_, fun moves hp => ?_, fun bits pos moves hp => ?_, fun bits moves hp => ?_⟩ <;>
    · have hport : s.nextPin.port = _ := hp
      simp only [hostMove, hport]
      rfl

/-! ### The invariant -/

/-- Settles O53. -/
theorem resetState : Obligations.ResetState :=
  ⟨resetBlock_atReset State.reset, rfl⟩

/-- Settles O54: the reset state is what the hardware reset leaves of itself. -/
theorem invariantHoldsAtReset : Obligations.InvariantHoldsAtReset :=
  hardReset_inv (s := State.reset) (by decide)

/-- The answers still to come are no part of the invariant. -/
theorem State.Inv.withAnswers {s : State} (h : s.Inv) (as : List Answer) : (s.setAnswers as).Inv := by
  have hB : (s.setAnswers as).Base := h.base.congr rfl rfl rfl ⟨rfl, rfl, rfl, rfl, rfl⟩
  have hH : (s.setAnswers as).Held := h.held.congr rfl rfl rfl rfl
  refine ⟨hB.1, hB.2, hB.3, hB.4, hB.5, hB.6, hB.7, hB.8, hB.9, hH.1, hH.2, hH.3, hH.4, hH.5, h.idle, fun hb => ?_⟩
  obtain ⟨herr, w, l, c, hw, hl, hc, hpending, hop, hfits⟩ := h.running hb
  exact ⟨herr, w, l, c, hw, hl, hc, hpending, hop, hfits.congr rfl rfl⟩

/-- A move of the host on an idle block. -/
theorem hostMove_inv {s : State} (h : s.Inv) (hb : s.status.busy = false) :
    ∃ u, hostMove s = .next u ∧ u.Inv := by
  obtain ⟨hlatch, hwork, hcall⟩ := h.idle hb
  rcases s.offer_cases with hoffer | ⟨cmd, data, moves, hp⟩
  · obtain ⟨inp, pos, out, moves, hmove⟩ := hostMove_noOffer hoffer
    exact ⟨_, hmove s.answers, inv_of_idle (h.base.congr rfl rfl rfl ⟨rfl, rfl, rfl, rfl, rfl⟩)
      (h.held.congr rfl rfl rfl rfl) hb hlatch hwork hcall⟩
  · rw [hostMove_offer hp]
    exact exec_inv (h.base.congr rfl rfl rfl ⟨rfl, rfl, rfl, rfl, rfl⟩) (h.held.congr rfl rfl rfl rfl)
      hwork hcall rfl (decode_opcode cmd data).symm

/-- With the reset released. -/
theorem step_released_inv {s : State} (h : s.Inv) (hr : s.resetAsserted = false) :
    ∃ u, step s = .next u ∧ u.Inv := by
  have hpin : s.nextPin.Inv := h.withPin _
  cases hb : s.status.busy with
  | true => rw [step_of_busy hr hb]; exact resume_inv hpin hb
  | false => rw [step_of_idle hr hb]; exact hostMove_inv hpin hb

/-- A reset while a host's move at the streams is made comes after it. -/
theorem step_during_noOffer {s : State} (pin : List ResetLevel) (n : Nat) (hb : s.status.busy = false)
    (hn : s.NoOffer) :
    step { s with resetPin := .during n :: pin } = thenReset (hostMove { s with resetPin := pin }) := by
  have hcut : step { s with resetPin := .during n :: pin } = cutStep n { s with resetPin := pin } := rfl
  rw [hcut, cutStep, if_neg (by simp [hb])]
  cases hp : s.port with
  | nil => rfl
  | cons move moves =>
    cases move with
    | offer cmd data => exact absurd hp (hn cmd data moves)
    | rewindIn => rfl
    | attachIn => rfl
    | attachOut => rfl

/-- A reset that comes while a step runs finds the block at some state `v` with the same W_COUNT. -/
theorem step_during {s : State} (h : s.Inv) (pin : List ResetLevel) (n : Nat) :
    ∃ v, step { s with resetPin := .during n :: pin } = .next (hardReset v) ∧ v.wCount = s.wCount := by
  cases hb : s.status.busy with
  | true =>
    obtain ⟨w, p, s₀, t, -, -, hcourse, -⟩ := Course.busy pin h hb
    obtain ⟨cs, -, hcut, -⟩ := hcourse.all
    obtain ⟨v, -, hstep, hwidth, -⟩ := hcut n
    exact ⟨v, hstep, hwidth⟩
  | false =>
    rcases s.offer_cases with hoffer | ⟨cmd, data, moves, hp⟩
    · obtain ⟨inp, pos, out, moves, hmove⟩ := hostMove_noOffer (s := { s with resetPin := pin }) hoffer
      exact ⟨_, (step_during_noOffer pin n hb hoffer).trans (congrArg thenReset (hmove s.answers)), rfl⟩
    · obtain ⟨p, s₀, t, -, hcourse, -⟩ := Course.offered pin h hb hp
      obtain ⟨cs, -, hcut, -⟩ := hcourse.all
      obtain ⟨v, -, hstep, hwidth, -⟩ := hcut n
      exact ⟨v, hstep, hwidth⟩

/-- From every state of the invariant a step answers a state of the invariant, whatever the reset input does. -/
theorem step_inv {s : State} (h : s.Inv) : ∃ u, step s = .next u ∧ u.Inv := by
  cases hpin : s.resetPin with
  | nil => exact step_released_inv h (by simp [State.resetAsserted, State.resetLevel, hpin])
  | cons level pin =>
    have hs : s = { s with resetPin := level :: pin } := by rw [← hpin]
    cases level with
    | released => exact step_released_inv h (by simp [State.resetAsserted, State.resetLevel, hpin])
    | asserted => rw [hs]; exact ⟨_, rfl, hardReset_inv h.width⟩
    | during n =>
      obtain ⟨v, hstep, hwidth⟩ := step_during h pin n
      rw [hs]
      exact ⟨_, hstep, hardReset_inv (hwidth ▸ h.width)⟩

/-- Settles O55. -/
theorem everyStepKeepsTheInvariant : Obligations.EveryStepKeepsTheInvariant := by
  intro s u h hu
  obtain ⟨v, hv, hinv⟩ := step_inv h
  cases hu.symm.trans hv
  exact hinv

/-- Settles O56. -/
theorem noStepStops : Obligations.NoStepStops := fun _ h => (step_inv h).imp fun _ hu => hu.1

end Sys2Proof.Machine
end

section
/-! PROOFS. The steps of a BUSY block (spec/10_state.md rules R17, R31, R32, spec/40_control.md rule R75): what they
keep, a call that is not answered yet, and a call that is answered late. -/

namespace Sys2Proof.Machine

/-! ### What a BUSY step keeps -/

/-- A step of a BUSY block that answers a next state went on with the block's command to its end or to a wait. -/
theorem resume_next {s u : State} (h : resume s = .next u) :
    ∃ w l k q, s.work = some w ∧ s.latch = some l ∧ Steps k (.more w (s.setWork none)) q ∧
      Ended (cmdOpc l.cmd) q u := by
  cases hw : s.work with
  | none => simp [resume, hw] at h
  | some w =>
    cases hl : s.latch with
    | none => simp [resume, hw, hl] at h
    | some l =>
      rw [resume_runs hw hl] at h
      obtain ⟨k, q, hsteps, hend⟩ := finish_next h
      exact ⟨w, l, k, q, rfl, rfl, hsteps, hend⟩

/-- The end of a command, or its wait, leaves the port and the reset input alone. -/
theorem Ended.ports {op : BitVec 4} {q : Progress} {u : State} (h : Ended op q u) :
    ∃ t, q.state? = some t ∧ u.port = t.port ∧ u.resetPin = t.resetPin := by
  cases h <;> exact ⟨_, rfl, rfl, rfl⟩

/-- Settles O48: no piece of work touches the port. -/
theorem offersWaitWhileBusy : Obligations.OffersWaitWhileBusy := by
  intro s u hr hb hu
  rw [step_of_busy hr hb] at hu
  obtain ⟨w, l, k, q, -, -, hsteps, hend⟩ := resume_next hu
  obtain ⟨t, ht, hport, -⟩ := hend.ports
  obtain ⟨-, -, hkept, -⟩ := hsteps.untouched rfl ht
  exact hport.trans hkept

/-- In a state of the invariant a BUSY block stands at a piece of its command's work, for whose call it waits. -/
theorem step_of_running {s : State} (h : s.Inv) (hr : s.resetAsserted = false) (hb : s.status.busy = true) :
    ∃ w l c, s.work = some w ∧ s.latch = some l ∧ s.outstanding = some c ∧ w.pendingCall = some c ∧
      cmdOpc l.cmd = w.opcode ∧ w.Runs (s.nextPin.setWork none) ∧
      step s = finish w.opcode (.more w (s.nextPin.setWork none)) := by
  obtain ⟨-, w, l, c, hw, hl, hc, hpending, hop, hfits⟩ := h.running hb
  refine ⟨w, l, c, hw, hl, hc, hpending, hop, ?_, ?_⟩
  · exact ⟨h.held.congr rfl rfl rfl rfl, hfits.congr rfl rfl, .inr (hc.trans hpending.symm)⟩
  · rw [step_of_busy hr hb, ← hop]
    exact resume_runs (s := s.nextPin) hw hl

/-- The work of a suspended command is that of a stream command; only RDHDR writes TREE and CODE, and only FLUSH has
OPC 8. -/
theorem Work.opcode_of_fits {w : Work} {s : State} (h : w.Fits s) :
    ((∀ phase seen nint stack, w ≠ .rdhdr phase seen nint stack) →
      w.opcode ∉ [0x4, 0x9] ∧ w.opcode ∉ [0x4, 0x5, 0x9]) ∧
    (w ≠ .flush → w.opcode ≠ 0x8) := by
  cases w with
  | build => exact h.elim
  | gencodes => exact h.elim
  | rdhdr phase seen nint stack => exact ⟨fun hne => (hne _ _ _ _ rfl).elim, by simp [opcode]⟩
  | flush => exact ⟨by simp [opcode], fun hne => (hne rfl).elim⟩
  | wrhdr | encode | decode => simp [opcode]

/-- What the end of a command, or its wait, leaves alone. -/
theorem kept_at_end {op : BitVec 4} {t u : State}
    (h : u = endCommand t ∨ (∃ e sub sym, u = raiseError op e sub sym t) ∨ ∃ w, w.opcode = op ∧ u = suspend w t) :
    u.wCount = t.wCount ∧ u.freq = t.freq ∧ u.result = t.result ∧ u.inp = t.inp ∧ u.port = t.port ∧
    u.status.rej = t.status.rej ∧ u.calls = t.calls ∧ u.tree = t.tree ∧ u.code = t.code ∧ u.out = t.out ∧
    (u.status.busy = true → u.latch = t.latch) := by
  rcases h with rfl | ⟨e, sub, sym, rfl⟩ | ⟨w', -, rfl⟩
  · exact ⟨rfl, rfl, rfl, rfl, rfl, rfl, rfl, rfl, rfl, rfl, nofun⟩
  · exact ⟨rfl, rfl, rfl, rfl, rfl, rfl, rfl, rfl, rfl, rfl, nofun⟩
  · exact ⟨rfl, rfl, rfl, rfl, rfl, rfl, rfl, rfl, rfl, rfl, fun _ => rfl⟩

/-- What no piece of work of a stream command touches. -/
theorem WorkFrame.kept {op : BitVec 4} {s t : State} (h : WorkFrame op s t) :
    t.wCount = s.wCount ∧ t.freq = s.freq ∧ t.result = s.result ∧ t.inp = s.inp ∧ t.port = s.port ∧
    t.status.rej = s.status.rej ∧ t.latch = s.latch := by
  rw [h.others]
  exact ⟨rfl, rfl, rfl, rfl, rfl, rfl, rfl⟩

/-- Settles O51: the frame of the command's work, whose OPC says which command it is. -/
theorem busyStepsKeepToTheirCommand : Obligations.BusyStepsKeepToTheirCommand := by
  intro s u h hr hb hu
  obtain ⟨w, l, c, hw, hl, -, -, hop, hruns, hstep⟩ := step_of_running h hr hb
  obtain ⟨hrdhdr, hflush⟩ := Work.opcode_of_fits hruns.fits
  obtain ⟨t, hframe, hend⟩ := finish_within (s₀ := s.nextPin.setWork none) (hstep.symm.trans hu)
    ⟨.refl _ _, by rintro _ _ ⟨⟩; rfl, by simp⟩
  obtain ⟨hwidth, hfreq, hresult, hinp, hport, hrej, hcalls, htree, hcode, hout, hlatch⟩ := kept_at_end hend
  obtain ⟨hwidth', hfreq', hresult', hinp', hport', hrej', hlatch'⟩ := hframe.kept
  refine ⟨hwidth.trans hwidth', hfreq.trans hfreq', hresult.trans hresult', hinp.trans hinp', hport.trans hport',
    hrej.trans hrej', ?_, fun hne => ?_, fun hne => ?_, fun hbusy => (hlatch hbusy).trans hlatch'⟩
  · obtain ⟨cs, hcs, hmay⟩ := hframe.calls
    refine ⟨cs, hcalls.trans hcs, fun c hc l' hl' => ?_⟩
    cases hl.symm.trans hl'
    rw [hop]; exact hmay c hc
  · obtain ⟨hnotree, hnocode⟩ :=
      hrdhdr fun phase seen nint stack e => hne phase seen nint stack (hw.trans (congrArg some e))
    exact ⟨htree.trans (hframe.tree hnotree).1, hcode.trans (hframe.code hnocode).1⟩
  · rw [hout]
    exact hframe.grows (hflush fun e => hne (hw.trans (congrArg some e)))

/-! ### A call that is not answered -/

/-- The call `c` made and outstanding, `left` being the answers still to come. -/
def State.asked (s : State) (c : Call) (left : List Answer) : State :=
  ((s.issue c).setAnswers left).setOutstanding (some c)

/-- The collaborator's answer `later` or `never` (R75). -/
theorem callCollab_unanswered {s : State} {left : List Answer} (c : Call) (h : s.Unanswered left) :
    callCollab c s = .wait (s.asked c left) := by
  obtain ⟨cs, hissue, -⟩ := issue_eq s c
  rcases h with ⟨ha, rfl⟩ | ⟨ha, rfl⟩
  · simp only [callCollab, ha, State.asked, State.popAnswer, hissue]
  · simp only [callCollab, ha, State.asked, hissue]; rfl

theorem inRead_unanswered {s : State} {left : List Answer} (n : Nat) (h : s.Unanswered left) :
    inRead n s = .wait (s.asked (.inRead n) left) := by
  rw [inRead, callCollab_unanswered _ h]

theorem outWrite_unanswered {s : State} {left : List Answer} {n : Nat} (v : Nat) (hn : n ≠ 0)
    (h : s.Unanswered left) : outWrite n v s = .wait (s.asked (.outWrite n v) left) := by
  rw [outWrite, if_neg hn, callCollab_unanswered _ h]

/-- A stream command at a fitting place whose call is not answered waits where it is. -/
theorem engineStep_unanswered {w : Work} {c : Call} {s : State} {left : List Answer} (h : w.Runs s)
    (hp : w.pendingCall = some c) (ha : s.Unanswered left) : engineStep w s = .wait w (s.asked c left) := by
  rcases engineStep_wait hp (callCollab_unanswered c ha) with hwait | ⟨e, -, hstuck⟩
  · exact hwait
  · have hgood := engineStep_good h
    rw [hstuck s rfl rfl] at hgood
    exact hgood.elim

theorem workBound_pos (w : Work) (s : State) : 1 ≤ workBound w s := by
  cases w <;> simp [workBound]

/-- A command that waits at its next piece of work. -/
theorem finish_waits {op : BitVec 4} {w : Work} {s t : State} (h : engineStep w s = .wait w t) :
    finish op (.more w s) = .next (suspend w t) := by
  rw [finish_of_steps (.one h) (workBound_pos w s), runEngine_wait]

/-- A step of a BUSY block whose call is not answered. -/
theorem step_unanswered {s : State} {left : List Answer} (h : s.Inv) (hr : s.resetAsserted = false)
    (hb : s.status.busy = true) (ha : s.Unanswered left) :
    step s = .next { s with resetPin := s.resetPin.tail, answers := left, waits := s.waits + 1 } := by
  obtain ⟨w, l, c, hw, -, hc, hpending, -, hruns, hstep⟩ := step_of_running h hr hb
  have hissue : (s.nextPin.setWork none).issue c = s.nextPin.setWork none := by
    have hcall : s.nextPin.outstanding = some c := hc
    simp [State.issue, hcall]
  rw [hstep, finish_waits (engineStep_unanswered hruns hpending ha), State.asked, hissue]
  congr 1
  ext1 <;> simp [suspend, State.nextPin, hw, hc]

/-- A command of an idle block whose first call is not answered. -/
theorem exec_unanswered {i : Instr} {w : Work} {c : Call} {s : State} {left : List Answer} (h : s.Ready)
    (hc : illegalCause i = none) (hb : bodyOf i (accept i s) = .more w (accept i s))
    (hw : engineStep w (accept i s) = .wait w ((accept i s).asked c left)) :
    exec i s = .next (s.waitingAt i w c left) := by
  rw [exec_runs (.inl h.2) hc, hb, finish_waits hw]
  obtain ⟨⟨-, hlatch, -, hcall⟩, -⟩ := h
  congr 1
  ext1 <;> simp [suspend, State.asked, State.issue, State.waitingAt, accept, hlatch, hcall]

/-- RDHDR has cleared the valid bits before its first call (R95). -/
theorem exec_rdhdr_unanswered {s : State} {left : List Answer} (h : s.Ready) (ha : s.Unanswered left) :
    exec (.rdhdr 0) s =
      .next { s.waitingAt (.rdhdr 0) (.rdhdr .marker [] 0 []) (.inRead 1) left with
        tree := none, code := none, status := { s.status.withoutTree with busy := true } } := by
  have hwait : engineStep (.rdhdr .marker [] 0 []) (accept (.rdhdr 0) s).dropTree =
      .wait (.rdhdr .marker [] 0 []) ((accept (.rdhdr 0) s).dropTree.asked (.inRead 1) left) := by
    simp only [engineStep, rdhdrStep, inRead_unanswered (s := (accept (.rdhdr 0) s).dropTree) 1 ha]
  rw [exec_runs (.inl h.2) rfl, bodyOf, rdhdrStart, finish_waits hwait]
  obtain ⟨⟨-, hlatch, -, hcall⟩, -⟩ := h
  congr 1
  ext1 <;> simp [suspend, State.asked, State.issue, State.waitingAt, accept, State.dropTree, State.setValid,
    Status.withoutTree, hlatch, hcall]

/-- Settles O49. -/
theorem unansweredCallHoldsTheBlock : Obligations.UnansweredCallHoldsTheBlock := by
  refine ⟨fun s h hr hb => ⟨fun ha => step_unanswered h hr hb (.inr ⟨ha, rfl⟩),
    fun ha => step_unanswered h hr hb (.inl ⟨ha, rfl⟩)⟩, fun s left h ha => ⟨fun table hv hcode => ?_, ?_,
    exec_rdhdr_unanswered h ha, fun t hv ht => ⟨fun x w hleaf => ?_, fun l r w hnode => ⟨?_, ?_⟩⟩⟩⟩
  · refine exec_unanswered h rfl (by simp [bodyOf, encodeStart, accept, hv]) ?_
    simp only [engineStep, encodeStep, encodeFetch, show (accept (.encode 0) s).code = some table from hcode,
      inRead_unanswered (s := accept (.encode 0) s) 8 ha]
  · refine exec_unanswered h rfl rfl ?_
    simp only [engineStep, flushStep, outFlush, callCollab_unanswered (s := accept (.flush 0) s) _ ha]
  · subst hleaf
    refine exec_unanswered h rfl (by simp [bodyOf, wrhdrStart, accept, hv, ht]) ?_
    simp only [engineStep, wrhdrStep, wrhdrWrite,
      outWrite_unanswered (s := accept (.wrhdr 0) s) (n := 1) 1 (by decide) ha]
  · subst hnode
    refine exec_unanswered h rfl (by simp [bodyOf, wrhdrStart, accept, hv, ht]) ?_
    simp only [engineStep, wrhdrStep, wrhdrWrite,
      outWrite_unanswered (s := accept (.wrhdr 0) s) (n := 1) 0 (by decide) ha]
  · subst hnode
    refine exec_unanswered h rfl (by simp [bodyOf, decodeStart, accept, hv, ht]) ?_
    simp only [engineStep, decodeStep, show (accept (.decode 0) s).tree = _ from ht, decodeNode,
      inRead_unanswered (s := accept (.decode 0) s) 1 ha]

/-! ### A call that is answered late -/

/-- The block runs the command in its latch, from a piece of work that it has in hand. -/
def State.Underway (l : Latch) (s : State) : Prop :=
  s.work = none ∧ s.status.busy = true ∧ s.latch = some l

/-- A command that goes on or waits is the one in the latch. -/
def Progress.Underway (l : Latch) : Progress → Prop
  | .more _ s => s.Underway l
  | .wait _ s => s.Underway l
  | .done _ => True
  | .raised _ _ _ _ => True
  | .stuck _ => True

theorem WorkFrame.underway {op : BitVec 4} {l : Latch} {s t : State} (hf : WorkFrame op s t) (h : s.Underway l) :
    t.Underway l := by
  rw [hf.others]; exact h

theorem engineStep_underway {l : Latch} {w : Work} {s : State} (h : s.Underway l) :
    (engineStep w s).Underway l := by
  have hframe := (engineStep_frame w s).1
  cases hp : engineStep w s with
  | more w' t => rw [hp] at hframe; exact WorkFrame.underway hframe h
  | wait w' t => rw [hp] at hframe; exact WorkFrame.underway hframe h
  | done t => trivial
  | raised e sub sym t => trivial
  | stuck f => trivial

theorem Steps.underway {l : Latch} {k : Nat} {p q : Progress} (h : Steps k p q) (hp : p.Underway l) :
    q.Underway l := by
  induction h with
  | refl => exact hp
  | step _ ih => exact ih (engineStep_underway hp)

theorem Progress.Underway.setAnswers {l : Latch} {p : Progress} (h : p.Underway l) (as : List Answer) :
    (p.map (·.setAnswers as)).Underway l := by
  cases p <;> exact h

/-- The answers still to come are nothing to the end of a command or to its wait. -/
theorem Ended.setAnswers {op : BitVec 4} {r : Progress} {as : List Answer} {t : State}
    (h : Ended op (r.map (·.setAnswers as)) t) (bs : List Answer) :
    t.answers = as ∧ Ended op (r.map (·.setAnswers bs)) (t.setAnswers bs) := by
  cases r with
  | more w s => cases h
  | stuck f => cases h
  | wait w s => cases h; exact ⟨rfl, .wait w (s.setAnswers bs)⟩
  | done s => cases h; exact ⟨rfl, .done (s.setAnswers bs)⟩
  | raised e sub sym s => cases h; exact ⟨rfl, .raised e sub sym (s.setAnswers bs)⟩

/-- Neither are the levels of the reset input and the counter of waits. -/
theorem Ended.waitedOnce {op : BitVec 4} {q : Progress} {t : State} (h : Ended op q t)
    (pin : List ResetLevel → List ResetLevel) :
    Ended op (q.map (State.aside id pin (· + 1))) (t.aside id pin (· + 1)) := by
  cases h with
  | done s => exact .done (s.aside id pin (· + 1))
  | raised e sub sym s => exact .raised e sub sym (s.aside id pin (· + 1))
  | wait w s => exact .wait w (s.aside id pin (· + 1))

/-- A run to its end with one more `later` among the answers: it ends in the same way with that answer still to
come, or it waits at it, and taken up again ends as the run without it. -/
theorem finish_late {op : BitVec 4} {p₀ : Progress} {before after : List Answer} {t v : State}
    (hb : AtOnce before) (ht : finish op (p₀.map (·.setAnswers (before ++ after))) = .next t)
    (hv : finish op (p₀.map (·.setAnswers (before ++ .later :: after))) = .next v) :
    (∃ rest, t.answers = rest ++ after ∧ v = { t with answers := rest ++ .later :: after }) ∨
    ∃ j i w y q c, Steps j (p₀.map (·.setAnswers (before ++ .later :: after))) (.wait w y) ∧
      Steps i (.more w y) q ∧ Ended op q t ∧ v = suspend w y ∧ y.answers = after ∧ y.outstanding = some c := by
  obtain ⟨k, q, hsteps, hend⟩ := finish_next ht
  obtain ⟨k', q', hsteps', hend'⟩ := finish_next hv
  rcases hsteps.late hend rfl hb with ⟨rest, r, rfl, hlate⟩ | ⟨j, i, w, y, c, hwait, hresumed, hanswers, hcall⟩
  · obtain ⟨hanswers, hend''⟩ := hend.setAnswers (rest ++ .later :: after)
    exact .inl ⟨rest, hanswers, hsteps'.unique hend' hlate hend''⟩
  · exact .inr ⟨j, i, w, y, q, c, hwait, hresumed, hend, hsteps'.unique hend' hwait (.wait w y), hanswers, hcall⟩

/-- The step after a wait: the command goes on to the end it would have come to at once, one wait later. -/
theorem step_of_suspended {op : BitVec 4} {i : Nat} {w : Work} {y t : State} {q : Progress} {l : Latch}
    (hi : (suspend w y).Inv) (hr : (suspend w y).resetAsserted = false) (hy : y.Underway l)
    (hop : cmdOpc l.cmd = op) (h : Steps i (.more w y) q) (he : Ended op q t) :
    step (suspend w y) = .next { t with resetPin := t.resetPin.tail, waits := t.waits + 1 } := by
  obtain ⟨hwork, hbusy, hlatch⟩ := hy
  have hfrom : (suspend w y).nextPin.setWork none = y.aside id List.tail (· + 1) := by
    ext1 <;> simp [suspend, State.nextPin, State.aside, hwork]
  have hstep : step (suspend w y) = finish op (.more w (y.aside id List.tail (· + 1))) := by
    rw [step_of_busy hr hbusy, ← hfrom, ← hop]
    exact resume_runs rfl hlatch
  obtain ⟨u, hu, -⟩ := step_inv hi
  obtain ⟨k, r, hsteps, hend⟩ := finish_next (hstep.symm.trans hu)
  rw [hu, hsteps.unique hend (h.aside id List.tail (· + 1)) (he.waitedOnce List.tail)]
  rfl

/-- One step with a `later` more among the answers, where the step runs a command from `p₀`. -/
theorem step_late {s t : State} {op : BitVec 4} {l : Latch} {p₀ : Progress} {before after : List Answer}
    (h : s.Inv) (hrun : ∀ as, step (s.setAnswers as) = finish op (p₀.map (·.setAnswers as)))
    (hp : p₀.Underway l) (hop : cmdOpc l.cmd = op) (hb : AtOnce before)
    (ht : step (s.setAnswers (before ++ after)) = .next t) :
    ∃ u, step (s.setAnswers (before ++ .later :: after)) = .next u ∧
      ((∃ rest, t.answers = rest ++ after ∧ u = { t with answers := rest ++ .later :: after }) ∨
        (u.status.busy = true ∧ u.outstanding.isSome = true ∧ u.answers = after ∧ u.resetPin = t.resetPin ∧
          (u.resetAsserted = false →
            step u = .next { t with resetPin := t.resetPin.tail, waits := t.waits + 1 }))) := by
  obtain ⟨u, hu, hinv⟩ := step_inv (h.withAnswers (before ++ .later :: after))
  refine ⟨u, hu, ?_⟩
  rw [hrun] at ht hu
  rcases finish_late hb ht hu with hsame | ⟨j, i, w, y, q, c, hwait, hresumed, hend, rfl, hanswers, hcall⟩
  · exact .inl hsame
  · have hy : y.Underway l := hwait.underway (hp.setAnswers _)
    obtain ⟨v, hv, -, hpin⟩ := hend.ports
    obtain ⟨-, -, -, hpin'⟩ := hresumed.untouched rfl hv
    have hout : (suspend w y).outstanding = some c := hcall
    exact .inr ⟨hy.2.1, by rw [hout]; rfl, hanswers, (hpin.trans hpin').symm,
      fun hr => step_of_suspended hinv hr hy hop hresumed hend⟩

/-- A command's acceptance and prologue do not depend on the answers still to come. -/
theorem prologue_setAnswers (i : Instr) (s : State) (as : List Answer) :
    prologue i (bodyOf i) (s.setAnswers as) = (prologue i (bodyOf i) s).map (·.setAnswers as) := by
  unfold prologue
  rw [setAnswers_status]
  by_cases hrejected : s.status.err ≠ 0 ∧ neverRejected i = false
  · rw [if_pos hrejected, if_pos hrejected]; rfl
  · rw [if_neg hrejected, if_neg hrejected]
    cases illegalCause i with
    | some c => rfl
    | none => exact bodyOf_map (.setAnswers as) (.inl fun _ => rfl) (accept i s)

/-- A command that is accepted and goes on is the one that was latched. -/
theorem prologue_underway {i : Instr} {s : State} {l : Latch} (hw : s.work = none) (hl : s.latch = some l) :
    (prologue i (bodyOf i) s).Underway l := by
  have haccept : (accept i s).Underway l := ⟨hw, rfl, by simp [accept, hl]⟩
  unfold prologue
  split
  · trivial
  · split
    · trivial
    · by_cases hi : i.opcode ∈ [0x4, 0x5, 0x6, 0x7, 0x8, 0x9, 0xA]
      · have hframe := (bodyOf_within (accept i s) hi).1
        cases hp : bodyOf i (accept i s) with
        | more w' t => rw [hp] at hframe; exact WorkFrame.underway hframe haccept
        | wait w' t => rw [hp] at hframe; exact WorkFrame.underway hframe haccept
        | done t => trivial
        | raised e sub sym t => trivial
        | stuck f => trivial
      · cases i <;> simp [Instr.opcode] at hi
        case rdcode =>
          simp only [bodyOf, rdcodeStart]
          repeat' split
          all_goals trivial
        all_goals trivial

/-- Settles O50: the `later` meets a command that goes on, a command that is accepted, or a move of the host at the
streams, which asks for no answer. -/
theorem busyBlockGoesOnWithItsCommand : Obligations.BusyBlockGoesOnWithItsCommand := by
  refine ⟨fun s w l hr hb hw hl => ?_, fun s t before after h hr hbefore ht => ?_⟩
  · rw [step_of_busy hr hb]
    exact resume_runs (s := s.nextPin) hw hl
  cases hb : s.status.busy with
  | true =>
    obtain ⟨-, w, l, c, hw, hl, -⟩ := h.running hb
    refine step_late (p₀ := .more w (s.nextPin.setWork none)) (l := l) h (fun as => ?_) ⟨rfl, hb, hl⟩ rfl hbefore ht
    rw [step_of_busy (s := s.setAnswers as) hr hb]
    exact resume_runs (s := (s.setAnswers as).nextPin) hw hl
  | false =>
    rcases s.offer_cases with hoffer | ⟨cmd, data, moves, hp⟩
    · obtain ⟨inp, pos, out, moves, hmove⟩ := hostMove_noOffer (s := s.nextPin) hoffer
      have hstep : ∀ as, step (s.setAnswers as) = hostMove (s.nextPin.setAnswers as) :=
        fun as => step_of_idle (s := s.setAnswers as) hr hb
      cases ht.symm.trans ((hstep _).trans (hmove _))
      exact ⟨_, (hstep _).trans (hmove _), .inl ⟨before, rfl, rfl⟩⟩
    · obtain ⟨-, hw, -⟩ := h.idle hb
      refine step_late (p₀ := prologue (decode cmd data) (bodyOf (decode cmd data))
        ((s.nextPin.setPort moves).latchCommand cmd data)) h (fun as => ?_) (prologue_underway hw rfl)
        (decode_opcode cmd data).symm hbefore ht
      rw [step_of_idle (s := s.setAnswers as) hr hb, hostMove_offer (s := (s.setAnswers as).nextPin) hp,
        exec_eq_command, command, ← prologue_setAnswers]
      rfl

end Sys2Proof.Machine
end

section
/-! PROOFS. The table commands (spec/40_control.md rules R69 to R72), the reserved opcodes (spec/30_encoding.md rule
R58), the commands that fail their precondition (spec/60_exceptions.md rule R122), and FLUSH
(spec/44_body_encoder.md rule R105). -/

namespace Sys2Proof.Machine

/-! ### FREQ and RESULT -/

/-- A command that writes FREQ and nothing else. -/
theorem exec_setFreq {i : Instr} {s : State} {freq : Table Nat 256} (h : s.Ready) (hc : illegalCause i = none)
    (hb : bodyOf i (accept i s) = .done ((accept i s).setFreq freq)) :
    exec i s = .next { s with freq := freq } := by
  have hend : endCommand ((accept i s).setFreq freq) = (endCommand (accept i s)).setFreq freq := rfl
  rw [exec_done (.inl h.2) hc hb (.refl _) (Nat.zero_le _), hend, endCommand_accept h.1]
  rfl

/-- A command that writes RESULT and nothing else. -/
theorem exec_setResult {i : Instr} {s : State} {result : Result} (h : s.Ready) (hc : illegalCause i = none)
    (hb : bodyOf i (accept i s) = .done ((accept i s).setResult result)) :
    exec i s = .next { s with result := result } := by
  have hend : endCommand ((accept i s).setResult result) = (endCommand (accept i s)).setResult result := rfl
  rw [exec_done (.inl h.2) hc hb (.refl _) (Nat.zero_le _), hend, endCommand_accept h.1]
  rfl

/-- Settles O2. -/
theorem clrfreqZeroesEveryCount : Obligations.ClrfreqZeroesEveryCount := fun _ hs =>
  ⟨Table.fill 256 0, exec_setFreq hs rfl rfl, Table.get_fill 0⟩

/-- Settles O3: the entry written holds DATA's W_COUNT low bits (R62), the others what they held. -/
theorem ldfreqWritesOneCount : Obligations.LdfreqWritesOneCount := by
  intro sym data s hsym hs
  have hlegal : illegalCause (.ldfreq 0 sym data) = none := checkSym_eq_none.mpr ⟨rfl, by omega⟩
  have hset : ∀ w, setFreqAt s.freq sym.toNat w = s.freq.set ⟨sym.toNat, hsym⟩ w := fun w => dif_pos hsym
  refine ⟨_, exec_setFreq hs hlegal rfl, ?_, fun b hb => ?_⟩
  · show (setFreqAt s.freq sym.toNat _).get _ = _
    rw [hset, Table.get_set, if_pos rfl]; rfl
  · show (setFreqAt s.freq sym.toNat _).get _ = _
    rw [hset, Table.get_set, if_neg fun h => hb (congrArg Fin.val h).symm]

/-- Settles O4: FREQ[256] is the constant 1 (R23). -/
theorem rdfreqReadsOneCount : Obligations.RdfreqReadsOneCount := by
  refine ⟨fun sym s hsym hs => ?_, fun s hs => exec_setResult hs rfl rfl⟩
  have hlegal : illegalCause (.rdfreq 0 sym) = none := checkSym_eq_none.mpr ⟨rfl, by omega⟩
  have hread : freqOf s.freq sym.toNat = s.freq.get ⟨sym.toNat, hsym⟩ := dif_pos hsym
  rw [← hread]
  exact exec_setResult hs hlegal rfl

/-- RDCODE with codes writes what the entry of SYM says (R72). -/
theorem exec_rdcode {s : State} {sym : BitVec 9} {table : Table (Option Bits) 257} (hsym : sym.toNat < 257)
    (hs : s.Ready) (hv : s.status.codesValid = true) (hc : s.code = some table) :
    exec (.rdcode 0 sym) s = .next { s with
      result := { s.result with
        present := codeP (table.get ⟨sym.toNat, hsym⟩)
        len := codeLen (table.get ⟨sym.toNat, hsym⟩)
        bits := codeBits (table.get ⟨sym.toNat, hsym⟩) } } := by
  have hlegal : illegalCause (.rdcode 0 sym) = none := checkSym_eq_none.mpr ⟨rfl, by omega⟩
  have hread : codeAt table sym.toNat = table.get ⟨sym.toNat, hsym⟩ := dif_pos hsym
  refine exec_setResult hs hlegal ?_
  simp [bodyOf, rdcodeStart, accept, hv, hc, hread]

/-- Settles O5. -/
theorem rdcodeReadsOneEntry : Obligations.RdcodeReadsOneEntry := by
  refine ⟨fun sym s table hsym hs hv hc => ⟨fun c hentry => ?_, fun hentry => ?_⟩, fun sym s hsym hs hv => ?_⟩
  · rw [exec_rdcode hsym hs hv hc, hentry]; rfl
  · rw [exec_rdcode hsym hs hv hc, hentry]; rfl
  · have hlegal : illegalCause (.rdcode 0 sym) = none := checkSym_eq_none.mpr ⟨rfl, by omega⟩
    exact exec_raised (i := .rdcode 0 sym) hs hlegal (by simp [bodyOf, rdcodeStart, accept, hv])

/-! ### Commands that end with an error -/

/-- Settles O8. -/
theorem reservedOpcodesAreIllegal : Obligations.ReservedOpcodesAreIllegal := fun low _ hs =>
  ⟨exec_illegal (i := .reservedC low) hs rfl, exec_illegal (i := .reservedD low) hs rfl⟩

/-- Settles O13: each of them looks at its valid bit before it does anything else. -/
theorem sequenceErrorsChangeNothingElse : Obligations.SequenceErrorsChangeNothingElse := by
  refine ⟨fun s hs hv i hi => ?_, fun s hs hv => ?_⟩
  · simp only [List.mem_cons, List.not_mem_nil, or_false] at hi
    rcases hi with rfl | rfl | rfl
    · exact exec_raised hs rfl (by simp [bodyOf, gencodesStart, accept, hv])
    · exact exec_raised hs rfl (by simp [bodyOf, wrhdrStart, accept, hv])
    · exact exec_raised hs rfl (by simp [bodyOf, decodeStart, accept, hv])
  · exact exec_raised (i := .encode 0) hs rfl (by simp [bodyOf, encodeStart, accept, hv])

/-- Settles O16: BUILD clears the valid bits before its range check (R78, R80). -/
theorem buildOverflowLeavesNoTree : Obligations.BuildOverflowLeavesNoTree := by
  intro s hs hoverflow
  have hbody : bodyOf (.build 0) (accept (.build 0) s) =
      .raised .countOverflow 0 0 (accept (.build 0) s).dropTree := if_pos hoverflow
  rw [exec_runs (.inl hs.2) rfl, hbody, finish, runEngine_raised, raiseError_dropTree hs.1]
  rfl

/-! ### FLUSH -/

/-- A FLUSH whose call fails: OUT is the collaborator's (R45, R122). -/
theorem exec_flush_fail {s : State} {k : Nat} {left : Bits} (hs : s.Ready) (ha : s.nextAnswer = .fail k left) :
    exec (.flush 0) s = .next { s.streamed 0 [] [.outFlush] with
      out := left, status := s.status.afterError 0x8 .ioFailure 3 0 } := by
  have hfail := outFlush_fail (s := accept (.flush 0) s) ha (hs.outstanding_accept _)
  have hflush : engineStep .flush (accept (.flush 0) s) =
      .raised .ioFailure 3 0 { (accept (.flush 0) s).streamed 0 [] [.outFlush] with out := left } := by
    simp only [engineStep, flushStep, hfail]
  have hraise := raiseError_streamed hs.1 (.flush 0) 0 [] [.outFlush] 0x8 .ioFailure 3 0
  rw [exec_runs (.inl hs.2) rfl, show bodyOf (.flush 0) _ = .more .flush _ from rfl,
    finish_raised (.one hflush) (Nat.le_refl 1)]
  exact congrArg (fun t => Host.Outcome.next (t.setOut left)) hraise

/-- Settles O35. -/
theorem flushAsksForThePadding : Obligations.FlushAsksForThePadding := by
  intro s hs
  refine ⟨exec_flush_ok hs, fun ha => ?_, fun k left => exec_flush_fail hs⟩
  refine ⟨(8 - s.out.length % 8) % 8, Nat.mod_lt _ (by decide), ?_, ?_⟩
  · rw [ha]; rfl
  · omega

end Sys2Proof.Machine
end

section
/-! PROOFS. The Tree Builder (spec/41_tree_builder.md rules R79 to R85) and the properties of the codes of a tree
(spec/42_code_table.md rule R91). -/

namespace Sys2Proof.Machine

/-! ### BUILD -/

/-- Settles O14: by induction on the collection; with a tie on both parts of the key an entry may stay. -/
theorem removeMinTakesTheLeastKey : Obligations.RemoveMinTakesTheLeastKey := by
  intro pq
  induction pq with
  | nil => nofun
  | cons a pq ih =>
    intro e others h
    refine ⟨removeMin_perm h, ?_⟩
    simp only [removeMin] at h
    split at h
    · cases h; simp
    · rename_i m rest hm
      obtain ⟨hperm, hleast⟩ := ih m rest hm
      split at h <;> rename_i hkey <;> cases h <;> simp [keyLt] at hkey <;> intro x hx
      · rcases List.mem_cons.mp hx with rfl | hx
        · omega
        · exact hleast x hx
      · rcases List.mem_cons.mp (hperm.mem_iff.mp hx) with rfl | hx
        · omega
        · have := hleast x hx
          omega

/-- Settles O15. BUILD's loop from the initial entries makes the merges of R82 and keeps PQ's leaves. -/
theorem buildMakesTheTreeOfFreq : Obligations.BuildMakesTheTreeOfFreq := by
  intro freq
  have hlength : (initialPq freq).length = ((initialPq freq).length - 1) + 1 := by
    have := List.length_pos_iff.mpr (initialPq_ne_nil freq)
    omega
  obtain ⟨t, hsteps, hleaves, hadds⟩ := build_steps _ 257 hlength (initialPq_adds freq)
  obtain ⟨hseq, hbelow⟩ := initialPq_seq freq
  have hmem : ∀ x, x ∈ t.weightedLeaves ↔ x = (eofSym, 1) ∨ ∃ b, x = (byteSym b, freq.get b) ∧ 0 < freq.get b :=
    fun x => hleaves.mem_iff.trans (mem_initialPq freq x)
  obtain ⟨⟨hnodup, heof⟩, hbytes⟩ := leaves_of_initialPq hleaves
  refine ⟨t, ⟨initialPq freq, hseq.of_map, mem_initialPq_entry freq, build_merges _ hseq hbelow (hsteps State.reset)⟩,
    fun s hs hfreq hw => ?_, hnodup, heof, hbytes, t.internalCount_succ, t.leafCount_eq, fun b w hw => ?_,
    fun w hw => ?_, hadds, ?_⟩
  · have hbody : bodyOf (.build 0) (accept (.build 0) s) =
        .more (.build (initialPq freq) 257) (accept (.build 0) s).dropTree := by
      subst hfreq
      exact if_neg (Nat.not_lt.mpr hw)
    rw [exec_done (.inl hs.2) rfl hbody (hsteps _) (by simp only [Progress.bound, workBound]; omega),
      endCommand_holdTree hs.1]
  · rcases (hmem _).mp hw with h | ⟨c, h, -⟩
    · exact absurd (congrArg Prod.fst h) (byteSym_ne_eofSym b)
    · obtain rfl : b = c := Fin.castSucc_injective _ (congrArg Prod.fst h)
      exact congrArg Prod.snd h
  · rcases (hmem _).mp hw with h | ⟨c, h, -⟩
    · exact congrArg Prod.snd h
    · exact absurd (congrArg Prod.fst h).symm (byteSym_ne_eofSym c)
  · rw [HuffTree.weight_eq_sum hadds, (hleaves.map Prod.snd).sum_eq, initialPq_leaves, List.map_append,
      List.sum_append, byteEntries_sum, Nat.add_comm]
    rfl

/-- With one entry there is no merge (R83). -/
theorem Merges.of_one {pq : List PqEntry} {n : Nat} {t : HuffTree} {e : PqEntry} (h : Merges pq n t)
    (hp : pq.Perm [e]) : t = e.tree := by
  cases h with
  | last e' n => rw [List.singleton_perm_singleton.mp hp]
  | merge entries => have := (entries.symm.trans hp).length_eq; simp at this

/-- Two entries are merged once, the least of them to the left (R82). -/
theorem Merges.of_two {pq : List PqEntry} {n : Nat} {t : HuffTree} {e f : PqEntry} (h : Merges pq n t)
    (hp : pq.Perm [e, f]) (hef : e.Before f) :
    t = .node e.tree f.tree (e.tree.weight + f.tree.weight) := by
  cases h with
  | last e' n => have := hp.length_eq; simp at this
  | @merge _ rest a b _ _ entries first _ others =>
    have hperm := entries.symm.trans hp
    obtain rfl : rest = [] := List.length_eq_zero_iff.mp (by have := hperm.length_eq; simpa using this)
    have hab : a.Before b := first b (by simp)
    have hcases : (a = e ∧ b = f) ∨ (a = f ∧ b = e) := by
      rcases List.mem_cons.mp (hperm.mem_iff.mp List.mem_cons_self) with rfl | ha
      · exact .inl ⟨rfl, List.singleton_perm_singleton.mp (List.perm_cons _ |>.mp hperm)⟩
      · obtain rfl := List.mem_singleton.mp ha
        exact .inr ⟨rfl, List.singleton_perm_singleton.mp
          (List.perm_cons _ |>.mp (hperm.trans (List.Perm.swap _ _ _)))⟩
    rcases hcases with ⟨rfl, rfl⟩ | ⟨rfl, rfl⟩
    · exact others.of_one (List.Perm.refl _)
    · simp only [PqEntry.Before] at hab hef
      omega

/-- Settles O17: with one or two initial entries the keys decide the whole tree. -/
theorem buildEdgeCases : Obligations.BuildEdgeCases := by
  intro s hs hw
  obtain ⟨t, ⟨pq, hnodup, hentries, hmerges⟩, hexec, -⟩ := buildMakesTheTreeOfFreq s.freq
  have hexec := hexec s hs rfl hw
  refine ⟨fun hzero => ?_, fun x c hx hothers => ?_⟩
  · have hpq : pq.Perm [{ weight := 1, seq := 256, tree := .leaf eofSym 1 }] := by
      rw [List.perm_ext_iff_of_nodup hnodup (List.nodup_singleton _)]
      intro e
      simp [hentries, hzero]
    rw [hexec, hmerges.of_one hpq]
  · have hbytes : ∀ b, 0 < s.freq.get b ↔ b = x ∧ 0 < c := fun b => by
      by_cases hb : b = x
      · simp [hb, hx]
      · simp [hb, hothers b hb]
    have hpq : 0 < c → pq.Perm [{ weight := 1, seq := 256, tree := .leaf eofSym 1 },
        { weight := c, seq := x.val, tree := .leaf (byteSym x) c }] := by
      intro hc
      rw [List.perm_ext_iff_of_nodup hnodup (by simp [byteSym, eofSym]; omega)]
      intro e
      simp [hentries, hbytes, hc, hx]
    have hne := byteSym_ne_eofSym x
    refine ⟨fun hc => ⟨?_, by simp [HuffTree.codeOf], by simp [HuffTree.codeOf, hne.symm]⟩,
      fun hc => ⟨?_, by simp [HuffTree.codeOf], by simp [HuffTree.codeOf, hne]⟩⟩
    · rw [hexec, hmerges.of_two (hpq (by omega)) (.inl hc), Nat.add_comm c]
      rfl
    · subst hc
      rw [hexec, hmerges.of_two ((hpq (by omega)).trans (List.Perm.swap _ _ _)) (.inr ⟨rfl, x.isLt⟩)]
      rfl

/-! ### Codes -/

/-- Settles O19: the path to a leaf does not go on. -/
theorem codesArePrefixFree : Obligations.CodesArePrefixFree := by
  rintro s table x y p q hinv hc hx hy hxy ⟨r, rfl⟩
  obtain ⟨t, -, htable⟩ := hinv.codesOfTree table hc
  obtain ⟨v, hleafx⟩ := HuffTree.at?_codeOf ((htable x).symm.trans hx)
  obtain ⟨w, hleafy⟩ := HuffTree.at?_codeOf ((htable y).symm.trans hy)
  rw [HuffTree.at?_append, hleafx, Option.bind_some] at hleafy
  cases r with
  | nil => rw [HuffTree.at?_nil] at hleafy; cases hleafy; exact hxy rfl
  | cons => cases hleafy

theorem HuffTree.codeOf_node_left {l : HuffTree} {x : Sym} (r : HuffTree) (w : Nat) (h : x ∈ l.leaves) :
    ((HuffTree.node l r w).codeOf x).getD [] = false :: (l.codeOf x).getD [] := by
  obtain ⟨p, hp⟩ := codeOf_some h
  simp [codeOf, hp]

theorem HuffTree.codeOf_node_right {l r : HuffTree} {x : Sym} (w : Nat) (hl : x ∉ l.leaves) (hr : x ∈ r.leaves) :
    ((HuffTree.node l r w).codeOf x).getD [] = true :: (r.codeOf x).getD [] := by
  obtain ⟨p, hp⟩ := codeOf_some hr
  simp [codeOf, codeOf_none hl, hp]

/-- The Kraft sum of a tree: each child's, halved (R91 item 4). -/
theorem HuffTree.kraft_sum {t : HuffTree} (h : t.leaves.Nodup) :
    (t.leaves.map fun x => (1 / 2 : ℚ) ^ ((t.codeOf x).getD []).length).sum = 1 := by
  induction t with
  | leaf s w => simp [leaves, codeOf]
  | node l r w hl hr =>
    simp only [leaves, List.nodup_append] at h
    obtain ⟨hnl, hnr, hdisjoint⟩ := h
    have hleft : ∀ x ∈ l.leaves, (1 / 2 : ℚ) ^ (((HuffTree.node l r w).codeOf x).getD []).length =
        1 / 2 * (1 / 2 : ℚ) ^ ((l.codeOf x).getD []).length := fun x hx => by
      rw [codeOf_node_left r w hx, List.length_cons, pow_succ']
    have hright : ∀ x ∈ r.leaves, (1 / 2 : ℚ) ^ (((HuffTree.node l r w).codeOf x).getD []).length =
        1 / 2 * (1 / 2 : ℚ) ^ ((r.codeOf x).getD []).length := fun x hx => by
      rw [codeOf_node_right w (fun h => hdisjoint x h x hx rfl) hx, List.length_cons, pow_succ']
    rw [leaves, List.map_append, List.sum_append, List.map_congr_left hleft, List.map_congr_left hright,
      List.sum_map_mul_left, List.sum_map_mul_left, hl hnl, hr hnr]
    norm_num

/-- Settles O20. -/
theorem codesAreComplete : Obligations.CodesAreComplete := by
  intro t hnodup
  refine ⟨HuffTree.kraft_sum hnodup, fun hcount => ?_, fun x => (t.codeOf_isSome x).symm⟩
  cases t with
  | leaf => simp [HuffTree.leafCount] at hcount
  | node l r w => exact HuffTree.codeOf_ne_nil_of_node (HuffTree.at?_nil _)

end Sys2Proof.Machine
end

section
/-! PROOFS. The commands WRHDR (spec/43_header_codec.md rules R93, R94), ENCODE (spec/44_body_encoder.md rules R102,
R106) and DECODE (spec/45_body_decoder.md rules R112, R117). -/

namespace Sys2Proof.Machine

/-! ### Runs of a command -/

/-- What holds at the beginning of a run and is kept by every piece of work holds at its end. -/
theorem Steps.preserves {P : Progress → Prop} (hstep : ∀ w s, P (.more w s) → P (engineStep w s)) {k : Nat}
    {p q : Progress} (h : Steps k p q) (hp : P p) : P q := by
  induction h with
  | refl => exact hp
  | step _ ih => exact ih (hstep _ _ hp)

/-- A stream command of a ready block that answers a next state came to its end, or to a wait, within its frame. -/
theorem exec_ends {i : Instr} {s u : State} (h : s.Ready) (hc : illegalCause i = none)
    (hi : i.opcode ∈ [0x4, 0x5, 0x6, 0x7, 0x8, 0x9, 0xA]) (hu : exec i s = .next u) :
    ∃ k q, Steps k (bodyOf i (accept i s)) q ∧ q.Within i.opcode (accept i s) ∧ Ended i.opcode q u := by
  rw [exec_runs (.inl h.2) hc] at hu
  obtain ⟨k, q, hsteps, hend⟩ := finish_next hu
  exact ⟨k, q, hsteps, hsteps.within (bodyOf_within _ hi), hend⟩

/-- A command that writes neither TREE nor CODE leaves STATUS as its beginning did. -/
theorem WorkFrame.status_eq {op : BitVec 4} {s t : State} (h : WorkFrame op s t) (ho : op ∉ [0x4, 0x5, 0x9]) :
    t.status = s.status := by
  have htree := (h.tree fun hm => ho (by simp only [List.mem_cons, List.not_mem_nil, or_false] at hm ⊢; tauto)).2
  have hcode := (h.code ho).2
  rw [h.others, htree, hcode]

/-- STATUS at the end of a command that wrote neither TREE nor CODE. -/
theorem endCommand_status {i : Instr} {s t : State} (h : s.Idle) (ht : t.status = (accept i s).status) :
    (endCommand t).status = s.status := by
  have haccept := congrArg State.status (endCommand_accept h i)
  simpa only [endCommand, setLatch_status, setStatus_status, ht] using haccept

theorem raiseError_status {i : Instr} {s t : State} (h : s.Idle) (ht : t.status = (accept i s).status)
    (op : BitVec 4) (e : ErrKind) (sub : BitVec 3) (sym : BitVec 9) :
    (raiseError op e sub sym t).status = s.status.afterError op e sub sym := by
  have haccept := congrArg State.status (raiseError_accept h i op e sub sym)
  simpa only [raiseError, endCommand, setLatch_status, setStatus_status, ht] using haccept

/-! ### WRHDR -/

/-- A leaf has one 1-bit call, and so has an internal node (R94). -/
theorem HuffTree.hdrCalls_oneBit (t : HuffTree) :
    (t.hdrCalls.filter fun c => c = .outWrite 1 0 ∨ c = .outWrite 1 1).length + 1 = 2 * t.leafCount := by
  induction t with
  | leaf s w => simp [hdrCalls, leafCount]
  | node l r w hl hr => simp [hdrCalls, leafCount] at hl hr ⊢; omega

/-- A leaf has one 9-bit call (R94). -/
theorem HuffTree.hdrCalls_nineBit (t : HuffTree) :
    (t.hdrCalls.filter fun c => ∃ x : Sym, c = .outWrite 9 x.val).length = t.leafCount := by
  induction t with
  | leaf s w => simp [hdrCalls, leafCount]
  | node l r w hl hr => simp [hdrCalls, leafCount] at hl hr ⊢; omega

theorem HuffTree.hdrCalls_length_succ (t : HuffTree) : t.hdrCalls.length + 1 = 3 * t.leafCount := by
  induction t with
  | leaf s w => simp [hdrCalls, leafCount]
  | node l r w hl hr => simp only [hdrCalls, leafCount, List.length_cons, List.length_append]; omega

/-- Settles O24. -/
theorem wrhdrAppendsTheHeader : Obligations.WrhdrAppendsTheHeader := by
  intro s t hs hp hv ht
  have hone := t.hdrCalls_oneBit
  have hall := t.hdrCalls_length_succ
  have hbits := t.hdr_length_succ
  exact ⟨exec_wrhdr_prompt hs hp hv ht, by omega, t.hdrCalls_nineBit, by omega, by omega, t.strip_hdr⟩

/-- The bits WRHDR has still to write. -/
def bitsToWrite (stack : List HdrItem) : Bits := (stack.flatMap HdrItem.calls).flatMap Call.bits

/-- WRHDR on its way, `goal` being what OUT will hold at its end: OUT and what is still to be written are together
`goal`; a failed write left a first part of it. -/
def WrhdrAt (goal : Bits) : Progress → Prop
  | .more w t => ∃ stack, w = .wrhdr stack ∧ t.out ++ bitsToWrite stack = goal
  | .wait _ t => t.out <+: goal
  | .done t => t.out = goal
  | .raised e sub sym t => e = .ioFailure ∧ sub = 2 ∧ sym = 0 ∧ t.out <+: goal
  | .stuck _ => True

/-- Whatever the collaborator answers (R93, R122). -/
theorem engineStep_wrhdrAt {goal : Bits} (w : Work) (s : State) (h : WrhdrAt goal (.more w s)) :
    WrhdrAt goal (engineStep w s) := by
  obtain ⟨stack, rfl, hgoal⟩ := h
  cases hcalls : stack.flatMap HdrItem.calls with
  | nil =>
    obtain rfl := wrhdr_nothing_left hcalls
    rw [bitsToWrite, hcalls, List.flatMap_nil, List.append_nil] at hgoal
    exact hgoal
  | cons c more =>
    obtain ⟨n, v, after, rfl, hn, hafter, hstep⟩ := wrhdr_next hcalls
    have hsplit : s.out ++ (bin n v ++ bitsToWrite after) = goal := by
      rw [← hgoal, bitsToWrite, bitsToWrite, hcalls, hafter]; rfl
    rw [hstep, wrhdrWrite]
    rcases outWrite_cases n v s with ⟨h0, -⟩ | ⟨-, ⟨t, e, -, -, hout⟩ | ⟨t, k, e, -, -, hout⟩ | ⟨t, e, -, -, hout⟩⟩
    · exact absurd h0 hn
    all_goals rw [e]
    · exact ⟨after, rfl, by rw [hout, List.append_assoc, hsplit]⟩
    · refine ⟨rfl, rfl, rfl, ?_⟩
      rw [hout, ← hsplit]
      exact (List.prefix_append_right_inj _).mpr ((List.take_prefix k _).trans (List.prefix_append _ _))
    · show t.out <+: goal
      rw [hout, ← hsplit]
      exact List.prefix_append _ _

/-- Settles O25. -/
theorem wrhdrWritesAPrefixOnFailure : Obligations.WrhdrWritesAPrefixOnFailure := by
  intro s u t hs hv ht hu
  obtain ⟨k, q, hsteps, hwithin, hend⟩ := exec_ends hs rfl (by decide) hu
  have hbody : bodyOf (.wrhdr 0) (accept (.wrhdr 0) s) = .more (.wrhdr [.subtree t]) (accept (.wrhdr 0) s) := by
    simp [bodyOf, wrhdrStart, accept, hv, ht]
  have hat : WrhdrAt (s.out ++ t.hdr) q := by
    refine hsteps.preserves engineStep_wrhdrAt ?_
    rw [hbody]
    refine ⟨_, rfl, ?_⟩
    simp only [bitsToWrite, List.flatMap_cons, List.flatMap_nil, List.append_nil, HdrItem.calls, t.bits_hdrCalls]
    rfl
  -- OUT only grows, so a first part of the goal is OUT as it was and a first part of the header.
  have hout : ∀ v, WorkFrame 0x6 (accept (.wrhdr 0) s) v → v.out <+: s.out ++ t.hdr →
      ∃ x, x <+: t.hdr ∧ v.out = s.out ++ x := fun v hframe hprefix => by
    obtain ⟨x, hx⟩ := hframe.grows (by decide)
    rw [← hx] at hprefix ⊢
    exact ⟨x, (List.prefix_append_right_inj _).mp hprefix, rfl⟩
  cases hend with
  | done v =>
    have hframe : WorkFrame 0x6 (accept (.wrhdr 0) s) v := hwithin.1
    exact ⟨(hframe.tree (by decide)).1, (hframe.code (by decide)).1, hframe.inPos (by decide), t.hdr,
      List.prefix_rfl, hat, fun _ => .inl ⟨endCommand_status hs.1 (hframe.status_eq (by decide)), rfl⟩⟩
  | raised e sub sym v =>
    have hframe : WorkFrame 0x6 (accept (.wrhdr 0) s) v := hwithin.1
    obtain ⟨rfl, rfl, rfl, hprefix⟩ := hat
    obtain ⟨x, hx, hvout⟩ := hout v hframe hprefix
    exact ⟨(hframe.tree (by decide)).1, (hframe.code (by decide)).1, hframe.inPos (by decide), x, hx, hvout,
      fun _ => .inr (raiseError_status hs.1 (hframe.status_eq (by decide)) _ _ _ _)⟩
  | wait w v =>
    have hframe : WorkFrame 0x6 (accept (.wrhdr 0) s) v := hwithin.1
    obtain ⟨x, hx, hvout⟩ := hout v hframe hat
    refine ⟨(hframe.tree (by decide)).1, (hframe.code (by decide)).1, hframe.inPos (by decide), x, hx, hvout,
      fun hbusy => ?_⟩
    have hbusy' : v.status.busy = false := hbusy
    rw [hframe.status_eq (by decide)] at hbusy'
    cases hbusy'

/-! ### ENCODE -/

/-- Settles O33. -/
theorem encodeAppendsTheBody : Obligations.EncodeAppendsTheBody := by
  intro s t table bytes b tail hs hp hv hc htable hb hr htail
  refine ⟨_, rfl, exec_encode_prompt hs hp hv hc htable hb hr htail, ?_⟩
  have hbytes := encodeCalls_length_le t.codeOf bytes
  have heof := codeWrite_length_le ((t.codeOf eofSym).getD [])
  simp only [List.length_append, List.length_cons]
  omega

/-- A byte read that has no code (R102). -/
theorem encode_fetch_missing {table : Table (Option Bits) 257} {x : Fin 256} {more : Bits} {s : State}
    (hp : s.PromptFor 1) (ho : s.outstanding = none) (hc : s.code = some table) (hr : s.rest = bin 8 x.val ++ more)
    (hx : table.get (byteSym x) = none) :
    engineStep (.encode .fetch) s =
      .raised .missingCode 0 (BitVec.ofNat 9 x.val) (s.streamed 8 [] [.inRead 8]) := by
  have hread := inRead_bits hp ho hr
  rw [bin_length, val_bin_of_lt (n := 8) (by omega)] at hread
  have hentry : codeAt table x.val = none := by
    have : x.val < 257 := by omega
    simp only [codeAt, this, dif_pos]
    exact hx
  simp [engineStep, encodeStep, encodeFetch, hc, hread, encodeByte, hentry]

/-- ENCODE on a block with codes begins at its first read (R102). -/
theorem encode_begins {s : State} (hv : s.status.codesValid = true) :
    bodyOf (.encode 0) (accept (.encode 0) s) = .more (.encode .fetch) (accept (.encode 0) s) := by
  simp [bodyOf, encodeStart, accept, hv]

/-- Settles O34. -/
theorem encodeStopsAtAMissingCode : Obligations.EncodeStopsAtAMissingCode := by
  intro s table bytes x more hs hp hv hc hb hx hr
  rw [List.append_assoc] at hr
  have hbytes := encode_steps table bytes (accept (.encode 0) s) _ ((hp.accept _).promptFor _)
    (hs.outstanding_accept _) hc hr hb
  have hmissing := encode_fetch_missing (s := (accept (.encode 0) s).streamed (8 * bytes.length)
    (codesOf table.get bytes) (encodeCalls table.get bytes)) (more := more) (((hp.accept _).streamed _ _ _).promptFor 1)
    (hs.outstanding_accept (.encode 0)) hc (by simp [hr]) hx
  rw [streamed_streamed, List.append_nil] at hmissing
  refine exec_raised_streamed hs rfl (encode_begins hv) (hbytes.trans (.one hmissing)) ?_
  have hrem := remaining_of_rest (s := accept (.encode 0) s) hr
  simp only [Progress.bound, workBound, hrem, byteBits_length, List.length_append, bin_length]
  omega

/-! ### DECODE -/

/-- A run of which something holds that rules out a stop, and in which less and less is left to do, comes to its
end or to a wait. -/
theorem runEngine_answers {P : Progress → Prop} {μ : Work → State → Nat} (op : BitVec 4)
    (hstep : ∀ w s, P (.more w s) →
      P (engineStep w s) ∧ ∀ w' t, engineStep w s = .more w' t → μ w' t < μ w s)
    (hstuck : ∀ f, ¬ P (.stuck f)) {n : Nat} {w : Work} {s : State} (h : P (.more w s)) (hn : μ w s < n) :
    ∃ u, runEngine op n (.more w s) = .next u := by
  induction n generalizing w s with
  | zero => omega
  | succ n ih =>
    obtain ⟨hnext, hless⟩ := hstep w s h
    rw [runEngine]
    cases hp : engineStep w s with
    | more w' t => rw [hp] at hnext; exact ih hnext (by have := hless w' t hp; omega)
    | wait w' t => exact ⟨_, runEngine_wait ..⟩
    | done t => exact ⟨_, runEngine_done ..⟩
    | raised e sub sym t => exact ⟨_, runEngine_raised ..⟩
    | stuck f => rw [hp] at hnext; exact absurd hnext (hstuck f)

/-- The ways in which DECODE fails (R117). -/
def decodeErrors : List (ErrKind × BitVec 3) :=
  [(.corruptBody, 0), (.corruptBody, 1), (.ioFailure, 1), (.ioFailure, 2)]

/-- DECODE of `root` on its way, after at most as many calls as it has still to do less than `limit`. -/
def DecodeAt (root : HuffTree) (calls : List Call) (limit : Nat) : Progress → Prop
  | .more w t => ∃ cur, w = .decode cur ∧ t.tree = some root ∧
      ∃ cs, t.calls = calls ++ cs ∧ cs.length + w.measure t ≤ limit
  | .wait _ t => ∃ cs, t.calls = calls ++ cs ∧ cs.length ≤ limit
  | .done t => ∃ cs, t.calls = calls ++ cs ∧ cs.length ≤ limit
  | .raised e sub sym t => ((e, sub) ∈ decodeErrors ∧ sym = 0) ∧ ∃ cs, t.calls = calls ++ cs ∧ cs.length ≤ limit
  | .stuck _ => False

/-- A call joins those made before it, or was among them already. -/
theorem CallFrame.calls_le {c : Call} {s t : State} {calls cs : List Call} (h : CallFrame c s t)
    (hs : s.calls = calls ++ cs) : ∃ ds, t.calls = calls ++ ds ∧ ds.length ≤ cs.length + 1 := by
  rcases h.callsGrow with hc | hc
  · exact ⟨cs, hc.trans hs, Nat.le_succ _⟩
  · exact ⟨cs ++ [c], by rw [hc, hs, List.append_assoc], by simp⟩

/-- Whatever the collaborator answers, in a tree with an internal root (R108, R112). -/
theorem engineStep_decodeAt {l r : HuffTree} {v : Nat} {calls : List Call} {limit : Nat} (w : Work) (s : State)
    (h : DecodeAt (.node l r v) calls limit (.more w s)) :
    DecodeAt (.node l r v) calls limit (engineStep w s) ∧
      ∀ w' t, engineStep w s = .more w' t → w'.measure t < w.measure s := by
  obtain ⟨cur, rfl, htree, cs, hcs, hlimit⟩ := h
  simp only [engineStep, decodeStep, htree]
  cases cur with
  | leaf x wt =>
    simp only [decodeLeaf]
    simp only [Work.measure] at hlimit ⊢
    split
    · exact ⟨⟨cs, hcs, by omega⟩, by simp⟩
    rcases outWrite_cases 8 x.val s with ⟨h0, -⟩ | ⟨-, ⟨t, e, hf, -⟩ | ⟨t, k, e, hf, -⟩ | ⟨t, e, hf, -⟩⟩
    · cases h0
    all_goals
      rw [e]
      obtain ⟨ds, hds, hle⟩ := hf.calls_le hcs
    · have hrem := hf.remaining_write (by simp)
      have hmeasure : (Work.decode (.node l r v)).measure t < 2 * s.remaining + 2 := by
        simp only [Work.measure]; omega
      exact ⟨⟨_, rfl, hf.streams.kept.2.1.trans htree, ds, hds, by omega⟩, by rintro w' t ⟨⟩; exact hmeasure⟩
    · exact ⟨⟨⟨by simp [decodeErrors], rfl⟩, ds, hds, by omega⟩, by simp⟩
    · exact ⟨⟨ds, hds, by omega⟩, by simp⟩
  | node l' r' wt =>
    simp only [decodeNode]
    simp only [Work.measure] at hlimit ⊢
    rcases inRead_cases 1 s with ⟨t, e, hle, hf, -, hpos⟩ | ⟨t, e, -, hf, -⟩ | ⟨t, e, hf, -⟩ | ⟨t, e, hf, -⟩
    all_goals
      rw [e]
      obtain ⟨ds, hds, hds'⟩ := hf.calls_le hcs
      dsimp only
    · have hrem := read_remaining hf hpos
      have hmeasure : ∀ c, (Work.decode c).measure t < 2 * s.remaining + 1 := fun c => by
        cases c <;> simp only [Work.measure] <;> omega
      refine ⟨⟨_, rfl, hf.streams.kept.2.1.trans htree, ds, hds, ?_⟩, by rintro w' t' ⟨⟩; exact hmeasure _⟩
      have := hmeasure (if val (s.rest.take 1) = 0 then l' else r')
      omega
    · refine ⟨⟨⟨?_, rfl⟩, ds, hds, by omega⟩, by simp⟩
      split <;> simp [decodeErrors]
    · exact ⟨⟨⟨by simp [decodeErrors], rfl⟩, ds, hds, by omega⟩, by simp⟩
    · exact ⟨⟨ds, hds, by omega⟩, by simp⟩

/-- Settles O38. A one-leaf tree is an EOF leaf and needs no call; every other tree has an internal root. -/
theorem decodeAlwaysEnds : Obligations.DecodeAlwaysEnds := by
  intro s t hs hv ht hproper
  cases t with
  | leaf x w =>
    obtain rfl : eofSym = x := List.mem_singleton.mp hproper.2
    exact ⟨s, exec_decode_one_leaf hs hv ht, ⟨[], by simp, Nat.zero_le _⟩, .inr (.inl rfl)⟩
  | node l r w =>
    have hbody : bodyOf (.decode 0) (accept (.decode 0) s) =
        .more (.decode (.node l r w)) (accept (.decode 0) s) := by
      simp [bodyOf, decodeStart, accept, hv, ht]
    have hstart : DecodeAt (.node l r w) s.calls (2 * s.remaining + 1)
        (.more (.decode (.node l r w)) (accept (.decode 0) s)) :=
      ⟨_, rfl, ht, [], (List.append_nil _).symm, Nat.le_of_eq (Nat.zero_add _)⟩
    obtain ⟨u, hu⟩ : ∃ u, exec (.decode 0) s = .next u := by
      rw [exec_runs (.inl hs.2) rfl, hbody]
      exact runEngine_answers _ engineStep_decodeAt (fun _ => id) hstart (Work.measure_lt nofun)
    obtain ⟨k, q, hsteps, hwithin, hend⟩ := exec_ends hs rfl (by decide) hu
    rw [hbody] at hsteps
    have hat := hsteps.preserves (fun w s h => (engineStep_decodeAt w s h).1) hstart
    refine ⟨u, hu, ?_⟩
    cases hend with
    | done v =>
      have hframe : WorkFrame 0xA (accept (.decode 0) s) v := hwithin.1
      exact ⟨hat, .inr (.inl (endCommand_status hs.1 (hframe.status_eq (by decide))))⟩
    | raised e sub sym v =>
      have hframe : WorkFrame 0xA (accept (.decode 0) s) v := hwithin.1
      obtain ⟨⟨herror, rfl⟩, hcalls⟩ := hat
      refine ⟨hcalls, .inr (.inr ?_)⟩
      simp only [raiseError_status hs.1 (hframe.status_eq (by decide))]
      simp only [decodeErrors, List.mem_cons, Prod.mk.injEq, List.not_mem_nil, or_false] at herror
      rcases herror with ⟨rfl, rfl⟩ | ⟨rfl, rfl⟩ | ⟨rfl, rfl⟩ | ⟨rfl, rfl⟩
      · exact .inl rfl
      · exact .inr (.inl rfl)
      · exact .inr (.inr (.inl rfl))
      · exact .inr (.inr (.inr rfl))
    | wait w v =>
      have hframe : WorkFrame 0xA (accept (.decode 0) s) v := hwithin.1
      have hbusy : v.status.busy = true := by rw [hframe.status_eq (by decide)]; rfl
      exact ⟨hat, .inl hbusy⟩

end Sys2Proof.Machine
end

section
/-! PROOFS. RDHDR (spec/43_header_codec.md rules R95 to R100): what it has read where it succeeds and what it keeps
where it fails, whatever the collaborator answers, and each of the corrupt headers. -/

namespace Sys2Proof.Machine

/-! ### What RDHDR has read -/

/-- The bits RDHDR has read of the subtrees on its stack: the marker of each internal node, and each complete left
subtree. -/
def stackBits : List (Option HuffTree) → Bits
  | [] => []
  | none :: stack => stackBits stack ++ [false]
  | some l :: stack => stackBits stack ++ false :: l.hdr

/-- The marker bit of a leaf whose field is still to be read. -/
def ParsePhase.bits : ParsePhase → Bits
  | .marker => []
  | .field => [true]

/-- A subtree returned to the parse is read bits of it (R96). -/
theorem returnTree_bits (t : HuffTree) (stack : List (Option HuffTree)) :
    (∀ u, returnTree t stack = .inl u → u.hdr = stackBits stack ++ t.hdr) ∧
    ∀ stack', returnTree t stack = .inr stack' → stackBits stack' = stackBits stack ++ t.hdr := by
  induction stack generalizing t with
  | nil =>
    refine ⟨fun u h => ?_, nofun⟩
    cases h; rfl
  | cons e stack ih =>
    cases e with
    | none =>
      refine ⟨nofun, fun stack' h => ?_⟩
      cases h
      simp [stackBits]
    | some l =>
      obtain ⟨hwhole, hpart⟩ := ih (.node l t 0)
      have hbits : stackBits (some l :: stack) ++ t.hdr = stackBits stack ++ (HuffTree.node l t 0).hdr := by
        simp [stackBits, HuffTree.hdr]
      rw [hbits]
      exact ⟨hwhole, hpart⟩

/-- The bits an answered read takes. -/
theorem rest_of_read {n : Nat} {s t : State} (hf : CallFrame (.inRead n) s t) (hle : n ≤ s.remaining)
    (hpos : t.inPos = s.inPos + n) : s.rest = bin n (val (s.rest.take n)) ++ t.rest := by
  have hlength : (s.rest.take n).length = n := by rw [List.length_take, rest_length]; omega
  have hbits : bin n (val (s.rest.take n)) = s.rest.take n := by
    simpa only [hlength] using bin_val (s.rest.take n)
  have hrest : t.rest = s.rest.drop n := by
    have hinp : t.inp = s.inp := by rw [hf.streams]
    rw [State.rest, State.rest, hinp, hpos, List.drop_drop]
  rw [hbits, hrest, List.take_append_drop]

/-- No tree and no codes are held, and the valid bits say so. -/
def State.NoTree (s : State) : Prop :=
  s.tree = none ∧ s.code = none ∧ s.status.treeValid = false ∧ s.status.codesValid = false

theorem CallFrame.noTree {c : Call} {s t : State} (hf : CallFrame c s t) (h : s.NoTree) : t.NoTree := by
  obtain ⟨hstatus, htree, hcode⟩ := hf.streams.kept
  rwa [State.NoTree, hstatus, htree, hcode]

/-- RDHDR holds no tree on its way: the valid bits are 0 (R95). -/
theorem Work.Runs.noTree {phase : ParsePhase} {seen : List Sym} {nint : Nat} {stack : List (Option HuffTree)}
    {s : State} (h : (Work.rdhdr phase seen nint stack).Runs s) : s.NoTree := by
  obtain ⟨htree, hcodes, -⟩ := h.fits
  refine ⟨?_, ?_, htree, hcodes⟩
  · have := h.held.treeHeld
    rw [htree] at this
    exact Option.isSome_eq_false_iff.mp this.symm |> Option.isNone_iff_eq_none.mp
  · have := h.held.codesHeld
    rw [hcodes] at this
    exact Option.isSome_eq_false_iff.mp this.symm |> Option.isNone_iff_eq_none.mp

/-- The state holds a tree with weight 0 everywhere, whose header is what was read of `bits`. -/
def State.HoldsHeader (bits : Bits) (s : State) : Prop :=
  ∃ t, s.tree = some t ∧ s.status.treeValid = true ∧ t.Proper ∧ t = t.strip ∧ bits = t.hdr ++ s.rest

/-- RDHDR on its way through `bits`. -/
def RdhdrAt (bits : Bits) : Progress → Prop
  | .more w t => w.Runs t ∧ ∃ phase seen nint stack, w = .rdhdr phase seen nint stack ∧
      bits = stackBits stack ++ phase.bits ++ t.rest
  | .wait _ _ => True
  | .done t => t.HoldsHeader bits
  | .raised _ _ _ t => t.NoTree
  | .stuck _ => True

/-- A leaf's field read (R96): the parse goes on, is complete, or finds an error. -/
theorem rdhdrLeaf_at {bits : Bits} {v : Nat} {phase : ParsePhase} {seen : List Sym} {nint : Nat}
    {stack : List (Option HuffTree)} {s : State} (hfits : (Work.rdhdr phase seen nint stack).Fits s) (hno : s.NoTree)
    (hbits : bits = stackBits stack ++ true :: bin 9 v ++ s.rest)
    (hruns : ∀ w t, rdhdrLeaf v seen nint stack s = .more w t → w.Runs t) :
    RdhdrAt bits (rdhdrLeaf v seen nint stack s) := by
  obtain ⟨-, -, hnodup, hperm, hstrip, -⟩ := hfits
  unfold rdhdrLeaf at hruns ⊢
  split at hruns
  case isFalse hv => rw [dif_neg hv]; exact hno
  case isTrue hv =>
    rw [dif_pos hv]
    split at hruns
    case isTrue hseen => rw [if_pos hseen]; exact hno
    case isFalse hnew =>
      rw [if_neg hnew]
      have hread : stackBits stack ++ (HuffTree.leaf ⟨v, hv⟩ 0).hdr = stackBits stack ++ true :: bin 9 v := rfl
      obtain ⟨hwhole, hpart⟩ := returnTree_bits (.leaf ⟨v, hv⟩ 0) stack
      rcases returnTree_cases (.leaf ⟨v, hv⟩ 0) stack with ⟨u, hu, hleaves, hweights⟩ | ⟨stack', hu, -⟩
      · simp only [hu, rdhdrEnd]
        split
        · rename_i heof
          have hperm' : u.leaves.Perm (⟨v, hv⟩ :: seen) := hleaves.trans (hperm.symm.cons _)
          refine ⟨u, rfl, rfl, ⟨?_, hperm'.mem_iff.mpr heof⟩, hweights ⟨rfl, hstrip⟩, ?_⟩
          · exact hperm'.nodup_iff.mpr (List.nodup_cons.mpr ⟨hnew, hnodup⟩)
          · rw [hwhole u hu, hread, hbits]; rfl
        · exact hno
      · simp only [hu] at hruns ⊢
        refine ⟨hruns _ _ rfl, .marker, _, nint, stack', rfl, ?_⟩
        rw [hpart stack' hu, hread, hbits, ParsePhase.bits, List.append_nil]

/-- Whatever the collaborator answers (R95, R96). -/
theorem engineStep_rdhdrAt {bits : Bits} (w : Work) (s : State) (h : RdhdrAt bits (.more w s)) :
    RdhdrAt bits (engineStep w s) := by
  obtain ⟨hruns, phase, seen, nint, stack, rfl, hbits⟩ := h
  have hno := hruns.noTree
  have hnext : ∀ w' t, engineStep (.rdhdr phase seen nint stack) s = .more w' t → w'.Runs t := fun w' t e => by
    have hgood := engineStep_good hruns
    rw [e] at hgood
    exact hgood.1
  simp only [engineStep, rdhdrStep] at hnext ⊢
  cases phase with
  | marker =>
    dsimp only at hnext ⊢
    rcases inRead_cases 1 s with ⟨t, e, hle, hf, -, hpos⟩ | ⟨t, e, -, hf, -⟩ | ⟨t, e, hf, -⟩ | ⟨t, e, -⟩ <;>
      rw [e] at hnext ⊢ <;> dsimp only at hnext ⊢
    · have hrest := rest_of_read hf hle hpos
      split at hnext
      case isTrue hzero =>
        rw [if_pos hzero]
        rw [hzero] at hrest
        unfold rdhdrInternal at hnext ⊢
        split at hnext
        case isTrue hmany => rw [if_pos hmany]; exact hf.noTree hno
        case isFalse hfew =>
          rw [if_neg hfew]
          refine ⟨hnext _ _ rfl, .marker, seen, nint + 1, none :: stack, rfl, ?_⟩
          rw [hbits, hrest]
          simp [stackBits, ParsePhase.bits, bin]
      case isFalse hone =>
        rw [if_neg hone]
        have hval : val (s.rest.take 1) = 1 := by
          have := val_lt (s.rest.take 1)
          have hpow : 2 ^ (s.rest.take 1).length ≤ 2 ^ 1 := Nat.pow_le_pow_right (by decide) (List.length_take_le _ _)
          omega
        rw [hval] at hrest
        refine ⟨hnext _ _ rfl, .field, seen, nint, stack, rfl, ?_⟩
        rw [hbits, hrest]
        simp [ParsePhase.bits, bin]
    · exact hf.noTree hno
    · exact hf.noTree hno
    · trivial
  | field =>
    dsimp only at hnext ⊢
    rcases inRead_cases 9 s with ⟨t, e, hle, hf, -, hpos⟩ | ⟨t, e, -, hf, -⟩ | ⟨t, e, hf, -⟩ | ⟨t, e, -⟩ <;>
      rw [e] at hnext ⊢ <;> dsimp only at hnext ⊢
    · refine rdhdrLeaf_at (hf.fits hruns.fits) (hf.noTree hno) ?_ hnext
      have hrest := rest_of_read hf hle hpos
      generalize val (s.rest.take 9) = v at hrest ⊢
      rw [hbits, hrest]
      simp [ParsePhase.bits]
    · exact hf.noTree hno
    · exact hf.noTree hno
    · trivial

/-- Where RDHDR of a ready block ends (R95). -/
theorem exec_rdhdr_ends {s u : State} (h : s.Ready) (hu : exec (.rdhdr 0) s = .next u) :
    ∃ q, RdhdrAt s.rest q ∧ q.Within 0x9 (accept (.rdhdr 0) s) ∧ Ended 0x9 q u := by
  obtain ⟨k, q, hsteps, hwithin, hend⟩ := exec_ends h rfl (by decide) hu
  refine ⟨q, hsteps.preserves engineStep_rdhdrAt ⟨⟨?_, ?_, .inl (h.outstanding_accept (.rdhdr 0))⟩, .marker, [], 0, [],
    rfl, rfl⟩, hwithin, hend⟩
  · exact ⟨rfl, rfl, nofun, nofun, nofun⟩
  · exact ⟨rfl, rfl, List.nodup_nil, List.Perm.refl _, nofun, rfl, Nat.zero_le _⟩

/-- Settles O27: an RDHDR that neither waits nor has an error came to its end, whose tree holds what was read. -/
theorem rdhdrSuccessMeansAHeader : Obligations.RdhdrSuccessMeansAHeader := by
  intro s u hs hu hbusy herr
  obtain ⟨q, hat, hwithin, hend⟩ := exec_rdhdr_ends hs hu
  cases hend with
  | done v =>
    have hframe : WorkFrame 0x9 (accept (.rdhdr 0) s) v := hwithin.1
    obtain ⟨t, ht, hvalid, hproper, hstrip, hrest⟩ := hat
    exact ⟨t, ht, hvalid, hproper, hstrip, hrest, hframe.out (by decide)⟩
  | raised e sub sym v =>
    have hcode : e.code = 0 := herr
    cases e <;> exact absurd hcode (by decide)
  | wait w v =>
    have hframe : WorkFrame 0x9 (accept (.rdhdr 0) s) v := hwithin.1
    have hbusy' : v.status.busy = false := hbusy
    rw [hframe.others] at hbusy'
    cases hbusy'

/-- Settles O28. -/
theorem rdhdrErrorKeepsNoTree : Obligations.RdhdrErrorKeepsNoTree := by
  intro s u hs hu herr
  obtain ⟨q, hat, hwithin, hend⟩ := exec_rdhdr_ends hs hu
  have hkept : ∀ v, WorkFrame 0x9 (accept (.rdhdr 0) s) v → v.status.err = 0 ∧ v.freq = s.freq := fun v hframe => by
    rw [hframe.others]; exact ⟨hs.2, rfl⟩
  cases hend with
  | done v => exact absurd (hkept v hwithin.1).1 herr
  | wait w v => exact absurd (hkept v hwithin.1).1 herr
  | raised e sub sym v =>
    have hframe : WorkFrame 0x9 (accept (.rdhdr 0) s) v := hwithin.1
    obtain ⟨htree, -, hvalid, hcodes⟩ := hat
    exact ⟨htree, hvalid, hcodes, (hkept v hframe).2, hframe.out (by decide)⟩

/-! ### Corrupt headers -/

/-- A header of distinct Symbols has at most 256 internal nodes (R19). -/
theorem HuffTree.internalCount_le {t : HuffTree} (h : t.leaves.Nodup) : t.internalCount ≤ 256 := by
  have hleaves : t.leafCount ≤ 257 := HuffTree.Proper.leafCount_le h
  have := t.internalCount_succ
  omega

/-- RDHDR after some whole tokens of an unfinished header (R96). -/
theorem rdhdr_begins {s : State} {t : HuffTree} {pre post : List HdrToken} {x : Bits}
    (hp : s.PromptFor (tokenReads pre).length) (ho : s.outstanding = none) (hd : t.leaves.Nodup)
    (ht : t.tokens = pre ++ post) (hpost : post ≠ []) (hr : s.rest = tokenBits pre ++ x) :
    ∃ k stack, Steps k (.more (.rdhdr .marker [] 0 []) s)
        (.more (.rdhdr .marker (tokenLeaves pre).reverse (pre.count .internal) stack)
          (s.streamed (tokenBits pre).length [] (tokenReads pre))) ∧ k ≤ (tokenBits pre).length := by
  simpa only [List.append_nil, Nat.zero_add] using
    rdhdr_tokens t [] 0 [] s pre post x hp ho ht hpost hr hd (fun _ _ => List.not_mem_nil)
      (by have := HuffTree.internalCount_le hd; omega)

/-- An RDHDR that finds an error after stream work: no tree is kept (R95, R98). -/
theorem exec_rdhdr_raised {s : State} {k n : Nat} {cs : List Call} {e : ErrKind} {sub : BitVec 3} {sym : BitVec 9}
    (h : s.Ready)
    (hs : Steps k (.more (.rdhdr .marker [] 0 []) (accept (.rdhdr 0) s).dropTree)
      (.raised e sub sym ((accept (.rdhdr 0) s).dropTree.streamed n [] cs)))
    (hk : k ≤ s.rest.length + 2) :
    exec (.rdhdr 0) s = .next { s.streamed n [] cs with
      tree := none, code := none, status := (s.status.withoutTree).afterError 0x9 e sub sym } := by
  rw [rest_length] at hk
  rw [exec_runs (.inl h.2) rfl, bodyOf, rdhdrStart, finish_raised hs hk, raiseError_streamed_dropTree h.1]
  rfl

/-- The end of IN at a marker (R96). -/
theorem rdhdr_marker_eod {s : State} (seen : List Sym) (nint : Nat) (stack : List (Option HuffTree))
    (hp : s.PromptFor 1) (ho : s.outstanding = none) (hr : s.rest.length < 1) :
    engineStep (.rdhdr .marker seen nint stack) s = .raised .corruptHeader 0 0 (s.streamed 0 [] [.inRead 1]) := by
  rw [rest_length] at hr
  simp only [engineStep, rdhdrStep, inRead_eod_prompt hp ho hr]

/-- The end of IN at a leaf's field (R96). -/
theorem rdhdr_field_eod {s : State} (seen : List Sym) (nint : Nat) (stack : List (Option HuffTree))
    (hp : s.PromptFor 1) (ho : s.outstanding = none) (hr : s.rest.length < 9) :
    engineStep (.rdhdr .field seen nint stack) s = .raised .corruptHeader 0 0 (s.streamed 0 [] [.inRead 9]) := by
  rw [rest_length] at hr
  simp only [engineStep, rdhdrStep, inRead_eod_prompt hp ho hr]

/-- A leaf's marker and field read (R96). -/
theorem rdhdr_leaf_steps {s : State} {v : Nat} {more : Bits} (seen : List Sym) (nint : Nat)
    (stack : List (Option HuffTree)) (hp : s.Prompt) (ho : s.outstanding = none) (hv : v < 512)
    (hr : s.rest = true :: (bin 9 v ++ more)) :
    Steps 2 (.more (.rdhdr .marker seen nint stack) s)
      (rdhdrLeaf v seen nint stack (s.streamed 10 [] [.inRead 1, .inRead 9])) := by
  have hmarker := rdhdr_marker seen nint stack (hp.promptFor 1) ho hr
  have hfield := rdhdr_field (s := s.streamed 1 [] [.inRead 1]) (x := more) seen nint stack
    ((hp.streamed _ _ _).promptFor 1) ho hv (by rw [streamed_rest, hr]; rfl)
  rw [streamed_streamed] at hfield
  exact .cons hmarker (.one hfield)

/-- A part of a token that is not all of it: nothing, or a leaf's marker with less than its field. -/
theorem HdrToken.part_cases {tok : HdrToken} {part : Bits} (h : part <+: tok.bits) (hne : part ≠ tok.bits) :
    part = [] ∨ ∃ p, part = true :: p ∧ p.length < 9 := by
  cases part with
  | nil => exact .inl rfl
  | cons b p =>
    right
    cases tok with
    | internal =>
      obtain ⟨rfl, hp⟩ := List.cons_prefix_cons.mp h
      rw [List.prefix_nil.mp hp] at hne
      exact absurd rfl hne
    | leaf x =>
      obtain ⟨rfl, hp⟩ := List.cons_prefix_cons.mp h
      refine ⟨p, rfl, lt_of_le_of_ne (by simpa using hp.length_le) fun hl => hne ?_⟩
      rw [hp.eq_of_length (by simpa using hl)]; rfl

/-- Settles O29. -/
theorem rdhdrTruncatedHeader : Obligations.RdhdrTruncatedHeader := by
  intro s t hs hp hd hprefix hne
  rw [t.hdr_eq_tokenBits] at hprefix hne
  obtain ⟨pre, tok, post, part, htokens, hr, hpart, hpartne⟩ := prefix_tokenBits hprefix hne
  have hpD : ∀ n b cs, ((accept (.rdhdr 0) s).dropTree.streamed n b cs).Prompt :=
    State.Prompt.streamed (s := (accept (.rdhdr 0) s).dropTree) hp
  have ho := hs.outstanding_accept (.rdhdr 0)
  obtain ⟨k, stack, hsteps, hk⟩ := rdhdr_begins (s := (accept (.rdhdr 0) s).dropTree)
    (State.Prompt.promptFor hp _) ho hd htokens (by simp) hr
  have hlength : s.rest.length = (tokenBits pre).length + part.length := by rw [hr, List.length_append]
  have hrest : ((accept (.rdhdr 0) s).dropTree.streamed (tokenBits pre).length [] (tokenReads pre)).rest = part := by
    rw [streamed_rest]; exact (congrArg (List.drop _) hr).trans (List.drop_left)
  refine ⟨pre, tok, post, part, _, htokens, hr, hpart, hpartne, rfl, ?_⟩
  rcases HdrToken.part_cases hpart hpartne with rfl | ⟨p, rfl, hplength⟩
  · have heod := rdhdr_marker_eod (tokenLeaves pre).reverse (pre.count .internal) stack
      ((hpD _ _ _).promptFor 1) ho (by rw [hrest]; decide)
    rw [streamed_streamed] at heod
    exact ⟨by rw [hlength]; simp, exec_rdhdr_raised hs (hsteps.trans (.one heod)) (by omega)⟩
  · have hmarker := rdhdr_marker (tokenLeaves pre).reverse (pre.count .internal) stack
      ((hpD _ _ _).promptFor 1) ho hrest
    have heod := rdhdr_field_eod (tokenLeaves pre).reverse (pre.count .internal) stack
      ((State.Prompt.streamed (hpD (tokenBits pre).length [] (tokenReads pre)) 1 [] [.inRead 1]).promptFor 1) ho
      (by rw [streamed_rest, hrest]; exact hplength)
    rw [if_pos rfl] at hmarker
    have hread := hsteps.trans (.cons hmarker (.one heod))
    rw [streamed_streamed, streamed_streamed] at hread
    have hmin : min 1 (true :: p).length = 1 := by simp
    refine ⟨by rw [hlength, hmin, List.length_cons]; omega, ?_⟩
    rw [hmin, if_neg (List.cons_ne_nil _ _)]
    exact exec_rdhdr_raised (k := k + 2) hs (by simpa using hread) (by rw [hlength, List.length_cons]; omega)

/-- Settles O30: the range check of the field, then its duplication (R126). -/
theorem rdhdrBadLeaf : Obligations.RdhdrBadLeaf := by
  intro s t pre post x v more hs hp hd htokens hr
  have hpD : State.Prompt ((accept (.rdhdr 0) s).dropTree.streamed (tokenBits pre).length [] (tokenReads pre)) :=
    State.Prompt.streamed (s := (accept (.rdhdr 0) s).dropTree) hp _ _ _
  have ho := hs.outstanding_accept (.rdhdr 0)
  obtain ⟨k, stack, hsteps, hk⟩ := rdhdr_begins (s := (accept (.rdhdr 0) s).dropTree)
    (State.Prompt.promptFor hp _) ho hd htokens (by simp) hr
  have hrest : ((accept (.rdhdr 0) s).dropTree.streamed (tokenBits pre).length [] (tokenReads pre)).rest =
      true :: (bin 9 v ++ more) := by
    rw [streamed_rest]; exact (congrArg (List.drop _) hr).trans (List.drop_left)
  have hlength : s.rest.length = (tokenBits pre).length + (more.length + 10) := by
    rw [hr]; simp; omega
  -- Both errors are found at the field, when it has been read.
  have hraised : ∀ sub : BitVec 3, v < 512 →
      (∀ u, rdhdrLeaf v (tokenLeaves pre).reverse (pre.count .internal) stack u =
        .raised .corruptHeader sub (BitVec.ofNat 9 v) u) →
      exec (.rdhdr 0) s = .next { s.streamed ((tokenBits pre).length + 10) []
          (tokenReads pre ++ [Call.inRead 1, Call.inRead 9]) with
        tree := none
        code := none
        status := (s.status.withoutTree).afterError 0x9 .corruptHeader sub (BitVec.ofNat 9 v) } := by
    intro sub hv hleaf
    have hread := hsteps.trans
      (rdhdr_leaf_steps (tokenLeaves pre).reverse (pre.count .internal) stack hpD ho hv hrest)
    rw [hleaf, streamed_streamed] at hread
    exact exec_rdhdr_raised hs hread (by omega)
  refine ⟨fun hlow hhigh => hraised 1 hhigh fun u => ?_, fun y hy hmem => hraised 2 (by omega) fun u => ?_⟩
  · rw [rdhdrLeaf, dif_neg (by omega)]
  · subst hy
    have hseen : y ∈ (tokenLeaves pre).reverse := List.mem_reverse.mpr (mem_tokenLeaves.mpr hmem)
    rw [rdhdrLeaf, dif_pos y.isLt, if_pos hseen]

/-- Settles O31: the parse is complete, and the EOF check fails. -/
theorem rdhdrWithoutEof : Obligations.RdhdrWithoutEof := by
  intro s t x hs hp hd heof hr
  obtain ⟨k, hsteps, hk⟩ := rdhdr_steps t [] 0 [] (accept (.rdhdr 0) s).dropTree x (State.Prompt.promptFor hp _)
    (hs.outstanding_accept (.rdhdr 0)) hr hd (by simp) (by have := HuffTree.internalCount_le hd; omega)
  have hend : ∀ u, rdhdrReturned t.strip (t.leaves.reverse ++ []) (0 + t.internalCount) [] u =
      .raised .corruptHeader 3 256 u := fun u => by
    simp [rdhdrReturned, returnTree, rdhdrEnd, heof]
  rw [hend] at hsteps
  exact exec_rdhdr_raised hs hsteps (by rw [hr, List.length_append]; omega)

/-- Settles O32. -/
theorem rdhdrTooManyInternalMarkers : Obligations.RdhdrTooManyInternalMarkers := by
  intro s t pre post more hs hp hd htokens hpost hcount hr
  have ho := hs.outstanding_accept (.rdhdr 0)
  obtain ⟨k, stack, hsteps, hk⟩ := rdhdr_begins (s := (accept (.rdhdr 0) s).dropTree)
    (State.Prompt.promptFor hp _) ho hd htokens hpost hr
  have hrest : ((accept (.rdhdr 0) s).dropTree.streamed (tokenBits pre).length [] (tokenReads pre)).rest =
      false :: more := by
    rw [streamed_rest]; exact (congrArg (List.drop _) hr).trans (List.drop_left)
  have hmarker := rdhdr_marker (tokenLeaves pre).reverse (pre.count .internal) stack
    ((State.Prompt.streamed (s := (accept (.rdhdr 0) s).dropTree) hp _ _ _).promptFor 1) ho hrest
  rw [if_neg (by decide), rdhdrInternal, if_pos (by omega), streamed_streamed] at hmarker
  exact exec_rdhdr_raised hs (hsteps.trans (.one hmarker)) (by rw [hr, List.length_append]; omega)

end Sys2Proof.Machine
end

section
/-! PROOFS. What every command may change and which errors it may end with (spec/10_state.md rules R18 to R34,
spec/20_memory.md rules R37 to R50, spec/60_exceptions.md rule R119). -/

namespace Sys2Proof.Machine

/-! ### Errors -/

/-- The errors a command with OPC `op` can end with (R119); OPC alone says which command it is (R59). -/
def errorsOfOpcode (op : BitVec 4) : List ErrKind := errorsOf (decode (packLow op 0) 0)

theorem errorsOf_eq (i : Instr) : errorsOf i = errorsOfOpcode i.opcode := by
  cases i <;> simp [errorsOfOpcode, Instr.opcode, decode, cmdOpc_packLow, errorsOf]

/-- A command that ends here with an error ends with one of `errors`. -/
def Progress.RaisesOnly (errors : List ErrKind) : Progress → Prop
  | .more _ _ => True
  | .wait _ _ => True
  | .done _ => True
  | .raised e _ _ _ => e ∈ errors
  | .stuck _ => True

/-- A piece of work raises only what its command may (R119). -/
theorem engineStep_raises (w : Work) (s : State) : (engineStep w s).RaisesOnly (errorsOfOpcode w.opcode) := by
  cases w with
  | build pq nextSeq =>
    simp only [engineStep, buildStep]
    repeat' split
    all_goals trivial
  | gencodes stack =>
    simp only [engineStep]
    unfold gencodesStep
    split <;> trivial
  | wrhdr stack =>
    have hwrite : ∀ n v here after, (wrhdrWrite n v here after s).RaisesOnly (errorsOfOpcode 0x6) := by
      intro n v here after
      unfold wrhdrWrite
      split
      · trivial
      · show ErrKind.ioFailure ∈ _; decide
      · trivial
    simp only [engineStep]
    unfold wrhdrStep
    split
    · trivial
    all_goals exact hwrite _ _ _ _
  | encode phase =>
    simp only [engineStep]
    have hio : ErrKind.ioFailure ∈ errorsOfOpcode 7#4 := by decide
    have hmissing : ErrKind.missingCode ∈ errorsOfOpcode 7#4 := by decide
    cases phase <;> simp only [encodeStep, encodeFetch, encodeByte, encodeEnd] <;> repeat' split
    all_goals simp [Progress.RaisesOnly, Work.opcode, hio, hmissing]
  | flush =>
    simp only [engineStep, flushStep]
    split
    · trivial
    · show ErrKind.ioFailure ∈ errorsOfOpcode 0x8; decide
    · trivial
  | rdhdr phase seen nint stack =>
    simp only [engineStep]
    have hio : ErrKind.ioFailure ∈ errorsOfOpcode 9#4 := by decide
    have hcorrupt : ErrKind.corruptHeader ∈ errorsOfOpcode 9#4 := by decide
    cases phase <;> simp only [rdhdrStep, rdhdrInternal, rdhdrLeaf, rdhdrEnd] <;> repeat' split
    all_goals simp [Progress.RaisesOnly, Work.opcode, hio, hcorrupt]
  | decode cur =>
    simp only [engineStep, decodeStep]
    split
    · trivial
    have hio : ErrKind.ioFailure ∈ errorsOfOpcode 10#4 := by decide
    have hcorrupt : ErrKind.corruptBody ∈ errorsOfOpcode 10#4 := by decide
    cases cur <;> simp only [decodeLeaf, decodeNode] <;> repeat' split
    all_goals simp [Progress.RaisesOnly, Work.opcode, hio, hcorrupt]

/-- So does a command's prologue, and its rule before its first piece of work (R67, R119). -/
theorem prologue_raises (i : Instr) (s : State) : (prologue i (bodyOf i) s).RaisesOnly (errorsOf i) := by
  unfold prologue
  split
  · trivial
  split
  case h_1 c hcause =>
    show ErrKind.illegalCommand ∈ errorsOf i
    cases i <;> simp [errorsOf, illegalCause] at hcause ⊢
  case h_2 =>
    cases i <;> simp only [bodyOf, clrfreqStart, ldfreqStart, rdfreqStart, buildStart, gencodesStart, wrhdrStart,
      encodeStart, flushStart, rdhdrStart, decodeStart, rdcodeStart, clrerrStart, srstStart] <;> repeat' split
    all_goals simp [Progress.RaisesOnly, errorsOf]

/-! ### Frames of a whole command -/

/-- What holds where a command begins its work, and is kept within the frame of that work, holds where it ends;
an error it ends with is one of its own. -/
theorem exec_keeps {F : State → Prop} {i : Instr} {s u : State} (hu : exec i s = .next u)
    (hstart : (prologue i (bodyOf i) s).Holds F)
    (hkeep : ∀ (w : Work) t t', w.opcode = i.opcode → F t → WorkFrame i.opcode t t' → F t') :
    ∃ q, Ended i.opcode q u ∧ q.Holds F ∧ q.RaisesOnly (errorsOf i) := by
  obtain ⟨k, q, hsteps, hend⟩ := exec_course hu
  have hbegins : ∀ w t, prologue i (bodyOf i) s = .more w t → w.opcode = i.opcode := by
    intro w t e
    have h := prologue_begins i s
    rw [e] at h
    exact h
  obtain ⟨hF, hraises, -⟩ := hsteps.preserves
    (P := fun p => p.Holds F ∧ p.RaisesOnly (errorsOf i) ∧ ∀ w t, p = .more w t → w.opcode = i.opcode)
    (by
      rintro w t ⟨hF, -, hop⟩
      have hw := hop w t rfl
      have hraises := engineStep_raises w t
      obtain ⟨hframe, hmore, -⟩ := engineStep_frame w t
      rw [hw] at hframe hmore hraises
      exact ⟨hframe.mono fun t' ht' => hkeep w t t' hw hF ht', errorsOf_eq i ▸ hraises, hmore⟩)
    ⟨hstart, prologue_raises i s, hbegins⟩
  exact ⟨q, hend, hF, hraises⟩

/-- What a command with OPC `op` may change of the tables (R18, R20, R22, R24, R25, R30). -/
structure TableFrame (op : BitVec 4) (s t : State) : Prop where
  wCount : t.wCount = s.wCount
  freq : op ∉ [0x1, 0x2, 0xF] → t.freq = s.freq
  tree : op ∉ [0x4, 0x9, 0xF] → t.tree = s.tree ∧ t.status.treeValid = s.status.treeValid
  code : op ∉ [0x4, 0x5, 0x9, 0xF] → t.code = s.code ∧ t.status.codesValid = s.status.codesValid
  result : op ∉ [0x3, 0xB, 0xF] → t.result = s.result

theorem TableFrame.work {op : BitVec 4} {s t t' : State} (h : TableFrame op s t) (hf : WorkFrame op t t') :
    TableFrame op s t' where
  wCount := by rw [hf.others]; exact h.wCount
  freq ho := by rw [hf.others]; exact h.freq ho
  result ho := by rw [hf.others]; exact h.result ho
  tree ho := by
    obtain ⟨htree, hvalid⟩ := hf.tree fun hm =>
      ho (by simp only [List.mem_cons, List.not_mem_nil, or_false] at hm ⊢; tauto)
    rw [htree, hvalid]; exact h.tree ho
  code ho := by
    obtain ⟨hcode, hvalid⟩ := hf.code fun hm =>
      ho (by simp only [List.mem_cons, List.not_mem_nil, or_false] at hm ⊢; tauto)
    rw [hcode, hvalid]; exact h.code ho

theorem TableFrame.ends {op : BitVec 4} {s u : State} {q : Progress} (hq : q.Holds (TableFrame op s))
    (he : Ended op q u) : TableFrame op s u := by
  cases he <;> exact ⟨hq.wCount, hq.freq, hq.tree, hq.code, hq.result⟩

/-- Where a command begins its work, its prologue and its rule have changed no table but its own. -/
theorem prologue_tables (i : Instr) (s : State) : (prologue i (bodyOf i) s).Holds (TableFrame i.opcode s) := by
  unfold prologue
  split
  · exact ⟨rfl, fun _ => rfl, fun _ => ⟨rfl, rfl⟩, fun _ => ⟨rfl, rfl⟩, fun _ => rfl⟩
  split
  · exact ⟨rfl, fun _ => rfl, fun _ => ⟨rfl, rfl⟩, fun _ => ⟨rfl, rfl⟩, fun _ => rfl⟩
  cases i <;> simp only [bodyOf, clrfreqStart, ldfreqStart, rdfreqStart, buildStart, gencodesStart, wrhdrStart,
    encodeStart, flushStart, rdhdrStart, decodeStart, rdcodeStart, clrerrStart, srstStart] <;> repeat' split
  all_goals constructor <;> intros <;>
    simp_all [Instr.opcode, accept, State.dropTree, State.setValid, clearError, resetBlock]

/-- Settles O42. -/
theorem tablesChangeOnlyByTheirCommands : Obligations.TablesChangeOnlyByTheirCommands := by
  intro i s u hu
  obtain ⟨q, hend, hq, -⟩ := exec_keeps hu (prologue_tables i s) fun _ _ _ _ h hf => h.work hf
  obtain ⟨hwidth, hfreq, htree, hcode, hresult⟩ := TableFrame.ends hq hend
  exact ⟨hwidth, hfreq, htree, hcode, hresult⟩

/-- What a command with OPC `op` may change of the streams and the outside parties (R40, R41, R49, R50). -/
structure StreamFrame (op : BitVec 4) (s t : State) : Prop where
  inp : t.inp = s.inp
  port : t.port = s.port
  resetPin : t.resetPin = s.resetPin
  inPos : op ∉ [0x7, 0x9, 0xA] → t.inPos = s.inPos
  out : op ∉ [0x6, 0x7, 0x8, 0xA] → t.out = s.out
  grows : op ≠ 0x8 → s.out <+: t.out
  quiet : op ∉ [0x6, 0x7, 0x8, 0x9, 0xA] → t.calls = s.calls ∧ t.answers = s.answers
  calls : ∃ cs, t.calls = s.calls ++ cs ∧ ∀ c ∈ cs, mayCall op c = true

/-- Work that calls nobody is BUILD's or GENCODES'. -/
theorem Work.opcode_of_quiet {w : Work} (h : w.opcode ∉ [0x6, 0x7, 0x8, 0x9, 0xA]) : w.opcode ∈ [0x4, 0x5] := by
  cases w <;> simp [opcode] at h ⊢

theorem StreamFrame.work {w : Work} {s t t' : State} (h : StreamFrame w.opcode s t) (hf : WorkFrame w.opcode t t') :
    StreamFrame w.opcode s t' where
  inp := by rw [hf.others]; exact h.inp
  port := by rw [hf.others]; exact h.port
  resetPin := by rw [hf.others]; exact h.resetPin
  inPos ho := (hf.inPos ho).trans (h.inPos ho)
  out ho := (hf.out ho).trans (h.out ho)
  grows ho := (h.grows ho).trans (hf.grows ho)
  quiet ho := by
    obtain ⟨hcalls, hanswers, -⟩ := hf.quiet (Work.opcode_of_quiet ho)
    rw [hcalls, hanswers]; exact h.quiet ho
  calls := by
    obtain ⟨cs, hcs, hmay⟩ := h.calls
    obtain ⟨ds, hds, hmay'⟩ := hf.calls
    exact ⟨cs ++ ds, by rw [hds, hcs, List.append_assoc], fun c hc => (List.mem_append.mp hc).elim (hmay c) (hmay' c)⟩

theorem StreamFrame.ends {op : BitVec 4} {s u : State} {q : Progress} (hq : q.Holds (StreamFrame op s))
    (he : Ended op q u) : StreamFrame op s u := by
  cases he <;> exact ⟨hq.inp, hq.port, hq.resetPin, hq.inPos, hq.out, hq.grows, hq.quiet, hq.calls⟩

/-- A command that has not begun its work has touched no stream. -/
theorem Untouched.streamFrame {s t : State} (op : BitVec 4) (h : Untouched s t) : StreamFrame op s t where
  inp := h.inp
  port := h.port
  resetPin := h.resetPin
  inPos _ := h.inPos
  out _ := h.out
  grows _ := by rw [h.out]
  quiet _ := ⟨h.calls, h.answers⟩
  calls := ⟨[], by rw [h.calls, List.append_nil], nofun⟩

/-- Settles O43. -/
theorem streamsChangeOnlyByTheirCommands : Obligations.StreamsChangeOnlyByTheirCommands := by
  intro i s u hu
  obtain ⟨q, hend, hq, -⟩ := exec_keeps hu ((prologue_starts i s).mono fun t => Untouched.streamFrame i.opcode)
    fun w t t' hw h hf => by rw [← hw] at h hf ⊢; exact h.work hf
  obtain ⟨hinp, hport, hpin, hpos, hout, hgrows, hquiet, hcalls⟩ := StreamFrame.ends hq hend
  exact ⟨hinp, hport, hpin, hpos, hout, hgrows, hquiet, hcalls⟩

/-! ### The record of a whole command -/

/-- No error is recorded yet, and REJ is not newly set. -/
def State.Unrecorded (s t : State) : Prop := t.status.err = 0 ∧ (t.status.rej = true → s.status.rej = true)

theorem prologue_unrecorded {s : State} (i : Instr) (h : s.status.err = 0) :
    (prologue i (bodyOf i) s).Holds s.Unrecorded := by
  unfold prologue
  split
  · rename_i hrejected
    exact absurd h hrejected.1
  split
  · exact ⟨h, id⟩
  cases i <;> simp only [bodyOf, clrfreqStart, ldfreqStart, rdfreqStart, buildStart, gencodesStart, wrhdrStart,
    encodeStart, flushStart, rdhdrStart, decodeStart, rdcodeStart, clrerrStart, srstStart] <;> repeat' split
  all_goals simp [Progress.Holds, State.Unrecorded, accept, State.dropTree, State.setValid, clearError, resetBlock,
    Status.reset, h]

/-- Settles O44. -/
theorem commandsRaiseOnlyTheirErrors : Obligations.CommandsRaiseOnlyTheirErrors := by
  intro i s u h hu
  obtain ⟨q, hend, hq, hraises⟩ := exec_keeps (F := s.Unrecorded) hu (prologue_unrecorded i h)
    fun w t t' _ ht hf => by rw [State.Unrecorded, hf.others]; exact ht
  cases hend with
  | done t => exact ⟨hq.2, .inl hq.1⟩
  | wait w t => exact ⟨hq.2, .inl hq.1⟩
  | raised e sub sym t => exact ⟨hq.2, .inr ⟨e, hraises, rfl, rfl⟩⟩

end Sys2Proof.Machine
end

section
/-! PROOFS. Failing calls of the stream commands (spec/20_memory.md rules R42, R44, spec/60_exceptions.md rules R122,
R126). -/

namespace Sys2Proof.Machine

/-! ### A call that fails -/

/-- The collaborator answers the next `n` calls at once and fails the one after them, with the answer `.fail k left`. -/
def State.FailsAfter (s : State) (n k : Nat) (left : Bits) : Prop :=
  s.PromptFor n ∧ ∀ (m : Nat) (b : Bits) (cs : List Call), cs.length = n → (s.streamed m b cs).nextAnswer = .fail k left

theorem State.failsAfter {s : State} {before after : List Answer} {k : Nat} {left : Bits}
    (ha : s.answers = before ++ .fail k left :: after) (hok : ∀ a ∈ before, a.isOk = true) :
    s.FailsAfter before.length k left :=
  ⟨.of_append ha hok, fun m b _ hl => nextAnswer_streamed ha hl m b⟩

theorem State.FailsAfter.accept {s : State} {n k : Nat} {left : Bits} (h : s.FailsAfter n k left) (i : Instr) :
    (accept i s).FailsAfter n k left := h

/-- The call that fails comes after the calls `cs`. -/
theorem State.FailsAfter.streamed {s : State} {n k : Nat} {left : Bits} {cs : List Call}
    (h : s.FailsAfter (cs.length + n) k left) (m : Nat) (b : Bits) : (s.streamed m b cs).FailsAfter n k left := by
  refine ⟨h.1.streamed m b, fun m' b' cs' hl => ?_⟩
  rw [streamed_streamed]
  exact h.2 _ _ _ (by rw [List.length_append, hl])

/-- The next call fails. -/
theorem State.FailsAfter.nextAnswer {s : State} {k : Nat} {left : Bits} (h : s.FailsAfter 0 k left) :
    s.nextAnswer = .fail k left := by
  have := h.2 0 [] [] rfl
  rwa [streamed_zero] at this

theorem State.FailsAfter.promptFor {s : State} {n m k : Nat} {left : Bits} (h : s.FailsAfter n k left) (hm : m ≤ n) :
    s.PromptFor m := h.1.mono hm

/-- A command whose read fails after other stream work. -/
theorem exec_read_fails {i : Instr} {s : State} {p : Progress} {j n k : Nat} {b : Bits} {cs : List Call}
    (h : s.Ready) (hc : illegalCause i = none) (hb : bodyOf i (accept i s) = p)
    (hs : Steps j p (.raised .ioFailure 1 0 { (accept i s).streamed n b cs with inPos := k })) (hj : j ≤ p.bound) :
    exec i s = .next ((s.streamed n b cs).readFailed i.opcode k) := by
  rw [exec_runs (.inl h.2) hc, hb, finish_raised hs hj]
  exact congrArg (fun t => Host.Outcome.next { t with inPos := k })
    (raiseError_streamed h.1 i n b cs i.opcode .ioFailure 1 0)

/-- A command whose write fails after other stream work. -/
theorem exec_write_fails {i : Instr} {s : State} {p : Progress} {j n : Nat} {b : Bits} {cs : List Call}
    (h : s.Ready) (hc : illegalCause i = none) (hb : bodyOf i (accept i s) = p)
    (hs : Steps j p (.raised .ioFailure 2 0 ((accept i s).streamed n b cs))) (hj : j ≤ p.bound) :
    exec i s = .next ((s.streamed n b cs).writeFailed i.opcode) :=
  exec_raised_streamed h hc hb hs hj

/-- An RDHDR whose read fails after other reads. -/
theorem exec_rdhdr_read_fails {s : State} {j n k : Nat} {cs : List Call} (h : s.Ready)
    (hs : Steps j (.more (.rdhdr .marker [] 0 []) (accept (.rdhdr 0) s).dropTree)
      (.raised .ioFailure 1 0 { (accept (.rdhdr 0) s).dropTree.streamed n [] cs with inPos := k }))
    (hj : j ≤ s.rest.length + 2) :
    exec (.rdhdr 0) s = .next ((s.streamed n [] cs).withoutTree.readFailed 0x9 k) := by
  rw [rest_length] at hj
  rw [exec_runs (.inl h.2) rfl, bodyOf, rdhdrStart, finish_raised hs hj]
  exact congrArg (fun t => Host.Outcome.next { t with inPos := k })
    (raiseError_streamed_dropTree h.1 (.rdhdr 0) n [] cs 0x9 .ioFailure 1 0)

/-! ### ENCODE -/

section
variable {s : State} {k : Nat} {left : Bits} {table : Table (Option Bits) 257} {bytes : List (Fin 256)}

/-- ENCODE's read fails after some bytes (R102, R42). -/
theorem encode_read_fails {more : Bits} (hs : s.Ready) (hv : s.status.codesValid = true) (hc : s.code = some table)
    (hb : ∀ b ∈ bytes, (table.get (byteSym b)).isSome = true) (hr : s.rest = byteBits bytes ++ more)
    (hf : s.FailsAfter (encodeCalls table.get bytes).length k left) :
    exec (.encode 0) s = .next ((s.streamed (8 * bytes.length) (codesOf table.get bytes)
      (encodeCalls table.get bytes ++ [.inRead 8])).readFailed 0x7 k) := by
  have ho := hs.outstanding_accept (.encode 0)
  have hbytes := encode_steps table bytes (accept (.encode 0) s) more (hf.promptFor le_rfl) ho hc hr hb
  have hnext := (hf.accept (.encode 0)).streamed (n := 0) (8 * bytes.length) (codesOf table.get bytes)
  have hfail := encode_read_fail (by exact hc) hnext.nextAnswer ho
  rw [streamed_streamed, List.append_nil] at hfail
  refine exec_read_fails hs rfl (encode_begins hv) (hbytes.trans (.one hfail)) ?_
  have hrem := remaining_of_rest (s := accept (.encode 0) s) hr
  simp only [Progress.bound, workBound, hrem, byteBits_length]
  omega

/-- ENCODE's write fails: the code `c` of the work `w` that its fetch came to (R102, R44). -/
theorem encode_write_fails {w : Work} {c tail : Bits} {n : Nat} (hs : s.Ready) (hv : s.status.codesValid = true)
    (hc : s.code = some table) (hb : ∀ b ∈ bytes, (table.get (byteSym b)).isSome = true)
    (hr : s.rest = byteBits bytes ++ tail) (hf : s.FailsAfter ((encodeCalls table.get bytes).length + 1) k left)
    (hne : c ≠ []) (hw : w = .encode (.emit c) ∨ w = .encode (.last c))
    (hfetch : ∀ t : State, t.PromptFor 1 → t.outstanding = none → t.code = some table → t.rest = tail →
      engineStep (.encode .fetch) t = .more w (t.streamed n [] [.inRead 8])) :
    exec (.encode 0) s = .next ((s.streamed (8 * bytes.length + n) (codesOf table.get bytes ++ c.take k)
      (encodeCalls table.get bytes ++ [.inRead 8, .outWrite c.length (val c)])).writeFailed 0x7) := by
  have ho := hs.outstanding_accept (.encode 0)
  have hbytes := encode_steps table bytes (accept (.encode 0) s) tail (hf.promptFor (Nat.le_succ _)) ho hc hr hb
  have hnext := (hf.accept (.encode 0)).streamed (n := 1) (8 * bytes.length) (codesOf table.get bytes)
  have hread := hfetch _ (hnext.promptFor le_rfl) ho hc (by simp [hr])
  have hfail := encode_write_fail hne (hnext.streamed (cs := [.inRead 8]) (n := 0) n []).nextAnswer ho
  replace hfail := hw.elim (fun e => e ▸ hfail.1) (fun e => e ▸ hfail.2)
  rw [codeWrite, if_neg hne, streamed_streamed, streamed_streamed, List.append_nil, List.append_assoc] at hfail
  rw [streamed_streamed, List.append_nil] at hread
  refine exec_write_fails hs rfl (encode_begins hv) (hbytes.trans (.cons hread (.one hfail))) ?_
  have hrem := remaining_of_rest (s := accept (.encode 0) s) hr
  simp only [Progress.bound, workBound, hrem, byteBits_length]
  omega

end

/-! ### RDHDR, WRHDR and DECODE -/

section
variable {s : State} {k : Nat} {left : Bits}

/-- RDHDR's read of a marker fails (R96, R42). -/
theorem rdhdr_marker_fails {t : HuffTree} {pre post : List HdrToken} {more : Bits} (hs : s.Ready)
    (hd : t.leaves.Nodup) (ht : t.tokens = pre ++ post) (hpost : post ≠ []) (hr : s.rest = tokenBits pre ++ more)
    (hf : s.FailsAfter (tokenReads pre).length k left) :
    exec (.rdhdr 0) s = .next ((s.streamed (tokenBits pre).length []
      (tokenReads pre ++ [.inRead 1])).withoutTree.readFailed 0x9 k) := by
  have ho := hs.outstanding_accept (.rdhdr 0)
  have hfD : (accept (.rdhdr 0) s).dropTree.FailsAfter (tokenReads pre).length k left := hf
  obtain ⟨j, stack, hsteps, hj⟩ := rdhdr_begins (hfD.promptFor le_rfl) ho hd ht hpost hr
  have hfail := (rdhdr_fail (tokenLeaves pre).reverse (pre.count .internal) stack
    (hfD.streamed (n := 0) (tokenBits pre).length []).nextAnswer ho).1
  rw [streamed_streamed] at hfail
  exact exec_rdhdr_read_fails hs (hsteps.trans (.one hfail)) (by rw [hr, List.length_append]; omega)

/-- RDHDR's read of a leaf's field fails (R96, R42). -/
theorem rdhdr_field_fails {t : HuffTree} {pre post : List HdrToken} {more : Bits} (hs : s.Ready)
    (hd : t.leaves.Nodup) (ht : t.tokens = pre ++ post) (hpost : post ≠ [])
    (hr : s.rest = tokenBits pre ++ true :: more) (hf : s.FailsAfter ((tokenReads pre).length + 1) k left) :
    exec (.rdhdr 0) s = .next ((s.streamed ((tokenBits pre).length + 1) []
      (tokenReads pre ++ [.inRead 1, .inRead 9])).withoutTree.readFailed 0x9 k) := by
  have ho := hs.outstanding_accept (.rdhdr 0)
  have hfD : (accept (.rdhdr 0) s).dropTree.FailsAfter ((tokenReads pre).length + 1) k left := hf
  obtain ⟨j, stack, hsteps, hj⟩ := rdhdr_begins (hfD.promptFor (Nat.le_succ _)) ho hd ht hpost hr
  have hrest : ((accept (.rdhdr 0) s).dropTree.streamed (tokenBits pre).length [] (tokenReads pre)).rest =
      true :: more := by
    rw [streamed_rest]; exact (congrArg (List.drop _) hr).trans (List.drop_left)
  have hnext := hfD.streamed (n := 1) (tokenBits pre).length []
  have hmarker := rdhdr_marker (tokenLeaves pre).reverse (pre.count .internal) stack (hnext.promptFor le_rfl) ho hrest
  have hfail := (rdhdr_fail (tokenLeaves pre).reverse (pre.count .internal) stack
    (hnext.streamed (cs := [.inRead 1]) (n := 0) 1 []).nextAnswer ho).2
  rw [if_pos rfl] at hmarker
  have hread := hsteps.trans (.cons hmarker (.one hfail))
  rw [streamed_streamed, streamed_streamed] at hread
  exact exec_rdhdr_read_fails hs hread (by rw [hr, List.length_append, List.length_cons]; omega)

/-- WRHDR begins at the whole of TREE (R93). -/
theorem wrhdr_begins {t : HuffTree} (hv : s.status.treeValid = true) (ht : s.tree = some t) :
    bodyOf (.wrhdr 0) (accept (.wrhdr 0) s) = .more (.wrhdr [.subtree t]) (accept (.wrhdr 0) s) := by
  simp [bodyOf, wrhdrStart, accept, hv, ht]

/-- A write of WRHDR fails (R93, R44). -/
theorem wrhdr_write_fails {t : HuffTree} {pre post : List Call} {c : Call} (hs : s.Ready)
    (hv : s.status.treeValid = true) (ht : s.tree = some t) (hcalls : t.hdrCalls = pre ++ c :: post)
    (hf : s.FailsAfter pre.length k left) :
    exec (.wrhdr 0) s =
      .next ((s.streamed 0 (pre.flatMap Call.bits ++ c.bits.take k) (pre ++ [c])).writeFailed 0x6) := by
  have ho := hs.outstanding_accept (.wrhdr 0)
  obtain ⟨stack, hwrites, hstack⟩ := wrhdr_run (pre := pre) (post := c :: post) (stack := [.subtree t])
    (by simp [HdrItem.calls, hcalls]) ((hf.accept (.wrhdr 0)).promptFor le_rfl) ho
  have hfail := wrhdr_fail hstack ((hf.accept (.wrhdr 0)).streamed (n := 0) 0 (pre.flatMap Call.bits)).nextAnswer ho
  rw [streamed_streamed] at hfail
  refine exec_write_fails hs rfl (wrhdr_begins hv ht) (hwrites.trans (.one hfail)) ?_
  have hlength := congrArg List.length hcalls
  have := t.hdrCalls_length_le
  simp only [List.length_append, List.length_cons] at hlength
  simp only [Progress.bound, workBound, writeCost]
  omega

/-- DECODE begins at the root of TREE (R108). -/
theorem decode_begins {t : HuffTree} (hv : s.status.treeValid = true) (ht : s.tree = some t) :
    bodyOf (.decode 0) (accept (.decode 0) s) = .more (.decode t) (accept (.decode 0) s) := by
  simp [bodyOf, decodeStart, accept, hv, ht]

/-- DECODE after some bytes and the bits `p` of a further path, in a tree with an internal root (R108, R114). -/
theorem decode_reaches {t cur : HuffTree} {bytes : List (Fin 256)} {p more : Bits} (ho : s.outstanding = none)
    (ht : s.tree = some t) (hroot : ∀ x, t.codeOf x ≠ some []) (hb : ∀ b ∈ bytes, byteSym b ∈ t.leaves)
    (hat : t.at? p = some cur) (hr : s.rest = codesOf t.codeOf bytes ++ p ++ more)
    (hp : s.PromptFor ((decodeCalls t.codeOf bytes).length + p.length)) :
    ∃ j, Steps j (.more (.decode t) s)
        (.more (.decode cur) (s.streamed (codesOf t.codeOf bytes ++ p).length (byteBits bytes)
          (decodeCalls t.codeOf bytes ++ bitReads p.length))) ∧
      j ≤ 2 * (codesOf t.codeOf bytes ++ p).length := by
  rw [List.append_assoc] at hr
  obtain ⟨j, hbytes, hj⟩ := decode_bytes bytes (p ++ more) s (hp.mono (Nat.le_add_right _ _)) ho ht hb hr
  have hwalk := decode_walk p t cur _ more (hp.streamed (codesOf t.codeOf bytes).length (byteBits bytes)) ho ht
    (by simp [hr]) hat
  rw [streamed_streamed, List.append_nil, ← List.length_append] at hwalk
  have := hj fun b _ => hroot (byteSym b)
  exact ⟨_, hbytes.trans hwalk, by rw [List.length_append]; omega⟩

/-- DECODE's read of a bit fails (R108, R42). -/
theorem decode_read_fails {t cl cr : HuffTree} {cw : Nat} {bytes : List (Fin 256)} {p more : Bits} (hs : s.Ready)
    (hv : s.status.treeValid = true) (ht : s.tree = some t) (hroot : ∀ x, t.codeOf x ≠ some [])
    (hb : ∀ b ∈ bytes, byteSym b ∈ t.leaves) (hat : t.at? p = some (.node cl cr cw))
    (hr : s.rest = codesOf t.codeOf bytes ++ p ++ more)
    (hf : s.FailsAfter ((decodeCalls t.codeOf bytes).length + p.length) k left) :
    exec (.decode 0) s = .next ((s.streamed (codesOf t.codeOf bytes ++ p).length (byteBits bytes)
      (decodeCalls t.codeOf bytes ++ bitReads (p.length + 1))).readFailed 0xA k) := by
  have ho := hs.outstanding_accept (.decode 0)
  obtain ⟨j, hsteps, hj⟩ :=
    decode_reaches ho ht hroot hb hat hr ((hf.accept (.decode 0)).promptFor le_rfl)
  have hnext : ((accept (.decode 0) s).streamed (codesOf t.codeOf bytes ++ p).length (byteBits bytes)
      (decodeCalls t.codeOf bytes ++ bitReads p.length)).FailsAfter 0 k left :=
    State.FailsAfter.streamed (by simpa using hf.accept (.decode 0)) _ _
  have hfail := decode_read_fail (l := cl) (r := cr) (w := cw) (by exact ht) hnext.nextAnswer ho
  have hreads : bitReads p.length ++ [.inRead 1] = bitReads (p.length + 1) := List.replicate_succ'.symm
  rw [streamed_streamed, List.append_nil, List.append_assoc, hreads] at hfail
  refine exec_read_fails hs rfl (decode_begins hv ht) (hsteps.trans (.one hfail)) ?_
  have hrem := remaining_of_rest (s := accept (.decode 0) s) hr
  simp only [Progress.bound, workBound, hrem]
  omega

/-- DECODE's write of a byte fails (R108, R44). -/
theorem decode_write_fails {t : HuffTree} {x : Fin 256} {bytes : List (Fin 256)} {c more : Bits} (hs : s.Ready)
    (hv : s.status.treeValid = true) (ht : s.tree = some t) (hroot : ∀ x, t.codeOf x ≠ some [])
    (hb : ∀ b ∈ bytes, byteSym b ∈ t.leaves) (hc : t.codeOf (byteSym x) = some c)
    (hr : s.rest = codesOf t.codeOf bytes ++ c ++ more)
    (hf : s.FailsAfter ((decodeCalls t.codeOf bytes).length + c.length) k left) :
    exec (.decode 0) s = .next ((s.streamed (codesOf t.codeOf bytes ++ c).length
      (byteBits bytes ++ (bin 8 x.val).take k)
      (decodeCalls t.codeOf bytes ++ bitReads c.length ++ [.outWrite 8 x.val])).writeFailed 0xA) := by
  have ho := hs.outstanding_accept (.decode 0)
  obtain ⟨w, hat⟩ := HuffTree.at?_codeOf hc
  obtain ⟨j, hsteps, hj⟩ :=
    decode_reaches ho ht hroot hb hat hr ((hf.accept (.decode 0)).promptFor le_rfl)
  have hnext : ((accept (.decode 0) s).streamed (codesOf t.codeOf bytes ++ c).length (byteBits bytes)
      (decodeCalls t.codeOf bytes ++ bitReads c.length)).FailsAfter 0 k left :=
    State.FailsAfter.streamed (by simpa using hf.accept (.decode 0)) _ _
  have hfail := (decode_write (b := x) (w := w) (by exact ho) (by exact ht)).2 k left hnext.nextAnswer
  rw [streamed_streamed] at hfail
  refine exec_write_fails hs rfl (decode_begins hv ht) (hsteps.trans (.one hfail)) ?_
  have hrem := remaining_of_rest (s := accept (.decode 0) s) hr
  simp only [Progress.bound, workBound, hrem]
  omega

end

/-- Settles O41. -/
theorem failingCallIsAnIOFailure : Obligations.FailingCallIsAnIOFailure := by
  intro s before after k left hs ha hok
  have hf := State.failsAfter ha hok
  refine ⟨fun table bytes hv hc hb => ⟨fun more hr hl => ?_, fun x c more hr hx hne hl => ?_,
    fun e tail hr htail he hne hl => ?_⟩, fun t pre post more hd ht hpost => ⟨fun hr hl => ?_, fun hr hl => ?_⟩,
    fun t pre post c hv ht hcalls hl => wrhdr_write_fails hs hv ht hcalls (hl ▸ hf),
    fun t l r w bytes hv ht hnode hb => ?_⟩
  · exact encode_read_fails hs hv hc hb hr (hl ▸ hf)
  · exact encode_write_fails hs hv hc hb (by rw [hr, List.append_assoc]) (hl ▸ hf) hne (.inl rfl)
      fun t hp ho hcode hrest => encode_fetch hp ho hcode hrest hx
  · exact encode_write_fails (n := 0) hs hv hc hb hr (hl ▸ hf) hne (.inr rfl)
      fun t hp ho hcode hrest => encode_eod hp ho hcode (hrest ▸ htail) he
  · exact rdhdr_marker_fails hs hd ht hpost hr (hl ▸ hf)
  · exact rdhdr_field_fails hs hd ht hpost hr (hl ▸ hf)
  · have hroot : ∀ x, t.codeOf x ≠ some [] :=
      HuffTree.codeOf_ne_nil_of_node ((HuffTree.at?_nil t).trans (congrArg some hnode))
    exact ⟨fun p more cl cr cw hat hr hl => decode_read_fails hs hv ht hroot hb hat hr (hl ▸ hf),
      fun x c more hc hr hl => decode_write_fails hs hv ht hroot hb hc hr (hl ▸ hf)⟩

end Sys2Proof.Machine
end

section
/-! PROOFS. The hardware reset, before a step and at any moment while one runs (spec/70_reset_and_hazards.md rules R132,
R134). -/

namespace Sys2Proof.Machine

/-! ### What the hardware reset leaves -/

/-- The outside parties but for what an outstanding call still does to them (R134). -/
theorem hardReset_kept (s : State) :
    (hardReset s).wCount = s.wCount ∧ (hardReset s).inp = s.inp ∧ (hardReset s).port = s.port ∧
      (hardReset s).resetPin = s.resetPin ∧ (hardReset s).calls = s.calls := by
  obtain ⟨pos, out, as, h, -⟩ := hardReset_eq s
  rw [h]
  exact ⟨rfl, rfl, rfl, rfl, rfl⟩

/-- Only an outstanding flush may take bits from OUT. -/
theorem hardReset_outGrows {s : State} (h : s.outstanding ≠ some .outFlush) : s.out <+: (hardReset s).out := by
  obtain ⟨pos, out, as, heq, hout, -⟩ := hardReset_eq s
  rw [heq]
  exact hout h

/-- The reset before a step, from every state. -/
theorem step_asserted {s : State} (h : s.resetLevel = .asserted) : step s = .next (hardReset s.nextPin) := by
  simp [step, State.resetAsserted, resetStep, h]

/-! ### A reset while a step runs -/

/-- The moments of a step at which the reset may come (R134), `t` being where it would have ended and `cs` the calls it
would have made. -/
structure ResetMoments (s : State) (pin : List ResetLevel) (t : State) (cs : List Call) : Prop where
  whole : step { s with resetPin := .released :: pin } = .next t
  calls : t.calls = s.calls ++ cs
  each : ∀ n, ∃ u k, step { s with resetPin := .during n :: pin } = .next u ∧ u.AtReset ∧
    u.wCount = s.wCount ∧ u.inp = t.inp ∧ u.port = t.port ∧ u.resetPin = pin ∧ u.calls = s.calls ++ cs.take k
  moment : ∀ k ≤ cs.length, ∃ n u, step { s with resetPin := .during n :: pin } = .next u ∧
    u.calls = s.calls ++ cs.take k
  last : ∃ m, ∀ n ≥ m, ∃ u, step { s with resetPin := .during n :: pin } = .next u ∧ u.calls = t.calls ∧
    (t.status.busy = false → u.out = t.out ∧ u.inPos = t.inPos ∧ u.answers = t.answers)

/-- No step of a command touches IN's bits or the port. -/
theorem Course.whole_kept {s s₀ t : State} {pin : List ResetLevel} {op : BitVec 4} {p : Progress}
    (h : Course s pin op p s₀ t) : t.inp = s.inp ∧ t.port = s₀.port := by
  obtain ⟨k, q, hsteps, hend⟩ := h.ends
  obtain ⟨-, -, hinp, -⟩ := h.kept
  have hq : ∃ v, q.state? = some v ∧ t.inp = v.inp ∧ t.port = v.port := by cases hend <;> exact ⟨_, rfl, rfl, rfl⟩
  obtain ⟨v, hv, hvinp, hvport⟩ := hq
  obtain ⟨-, hinp', hport, -⟩ := hsteps.untouched h.starts hv
  exact ⟨hvinp.trans (hinp'.trans hinp), hvport.trans hport⟩

/-- A step in which a command runs. -/
theorem Course.resetMoments {s s₀ t : State} {pin : List ResetLevel} {op : BitVec 4} {p : Progress}
    (h : Course s pin op p s₀ t) (ht : t.Inv) : ∃ cs, ResetMoments s pin t cs := by
  obtain ⟨hinp, hport⟩ := h.whole_kept
  obtain ⟨cs, hcalls, heach, hmoment, N, hlast⟩ := h.all
  refine ⟨cs, h.whole, hcalls, fun n => ?_, fun k hk => ?_, N, fun n hn => ?_⟩
  · obtain ⟨v, k, hstep, hwidth, hvinp, hvport, hvpin, hvcalls, -⟩ := heach n
    obtain ⟨hwidth', hinp', hport', hpin', hcalls'⟩ := hardReset_kept v
    exact ⟨_, k, hstep, hardReset_atReset v, hwidth'.trans hwidth, hinp'.trans (hvinp.trans hinp.symm),
      hport'.trans (hvport.trans hport.symm), hpin'.trans hvpin, hcalls'.trans hvcalls⟩
  · obtain ⟨n, v, hstep, hvcalls⟩ := hmoment k hk
    obtain ⟨-, -, -, -, hcalls'⟩ := hardReset_kept v
    exact ⟨n, _, hstep, hcalls'.trans hvcalls⟩
  · obtain ⟨v, hstep, hvcalls, hout, hpos, hanswers, houtstanding⟩ := hlast n hn
    obtain ⟨-, -, -, -, hcalls'⟩ := hardReset_kept v
    refine ⟨_, hstep, hcalls'.trans hvcalls, fun hbusy => ?_⟩
    obtain ⟨-, -, hquiet⟩ := ht.idle hbusy
    rw [hardReset_quiet (houtstanding.trans hquiet)]
    exact ⟨hout, hpos, hanswers⟩

/-- A step with no command offered makes no call; the reset comes after the host's move, whenever it comes. -/
theorem noOffer_resetMoments {s : State} (pin : List ResetLevel) (h : s.Inv) (hb : s.status.busy = false)
    (hn : s.NoOffer) : ∃ t, ResetMoments s pin t [] := by
  obtain ⟨inp, pos, out, moves, hmove⟩ := hostMove_noOffer (s := { s with resetPin := pin }) hn
  obtain ⟨-, -, hquiet⟩ := h.idle hb
  have hcut : ∀ n, step { s with resetPin := .during n :: pin } = .next (resetBlock
      { s with resetPin := pin, inp := inp, inPos := pos, out := out, port := moves }) := fun n => by
    rw [step_during_noOffer pin n hb hn, ← hardReset_quiet (by exact hquiet)]
    exact congrArg thenReset (hmove s.answers)
  have hwhole := (step_of_idle (s := { s with resetPin := .released :: pin }) rfl hb).trans (hmove s.answers)
  refine ⟨_, hwhole, (List.append_nil _).symm, fun n => ?_, fun k _ => ?_, 0, fun n _ => ?_⟩
  · exact ⟨_, 0, hcut n, resetBlock_atReset _, rfl, rfl, rfl, rfl, (List.append_nil _).symm⟩
  · exact ⟨0, _, hcut 0, by rw [List.take_nil, List.append_nil]; rfl⟩
  · exact ⟨_, hcut n, rfl, fun _ => ⟨rfl, rfl, rfl⟩⟩

theorem step_resetMoments {s : State} (pin : List ResetLevel) (h : s.Inv) : ∃ t cs, ResetMoments s pin t cs := by
  cases hb : s.status.busy with
  | true =>
    obtain ⟨w, p, s₀, t, -, -, hcourse, ht⟩ := Course.busy pin h hb
    exact ⟨t, hcourse.resetMoments ht⟩
  | false =>
    rcases s.offer_cases with hoffer | ⟨cmd, data, moves, hp⟩
    · obtain ⟨t, hmoments⟩ := noOffer_resetMoments pin h hb hoffer
      exact ⟨t, [], hmoments⟩
    · obtain ⟨p, s₀, t, -, hcourse, ht⟩ := Course.offered pin h hb hp
      exact ⟨t, hcourse.resetMoments ht⟩

/-- A command that is not FLUSH only adds to OUT, also when it is cut short. -/
theorem Course.outGrows_cut {s s₀ t u : State} {pin : List ResetLevel} {op : BitVec 4} {p : Progress}
    (h : Course s pin op p s₀ t) (hop : op ≠ 0x8) (ho : s.outstanding ≠ some .outFlush) {n : Nat}
    (hu : step { s with resetPin := .during n :: pin } = .next u) : s.out <+: u.out := by
  obtain ⟨cs, -, heach, -⟩ := h.all
  obtain ⟨v, k, hstep, -, -, -, -, -, hgrows⟩ := heach n
  cases hu.symm.trans hstep
  obtain ⟨hout, hflush⟩ := hgrows hop ho
  exact hout.trans (hardReset_outGrows hflush)

/-! ### In a BUSY block -/

/-- The first moment of a step of a BUSY block is the one before it. -/
theorem step_during_zero_of_busy {s : State} (pin : List ResetLevel) (h : s.Inv) (hb : s.status.busy = true) :
    step { s with resetPin := .during 0 :: pin } = step { s with resetPin := .asserted :: pin } := by
  obtain ⟨-, w, l, c, hw, -⟩ := h.running hb
  have hcut : step { s with resetPin := .during 0 :: pin } =
      .next (hardReset (({ s with resetPin := pin } : State).setWork none)) := by
    have hstep : step { s with resetPin := .during 0 :: pin } = cutStep 0 { s with resetPin := pin } := rfl
    rw [hstep, cutStep, if_pos hb]
    simp only [hw, runPieces_zero, cutShort]
  rw [hcut, hardReset_setWork, step_asserted rfl]
  rfl

/-- Only FLUSH waits for a flush. -/
theorem Work.pendingCall_ne_flush {w : Work} (h : w ≠ .flush) : w.pendingCall ≠ some .outFlush := by
  cases w with
  | flush => exact absurd rfl h
  | _ => unfold pendingCall; split <;> simp_all

theorem busy_outGrows {s u : State} {pin : List ResetLevel} (h : s.Inv) (hb : s.status.busy = true)
    (hw : s.work ≠ some .flush) {n : Nat} (hu : step { s with resetPin := .during n :: pin } = .next u) :
    s.out <+: u.out := by
  obtain ⟨w, p, s₀, t, hwork, -, hcourse, -⟩ := Course.busy pin h hb
  obtain ⟨-, w', l, c, hwork', -, hc, hpending, -, hfits⟩ := h.running hb
  cases hwork.symm.trans hwork'
  have hflush : w ≠ .flush := fun e => hw (hwork.trans (congrArg some e))
  refine hcourse.outGrows_cut ((Work.opcode_of_fits hfits).2 hflush) ?_ hu
  rw [hc, ← hpending]
  exact Work.pendingCall_ne_flush hflush

/-! ### A command offered to an idle block -/

/-- The state in which an offered command begins (R31, R53). -/
def State.taken (s : State) (pin : List ResetLevel) (cmd : CmdWord) (data : Nat) (moves : List PortEvent) : State :=
  (({ s with resetPin := pin } : State).setPort moves).latchCommand cmd data

/-- At the first moment the command is accepted and has touched no stream. -/
theorem offered_first {s : State} (pin : List ResetLevel) {cmd : CmdWord} {data : Nat} {moves : List PortEvent}
    (h : s.Inv) (hb : s.status.busy = false) (hp : s.port = .offer cmd data :: moves) :
    step { s with resetPin := .during 0 :: pin } = .next (resetBlock { s with port := moves, resetPin := pin }) := by
  obtain ⟨-, -, hquiet⟩ := h.idle hb
  obtain ⟨p, s₀, t, hport, hcourse, -⟩ := Course.offered pin h hb hp
  obtain ⟨hwaits, hwidth, hinp, hpos, hout, hcalls, hanswers, hpin, ho⟩ := hcourse.kept
  rw [hcourse.cut, runPieces_zero, cutShort_state hcourse.starts, hardReset_quiet (ho.trans hquiet)]
  exact congrArg _ (resetBlock_congr hwidth hinp hpos hout hcalls hanswers hport hpin hwaits)

/-- After some pieces of work, with no call outstanding. -/
theorem offered_moment {s u v : State} (pin : List ResetLevel) {cmd : CmdWord} {data : Nat} {moves : List PortEvent}
    {i : Instr} {p : Progress} {w : Work} {k : Nat} (hb : s.status.busy = false)
    (hp : s.port = .offer cmd data :: moves)
    (herr : s.status.err = 0) (hi : decode cmd data = i) (hc : illegalCause i = none)
    (hbody : bodyOf i (accept i (s.taken pin cmd data moves)) = p) (hsteps : Steps k p (.more w v))
    (hv : v.outstanding = none) (hu : resetBlock v = resetBlock u) :
    ∃ n, step { s with resetPin := .during n :: pin } = .next (resetBlock u) := by
  refine ⟨k, ?_⟩
  have hcut : step { s with resetPin := .during k :: pin } = cutStep k { s with resetPin := pin } := rfl
  have hprologue : prologue i (bodyOf i) (s.taken pin cmd data moves) = p :=
    (prologue_runs (s := s.taken pin cmd data moves) (.inl herr) hc).trans hbody
  rw [hcut, cutStep, if_neg (by simp [hb])]
  simp only [hp, hi]
  rw [← hu, ← hardReset_quiet hv]
  exact congrArg cutShort ((congrArg _ hprologue).trans hsteps.runPieces)

/-- Settles O47. -/
theorem hardwareResetAtAnyMoment : Obligations.HardwareResetAtAnyMoment := by
  refine ⟨fun s hlevel => ?_, fun s pin h => ?_, fun s pin h hb => ?_, fun s pin cmd data moves h hb hp => ?_⟩
  · obtain ⟨hwidth, hinp, hport, -, hcalls⟩ := hardReset_kept s.nextPin
    obtain ⟨pos, out, as, heq, hout, hpos, hquiet⟩ := hardReset_eq s.nextPin
    refine ⟨_, step_asserted hlevel, hardReset_atReset _, hwidth, hinp, hport, hcalls, ?_⟩
    rw [heq]
    exact ⟨hout, hpos, hquiet⟩
  · obtain ⟨t, cs, hmoments⟩ := step_resetMoments pin h
    exact ⟨t, cs, hmoments.whole, hmoments.calls, hmoments.each, hmoments.moment, hmoments.last⟩
  · exact ⟨step_during_zero_of_busy pin h hb, fun n u hw hu => busy_outGrows h hb hw hu⟩
  · obtain ⟨-, -, hquiet⟩ := h.idle hb
    refine ⟨offered_first pin h hb hp, fun n u hop hu => ?_, fun herr hprompt => ?_⟩
    · obtain ⟨p, s₀, t, -, hcourse, -⟩ := Course.offered pin h hb hp
      exact hcourse.outGrows_cut hop (by rw [hquiet]; nofun) hu
    have hbegin : (s.taken pin cmd data moves).Prompt := hprompt
    refine ⟨fun t pre post hi ht hcalls => ?_, fun table bytes more hi hcode hb' hr => ?_,
      fun t pre post more hi hd htokens hpost hr => ?_, fun t bytes more hi ht hb' hr => ?_⟩
    · have hvalid : s.status.treeValid = true := by rw [h.treeHeld, ht]; rfl
      obtain ⟨stack, hsteps, -⟩ := wrhdr_run (pre := pre) (post := post) (stack := [.subtree t])
        (s := accept (.wrhdr 0) (s.taken pin cmd data moves))
        (by simp [HdrItem.calls, hcalls]) ((hbegin.accept _).promptFor _) hquiet
      exact offered_moment pin hb hp herr hi rfl (wrhdr_begins hvalid ht) hsteps hquiet rfl
    · have hvalid : s.status.codesValid = true := by rw [h.codesHeld, hcode]; rfl
      have hsteps := encode_steps table bytes (accept (.encode 0) (s.taken pin cmd data moves)) more
        ((hbegin.accept _).promptFor _) hquiet hcode hr hb'
      exact offered_moment pin hb hp herr hi rfl (encode_begins hvalid) hsteps hquiet rfl
    · obtain ⟨k, stack, hsteps, -⟩ := rdhdr_begins (s := (accept (.rdhdr 0) (s.taken pin cmd data moves)).dropTree)
        (State.Prompt.promptFor hprompt _) hquiet hd htokens hpost hr
      exact offered_moment pin hb hp herr hi rfl rfl hsteps hquiet rfl
    · have hvalid : s.status.treeValid = true := by rw [h.treeHeld, ht]; rfl
      obtain ⟨k, hsteps, -⟩ := decode_bytes bytes more (accept (.decode 0) (s.taken pin cmd data moves))
        ((hbegin.accept _).promptFor _) hquiet ht hb' hr
      exact offered_moment pin hb hp herr hi rfl (decode_begins hvalid ht) hsteps hquiet rfl

end Sys2Proof.Machine
end
